-- ==== Sys2Proof/Word.lean ====
section
/-! DEFINITION. Sys2Proof/Word.lean: the word and the byte of the engine.

00_scope.md R7: a word is an unsigned 32-bit value and a byte an unsigned 8-bit value; no value is signed.
Addition of `BitVec 32` wraps modulo 2^32, as R9 asks; `^^^`, `&&&`, `|||` and `~~~` are the operators of R10. -/

namespace Sys2Proof

/-- A word: an unsigned 32-bit value (R7). -/
abbrev Word := BitVec 32

/-- A byte: an unsigned 8-bit value (R7). -/
abbrev Byte := BitVec 8

end Sys2Proof
end

