-- ==== Sys2Proof/Machine/Bytes.lean ====
section
/-! DEFINITION. Sys2Proof/Machine/Bytes.lean: rotation, byte order and byte strings (00_scope.md R8, R11, R12).

A byte string is a list of bytes, byte 0 first. -/

namespace Sys2Proof.Machine

/-- R11: `x` rotated left by `n` positions, for any integer `n`; a negative amount rotates right. -/
def rotl (x : Word) (n : Int) : Word :=
  let m := (n % 32).toNat
  if m = 0 then x else (x <<< m) ||| (x >>> (32 - m))

/-- R8: `zeros(n)`. -/
def zeros (n : Nat) : List Byte := List.replicate n 0

/-- R8: `rep(v, n)`. -/
def rep (v : Byte) (n : Nat) : List Byte := List.replicate n v

/-- R8: `a ⊕ b`, bytewise, for two strings of equal length. -/
def xorBytes (a b : List Byte) : List Byte := List.zipWith (· ^^^ ·) a b

/-- R12: BE32(b, i), the word of the four bytes from byte `i`, most significant first. -/
def be32 (b : List Byte) (i : Nat) : Word :=
  b.getD i 0 ++ b.getD (i + 1) 0 ++ b.getD (i + 2) 0 ++ b.getD (i + 3) 0

/-- R12: SER32(x), the four bytes of a word, most significant first. -/
def ser32 (x : Word) : List Byte :=
  [x.extractLsb' 24 8, x.extractLsb' 16 8, x.extractLsb' 8 8, x.extractLsb' 0 8]

/-- R12: SER64(v), the eight bytes of a 64-bit value, most significant first. -/
def ser64 (v : BitVec 64) : List Byte :=
  [v.extractLsb' 56 8, v.extractLsb' 48 8, v.extractLsb' 40 8, v.extractLsb' 32 8,
    v.extractLsb' 24 8, v.extractLsb' 16 8, v.extractLsb' 8 8, v.extractLsb' 0 8]

/-- R12: WORDS4(b), the four words of a 16-byte string. -/
def words4 (b : List Byte) : Vector Word 4 := #v[be32 b 0, be32 b 4, be32 b 8, be32 b 12]

/-- R12: SERW(w0..wk), the words as bytes in order. -/
def serw (ws : List Word) : List Byte := ws.flatMap ser32

end Sys2Proof.Machine
end

