-- ==== Sys2Proof/Syntax.lean ====
section
/-! DEFINITION. Sys2Proof/Syntax.lean: the commands of the engine and the fields of a command word.

30_encoding.md R90 to R93, R99 and R100. -/

namespace Sys2Proof

/-- The twelve commands of R91, one constructor a row of spec/opcode_table.json. `kx` is the KX option (R93) and
`ivl` the IVL option (R92), each present exactly where the table gives the row the bit. -/
inductive Instr where
  /-- R190: no operation. -/
  | nop
  /-- R132: open a hash stream. -/
  | hinit
  /-- R118: one compression of MEM[SRC +: 64] into HS. -/
  | hcomp
  /-- R133: absorb MEM[SRC +: LEN] into the stream. -/
  | hupd
  /-- R135: pad, finish, write the digest to MEM[DST +: 32]. -/
  | hfin
  /-- R137: one-shot hash of MEM[SRC +: LEN] to MEM[DST +: 32]. -/
  | hash
  /-- R152: MAC of MEM[SRC +: LEN] under the key MEM[KEYP +: KLEN] to MEM[DST +: 32]. -/
  | hmac
  /-- R163: expand the key MEM[KEYP +: 16] into RK. -/
  | kexp
  /-- R173: encrypt the block MEM[SRC +: 16] to MEM[DST +: 16]. -/
  | benc (kx : Bool)
  /-- R174: decrypt the block MEM[SRC +: 16] to MEM[DST +: 16]. -/
  | bdec (kx : Bool)
  /-- R180: chained encryption of MEM[SRC +: LEN] to MEM[DST +: LEN]. -/
  | cbce (ivl kx : Bool)
  /-- R181: chained decryption of MEM[SRC +: LEN] to MEM[DST +: LEN]. -/
  | cbcd (ivl kx : Bool)
deriving DecidableEq, Repr

/-- The fields of the one format, CMD32 (R90). Every 32-bit word is one value of this record. -/
structure CmdFields where
  /-- Bits 3:0, the operation (R91). -/
  op : BitVec 4
  /-- Bit 4 (R92). -/
  ivl : Bool
  /-- Bit 5 (R93). -/
  kx : Bool
  /-- Bits 31:6, reserved, must be 0. -/
  rsvd : BitVec 26
deriving DecidableEq, Repr

/-- The field values of a command (R91, R100). -/
def Instr.fields : Instr → CmdFields
  | .nop => ⟨0x0, false, false, 0⟩
  | .hinit => ⟨0x1, false, false, 0⟩
  | .hcomp => ⟨0x2, false, false, 0⟩
  | .hupd => ⟨0x3, false, false, 0⟩
  | .hfin => ⟨0x4, false, false, 0⟩
  | .hash => ⟨0x5, false, false, 0⟩
  | .hmac => ⟨0x6, false, false, 0⟩
  | .kexp => ⟨0x7, false, false, 0⟩
  | .benc kx => ⟨0x8, false, kx, 0⟩
  | .bdec kx => ⟨0x9, false, kx, 0⟩
  | .cbce ivl kx => ⟨0xA, ivl, kx, 0⟩
  | .cbcd ivl kx => ⟨0xB, ivl, kx, 0⟩

/-- The operation mnemonic of R91, as spec/opcode_table.json spells it. -/
def Instr.mnemonic : Instr → String
  | .nop => "NOP"
  | .hinit => "HINIT"
  | .hcomp => "HCOMP"
  | .hupd => "HUPD"
  | .hfin => "HFIN"
  | .hash => "HASH"
  | .hmac => "HMAC"
  | .kexp => "KEXP"
  | .benc _ => "BENC"
  | .bdec _ => "BDEC"
  | .cbce _ _ => "CBCE"
  | .cbcd _ _ => "CBCD"

/-- The assembler's spelling of a command (R99): the mnemonic, then `.IV` if IVL = 1, then `.KX` if KX = 1. -/
def Instr.asm (i : Instr) : String :=
  i.mnemonic ++ (if i.fields.ivl then ".IV" else "") ++ (if i.fields.kx then ".KX" else "")

/-- The twenty commands of R100, in its order (down the left column, then down the right one). -/
def Instr.all : List Instr :=
  [.nop, .hinit, .hcomp, .hupd, .hfin, .hash, .hmac, .kexp, .benc false, .benc true] ++
  [.bdec false, .bdec true, .cbce false false, .cbce true false, .cbce false true, .cbce true true] ++
  [.cbcd false false, .cbcd true false, .cbcd false true, .cbcd true true]

end Sys2Proof
end

