-- ==== Sys2Proof/WellFormed.lean ====
section
/-! DEFINITION. Sys2Proof/WellFormed.lean: which field values are a legal command (30_encoding.md R94).

One check for each of the four conditions of R94. A word is ILLEGAL when one of them fails. -/

namespace Sys2Proof

/-- R94 condition 1: OP is none of the reserved values 0xC, 0xD, 0xE, 0xF. -/
def CmdFields.opOk (f : CmdFields) : Bool := decide (f.op.toNat < 0xC)

/-- R94 condition 2: RSVD = 0. -/
def CmdFields.rsvdOk (f : CmdFields) : Bool := decide (f.rsvd = 0)

/-- R94 condition 3: IVL = 1 only with OP ∈ {0xA, 0xB}. -/
def CmdFields.ivlOk (f : CmdFields) : Bool := !f.ivl || decide (f.op = 0xA) || decide (f.op = 0xB)

/-- R94 condition 4: KX = 1 only with OP ∈ {0x8, 0x9, 0xA, 0xB}. -/
def CmdFields.kxOk (f : CmdFields) : Bool :=
  !f.kx || decide (f.op = 0x8) || decide (f.op = 0x9) || decide (f.op = 0xA) || decide (f.op = 0xB)

/-- The fields of a legal command word: none of the four conditions of R94 holds. -/
def CmdFields.wellFormed (f : CmdFields) : Bool := f.opOk && f.rsvdOk && f.ivlOk && f.kxOk

/-- A command is well-formed when its field values are. An `Instr` has an option bit only where R92 and R93 define it,
so every command is (theorem `Instr.wellFormed_eq_true` of Laws/PerInstr.lean). -/
def Instr.wellFormed (i : Instr) : Bool := i.fields.wellFormed

end Sys2Proof
end

