-- ==== Sys2Proof/Decode.lean ====
section
/-! DEFINITION. Sys2Proof/Decode.lean: from a command word to a command, and back.

30_encoding.md R90, R91, R94, R95 and R100. The decoder is total on all 2^32 words (R95): it gives a command or names
why the word is ILLEGAL. -/

namespace Sys2Proof

/-- Why a command word is ILLEGAL: the condition of R94 that holds. All four are reported to the host as the same
code, ILLEGAL; the names serve a reader only. -/
inductive DecodeError where
  /-- R94 condition 1: OP is 0xC, 0xD, 0xE or 0xF. -/
  | reservedOp
  /-- R94 condition 2: a bit of 31:6 is set. -/
  | reservedBits
  /-- R94 condition 3: IVL = 1 outside CBCE and CBCD. -/
  | ivlNotAllowed
  /-- R94 condition 4: KX = 1 outside BENC, BDEC, CBCE and CBCD. -/
  | kxNotAllowed
deriving DecidableEq, Repr

/-- The fields of a word (R90). -/
def CmdFields.ofWord (w : Word) : CmdFields where
  op := w.extractLsb' 0 4
  ivl := w.getLsbD 4
  kx := w.getLsbD 5
  rsvd := w.extractLsb' 6 26

/-- The word of given fields (R90). -/
def CmdFields.toWord (f : CmdFields) : Word :=
  f.rsvd ++ BitVec.ofBool f.kx ++ BitVec.ofBool f.ivl ++ f.op

/-- A command whose row fixes IVL = 0. -/
def withoutIvl (f : CmdFields) (i : Instr) : Except DecodeError Instr :=
  if f.ivl then .error .ivlNotAllowed else .ok i

/-- A command whose row fixes IVL = 0 and KX = 0. -/
def withoutOptions (f : CmdFields) (i : Instr) : Except DecodeError Instr :=
  if f.kx then .error .kxNotAllowed else withoutIvl f i

/-- The decoder (R91, R94, R95), written from the opcode map of R91 row by row. -/
def decode (w : Word) : Except DecodeError Instr :=
  let f := CmdFields.ofWord w
  if f.rsvd ≠ 0 then .error .reservedBits
  else
    match f.op.toNat with
    | 0x0 => withoutOptions f .nop
    | 0x1 => withoutOptions f .hinit
    | 0x2 => withoutOptions f .hcomp
    | 0x3 => withoutOptions f .hupd
    | 0x4 => withoutOptions f .hfin
    | 0x5 => withoutOptions f .hash
    | 0x6 => withoutOptions f .hmac
    | 0x7 => withoutOptions f .kexp
    | 0x8 => withoutIvl f (.benc f.kx)
    | 0x9 => withoutIvl f (.bdec f.kx)
    | 0xA => .ok (.cbce f.ivl f.kx)
    | 0xB => .ok (.cbcd f.ivl f.kx)
    | _ => .error .reservedOp

/-- ILLEGAL(w) of R94, by its four conditions on the fields of the word. -/
def illegal (w : Word) : Bool := !(CmdFields.ofWord w).wellFormed

/-- The encoder: the word of a command (R100). -/
def encode (i : Instr) : Word := i.fields.toWord

/-- One row of the opcode table: a word belongs to the row when its bits under `mask` are `pattern`. -/
structure OpcodeRow where
  mnemonic : String
  pattern : Word
  mask : Word
deriving DecidableEq, Repr

/-- The rows of spec/opcode_table.json, their "mnemonic", "match" and "mask" as they stand there. -/
def opcodeRows : List OpcodeRow :=
  [⟨"NOP", 0x00000000, 0xFFFFFFFF⟩, ⟨"HINIT", 0x00000001, 0xFFFFFFFF⟩, ⟨"HCOMP", 0x00000002, 0xFFFFFFFF⟩] ++
  [⟨"HUPD", 0x00000003, 0xFFFFFFFF⟩, ⟨"HFIN", 0x00000004, 0xFFFFFFFF⟩, ⟨"HASH", 0x00000005, 0xFFFFFFFF⟩] ++
  [⟨"HMAC", 0x00000006, 0xFFFFFFFF⟩, ⟨"KEXP", 0x00000007, 0xFFFFFFFF⟩, ⟨"BENC", 0x00000008, 0xFFFFFFDF⟩] ++
  [⟨"BDEC", 0x00000009, 0xFFFFFFDF⟩, ⟨"CBCE", 0x0000000A, 0xFFFFFFCF⟩, ⟨"CBCD", 0x0000000B, 0xFFFFFFCF⟩]

/-- Whether a word belongs to a row of the opcode table. -/
def OpcodeRow.matches (r : OpcodeRow) (w : Word) : Bool := decide (w &&& r.mask = r.pattern)

/-- The command word of a number whose bit 0 is the least significant bit of the word. The table's rows are all one
word of 32 bits; a bit above `nbits` is 0. -/
def tableWord (nbits w : Nat) : Word := BitVec.ofNat 32 (w % 2 ^ nbits)

/-- What the decoder reads from a word of the opcode table. -/
def decodeTableWord (nbits w : Nat) : Option Instr := (decode (tableWord nbits w)).toOption

end Sys2Proof
end

