-- ==== Sys2Proof/Config.lean ====
section
/-! DEFINITION. Sys2Proof/Config.lean: what the spec leaves open.

The two parameters of 00_scope.md R6 that are OPEN are a record that State carries and no step changes, so every
statement about every state holds for every value of them. The values the spec calls "any value" (93 I7, I8) are
opaque constants: nothing can compute them or prove one. -/

namespace Sys2Proof

/-- The OPEN parameters of 00_scope.md R6. -/
structure Config where
  /-- MEM_BYTES, the size of MEM in bytes (R6, R70). -/
  memBytes : Nat
  /-- CSR_BASE, the base of the CSR window in the host's address map (R6, R32). -/
  csrBase : Nat
deriving DecidableEq, Repr

/-- R6, R70: 1 ≤ MEM_BYTES ≤ 2^32. CSR_BASE is under no rule of the engine (92, "Parameters left OPEN"). -/
def Config.wf (c : Config) : Bool := decide (1 ≤ c.memBytes ∧ c.memBytes ≤ 2 ^ 32)

/-- The parameters State.reset carries. DESIGN CHOICE (assumption 1): the spec leaves both open; 0x10000 is the size
its example programs assume (95_test_vectors.md), and 0 makes a CSR's host address its offset. -/
def Config.chosen : Config := { memBytes := 0x10000, csrBase := 0 }

/-- A free value: the byte MEM holds at an address after the power-up of the given number, as long as nothing has
written it (70_reset_and_hazards.md R232; 93 I7: any value). Assumption 2. -/
opaque Config.powerUpByte : Nat → Nat → Byte

/-- A free value: the byte drawn by the given draw of a reset that cuts a command (70_reset_and_hazards.md R231;
93 I8: any value). Assumption 8. -/
opaque Config.freeByte : Nat → Byte

end Sys2Proof
end

