-- ==== Sys2Proof/Machine/State.lean ====
section
/-! DEFINITION. Sys2Proof/Machine/State.lean: the state of the engine, of its memory and of the inputs still to come.

10_state.md R30 to R45 name the engine's registers, 20_memory.md R70 the data memory. The engine has no other
architectural state (R30, R31, R54, R83, R206, R210, R215, R216, R219, R220). The hash context and the cipher context
of R53 are one record each. -/

namespace Sys2Proof.Machine

/-- The result codes of STATUS.ERR (60_exceptions.md R200). The type is closed: codes 0x08 to 0xFF are never reported
(93 I3). -/
inductive Err where
  /-- 0x00, the command succeeded. -/
  | ok
  /-- 0x01, the command word is ILLEGAL. -/
  | illegal
  /-- 0x02, a region the command reads or writes is not in range. -/
  | range
  /-- 0x03, no schedule loaded. -/
  | noKey
  /-- 0x04, no stream open. -/
  | noCtx
  /-- 0x05, a stream is open and the command would destroy it. -/
  | ctxBusy
  /-- 0x06, LEN is not a multiple of 16. -/
  | lenAlign
  /-- 0x07, HLEN + LEN exceeds HLEN_MAX. -/
  | lenOvf
deriving DecidableEq, Repr

/-- The six operand CSRs (R30, R35, R36). -/
structure Operands where
  src : Word
  dst : Word
  len : Word
  keyp : Word
  klen : Word
  ivp : Word
deriving DecidableEq, Repr

/-- The hash context (R53): HS (R37), HBUF (R39), HCNT (R40), HLEN (R41) and STATUS.HACT (R38). -/
structure HashCtx where
  hs : Vector Word 8
  hbuf : Vector Byte 64
  hcnt : Fin 64
  hlen : BitVec 64
  hact : Bool
deriving DecidableEq, Repr

/-- The cipher context (R53): RK (R43), STATUS.KVALID (R44) and CR (R42). -/
structure CipherCtx where
  rk : Vector Word 32
  kvalid : Bool
  cr : Vector Word 4
deriving DecidableEq, Repr

/-- The registers of the CSR map (R32). A reserved offset is none of them. -/
inductive Csr where
  | cmd | status | src | dst | len | keyp | klen | ivp
  | hs (i : Fin 8)
  | cr (i : Fin 4)
  | hcnt | hlenLo | hlenHi
  | hbuf (i : Fin 16)
  | rk (i : Fin 32)
deriving DecidableEq, Repr

/-- What the outside world does to the engine: the host's accesses (R5, R71, R99) and the platform's reset and
power-up (70_reset_and_hazards.md R231, R232). A CSR access carries the address in the host's map, CSR_BASE + offset
(R32); a MEM access carries the address in MEM. -/
inductive Input where
  /-- A host read of `size` bytes at host address `addr` of the CSR window (R191, R194). -/
  | csrRead (addr size : Nat)
  /-- A host write of `size` bytes, value `v`, at host address `addr` of the CSR window (R97, R192, R193, R194). -/
  | csrWrite (addr size : Nat) (v : Word)
  /-- A host read of `n` bytes of MEM from `addr` (R195). -/
  | memRead (addr n : Nat)
  /-- A host write of `bytes` to MEM from `addr` (R195). -/
  | memWrite (addr : Nat) (bytes : List Byte)
  /-- Reset between two host steps (R230, R231). -/
  | reset
  /-- The host writes `w` to CMD and reset arrives while that command runs (R231; 93 I8). -/
  | resetDuring (w : Word)
  /-- Power is lost and comes back: MEM holds any value and a reset follows (R220, R231, R232). -/
  | powerUp
deriving DecidableEq, Repr

/-- The answer the host's last access got. It is the host's side of the bus, not state of the engine (assumption 5). -/
inductive Response where
  /-- No access has been answered yet, or a reset cut the last one (assumption 8). -/
  | none
  /-- A write completed. A refused command and an ignored write complete too (R193, R211). -/
  | accepted
  /-- The value of a CSR read (R191). -/
  | word (v : Word)
  /-- The bytes of a MEM read (R195). -/
  | bytes (bs : List Byte)
  /-- The bus's error response, and the data a read returns with it (R194). -/
  | busError (data : Word)
deriving DecidableEq, Repr

/-- The whole state: the parameters, the engine's registers, MEM, and the model's own fields. -/
structure State where
  /-- MEM_BYTES and CSR_BASE (R6). No step changes them. -/
  cfg : Config
  /-- CMD, the last command word written (R33). -/
  cmd : Word
  /-- STATUS.ERR (R34). -/
  err : Err
  /-- SRC, DST, LEN, KEYP, KLEN, IVP (R35, R36). -/
  ops : Operands
  /-- The hash context (R37 to R41). -/
  hash : HashCtx
  /-- The cipher context (R42 to R44). -/
  cipher : CipherCtx
  /-- MEM: the bytes written since power-up, addresses strictly rising (R70; assumption 2). -/
  mem : List Host.Cell
  /-- The model's own: which power-up the unwritten bytes of MEM date from (assumptions 2 and 9). -/
  powerUps : Nat
  /-- The model's own: how many free bytes resets during commands have drawn (assumption 8). -/
  draws : Nat
  /-- The model's own: the inputs still to come, oldest first (assumption 3). -/
  inputs : List Input
  /-- The model's own: the answer to the host's last access (assumption 5). -/
  resp : Response
deriving DecidableEq, Repr

/-- Why a step stops. No command raises one: a refused command is a next state with its code in STATUS.ERR (R202). -/
inductive Fault where
  /-- Raised by a host MEM access (`Input.memRead`, `Input.memWrite`) that touches an address at or above MEM_BYTES,
  which R70 says does not exist. Safe: the model stops where the platform would answer in its own way
  (assumption 6). -/
  | hostMemRange
deriving DecidableEq, Repr

/-- Why a step gives no meaning. -/
inductive Refusal where
  /-- The instruction of this mnemonic has no meaning yet. No arm raises it: every command has one. Safe. -/
  | notModelled (mnemonic : String)
  /-- Raised by a host CSR access at an address outside the 4096 bytes from CSR_BASE: it reaches another device, which
  the spec does not describe. Safe (assumption 7). -/
  | outsideWindow
deriving DecidableEq, Repr

def State.setCmd (s : State) (w : Word) : State := { s with cmd := w }
def State.setErr (s : State) (e : Err) : State := { s with err := e }
def State.setOps (s : State) (o : Operands) : State := { s with ops := o }
def State.setHash (s : State) (h : HashCtx) : State := { s with hash := h }
def State.setCipher (s : State) (c : CipherCtx) : State := { s with cipher := c }
def State.setMem (s : State) (m : List Host.Cell) : State := { s with mem := m }
def State.setInputs (s : State) (l : List Input) : State := { s with inputs := l }
def State.setResp (s : State) (r : Response) : State := { s with resp := r }

/-- The operand CSRs at reset (R230). -/
def Operands.reset : Operands := { src := 0, dst := 0, len := 0, keyp := 0, klen := 0, ivp := 0 }

/-- The hash context at reset (R230): HS is 0, not IV, and no stream is open. -/
def HashCtx.reset : HashCtx where
  hs := Vector.replicate 8 0
  hbuf := Vector.replicate 64 0
  hcnt := 0
  hlen := 0
  hact := false

/-- The cipher context at reset (R230): RK is 0 and KVALID is 0. -/
def CipherCtx.reset : CipherCtx where
  rk := Vector.replicate 32 0
  kvalid := false
  cr := Vector.replicate 4 0

/-- The machine right after reset (R230, R234). MEM lists nothing, so every byte of it is a free value (R232); the
parameters and the model's own fields are those of assumptions 1, 2, 3, 5 and 8. -/
def State.reset : State where
  cfg := Config.chosen
  cmd := 0
  err := .ok
  ops := Operands.reset
  hash := HashCtx.reset
  cipher := CipherCtx.reset
  mem := []
  powerUps := 0
  draws := 0
  inputs := []
  resp := .none

end Sys2Proof.Machine
end

