-- ==== Sys2Proof/Machine/Ops.lean ====
section
/-! DEFINITION. Sys2Proof/Machine/Ops.lean: the named operations over MEM, the reset of the registers, and how a command
ends (00_scope.md R13, 20_memory.md R70 to R79, 60_exceptions.md R202, R204, 70_reset_and_hazards.md R230 to R232).

MEM is a list of (address, byte) pairs, addresses strictly rising. An address that is not listed holds no written byte,
and reads as the free value `Mem.unwritten`; so no entry equals what an unlisted address holds, and the form is
canonical. -/

namespace Sys2Proof.Machine

/-- The canonical form: addresses strictly rising. -/
abbrev Mem.wf (m : List Host.Cell) : Prop := m.Pairwise (fun x y => x.1 < y.1)

/-- Every listed address is one of MEM's (R70). -/
abbrev Mem.below (m : List Host.Cell) (memBytes : Nat) : Prop := ∀ c ∈ m, c.1 < memBytes

/-- The byte written last at an address, if any was. -/
def Mem.find (m : List Host.Cell) (a : Nat) : Option Byte :=
  match m with
  | [] => none
  | c :: rest => if c.1 = a then some c.2 else Mem.find rest a

/-- What an address reads as while nothing has been written to it: a free value (R232; assumption 2). -/
def Mem.unwritten (powerUps a : Nat) : Byte := Config.powerUpByte powerUps a

/-- Write one byte, keeping the addresses rising. -/
def Mem.writeByte (m : List Host.Cell) (a : Nat) (b : Byte) : List Host.Cell :=
  match m with
  | [] => [(a, b)]
  | c :: rest =>
    if a < c.1 then (a, b) :: c :: rest
    else if a = c.1 then (a, b) :: rest
    else c :: Mem.writeByte rest a b

/-- Write a byte string, byte k to address a + k (R13). -/
def Mem.writeBytes (m : List Host.Cell) (a : Nat) (bs : List Byte) : List Host.Cell :=
  match bs with
  | [] => m
  | b :: rest => Mem.writeBytes (Mem.writeByte m a b) (a + 1) rest

/-- MEM[a]: the byte written last, else the free value (R72). -/
def State.memByte (s : State) (a : Nat) : Byte := (Mem.find s.mem a).getD (Mem.unwritten s.powerUps a)

/-- R13: MemRead(addr, n). -/
def State.memRead (s : State) (a n : Nat) : List Byte := (List.range n).map (fun k => s.memByte (a + k))

/-- R13: MemWrite(addr, n, v), with n the length of v. -/
def State.memWrite (s : State) (a : Nat) (bs : List Byte) : State := s.setMem (Mem.writeBytes s.mem a bs)

/-- How a region is accessed. -/
inductive Access where
  | read
  | write
deriving DecidableEq, Repr

/-- A region of MEM that a command reads or writes: an address and a byte count. -/
structure Region where
  access : Access
  addr : Nat
  len : Nat
deriving DecidableEq, Repr

/-- R73, R203: the region is empty, or it lies wholly inside MEM. The sum is an unbounded natural, so nothing wraps. -/
def Region.inRange (r : Region) (memBytes : Nat) : Bool := decide (r.len = 0 ∨ r.addr + r.len ≤ memBytes)

/-- An address belongs to the region. -/
def Region.covers (r : Region) (a : Nat) : Bool := decide (r.addr ≤ a ∧ a < r.addr + r.len)

/-- R202, R211: how a refused command ends, this engine's only exception entry. STATUS.ERR takes the code and nothing
else changes: no state is saved, no mode changes and no control is transferred. There is no return from it (R212); the
next command overwrites the code. -/
def reportError (e : Err) (s : State) : State := s.setErr e

/-- R97, R204: how a command that ran ends: STATUS.ERR is 0x00. -/
def complete (s : State) : State := s.setErr .ok

/-- R230, R232: reset. Every register takes its reset value; MEM, the parameters and the model's own fields stay. -/
def State.resetRegisters (s : State) : State :=
  { s with
    cmd := 0
    err := .ok
    ops := Operands.reset
    hash := HashCtx.reset
    cipher := CipherCtx.reset }

/-- The free bytes of a region, from the given draw on (R231; assumption 8). -/
def freeBytes (draw n : Nat) : List Byte := (List.range n).map (fun k => Config.freeByte (draw + k))

/-- R231: every byte of one region takes a free value if the region is written, and keeps its value if it is read. -/
def State.scramble (s : State) (r : Region) : State :=
  match r.access with
  | .read => s
  | .write => { s.memWrite r.addr (freeBytes s.draws r.len) with draws := s.draws + r.len }

/-- R232: power-up. No byte of MEM is known any more. -/
def State.forgetMem (s : State) : State := { s with mem := [], powerUps := s.powerUps + 1 }

end Sys2Proof.Machine
end

