-- ==== Sys2Proof/Machine/Operands.lean ====
section
/-! DEFINITION. Sys2Proof/Machine/Operands.lean: the regions of MEM each command reads and writes (30_encoding.md R96).

A command has no immediates: every operand is the value of a CSR, an unsigned address or byte count (R35, R36, R90). -/

namespace Sys2Proof.Machine

/-- A region that is read. -/
def Region.reads (p : Word) (n : Nat) : Region := ⟨.read, p.toNat, n⟩

/-- A region that is written. -/
def Region.writes (p : Word) (n : Nat) : Region := ⟨.write, p.toNat, n⟩

/-- The key region of the KX option (R166). -/
def keyRegion (kx : Bool) (o : Operands) : List Region := if kx then [Region.reads o.keyp 16] else []

/-- The IV region of the IVL option (R182). -/
def ivRegion (ivl : Bool) (o : Operands) : List Region := if ivl then [Region.reads o.ivp 16] else []

/-- R96: the regions of a command, in access order. For CBCE and CBCD the source and destination are whole regions. -/
def regions (i : Instr) (o : Operands) : List Region :=
  match i with
  | .nop => []
  | .hinit => []
  | .hcomp => [Region.reads o.src 64]
  | .hupd => [Region.reads o.src o.len.toNat]
  | .hfin => [Region.writes o.dst 32]
  | .hash => [Region.reads o.src o.len.toNat, Region.writes o.dst 32]
  | .hmac => [Region.reads o.keyp o.klen.toNat, Region.reads o.src o.len.toNat, Region.writes o.dst 32]
  | .kexp => [Region.reads o.keyp 16]
  | .benc kx => keyRegion kx o ++ [Region.reads o.src 16, Region.writes o.dst 16]
  | .bdec kx => keyRegion kx o ++ [Region.reads o.src 16, Region.writes o.dst 16]
  | .cbce ivl kx => keyRegion kx o ++ ivRegion ivl o ++ [Region.reads o.src o.len.toNat, Region.writes o.dst o.len.toNat]
  | .cbcd ivl kx => keyRegion kx o ++ ivRegion ivl o ++ [Region.reads o.src o.len.toNat, Region.writes o.dst o.len.toNat]

/-- R203: every region of the command is in range. -/
def regionsInRange (i : Instr) (s : State) : Bool := (regions i s.ops).all (fun r => r.inRange s.cfg.memBytes)

/-- The addresses a command stores to: those of its write regions (R96). -/
def storesTo (i : Instr) (o : Operands) (a : Nat) : Bool :=
  (regions i o).any (fun r => decide (r.access = .write) && r.covers a)

end Sys2Proof.Machine
end

