-- ==== Sys2Proof/Machine/Flags.lean ====
section
/-! DEFINITION. Sys2Proof/Machine/Flags.lean: STATUS and the checks of a command (10_state.md R34, 60_exceptions.md
R200, R201, R203).

The engine has no flags but STATUS.ERR, STATUS.HACT and STATUS.KVALID (R54). -/

namespace Sys2Proof.Machine

/-- R200: the value of STATUS.ERR for each code. -/
def Err.code : Err → Byte
  | .ok => 0x00
  | .illegal => 0x01
  | .range => 0x02
  | .noKey => 0x03
  | .noCtx => 0x04
  | .ctxBusy => 0x05
  | .lenAlign => 0x06
  | .lenOvf => 0x07

/-- R34: STATUS as the host reads it: ERR in bits 7:0, HACT in bit 8, KVALID in bit 9, bits 31:10 read as 0. -/
def State.status (s : State) : Word :=
  (0 : BitVec 22) ++ BitVec.ofBool s.cipher.kvalid ++ BitVec.ofBool s.hash.hact ++ s.err.code

/-- R38: the commands that need an open stream, HUPD and HFIN. -/
def needsOpen : Instr → Bool
  | .hupd | .hfin => true
  | .nop | .hinit | .hcomp | .hash | .hmac | .kexp | .benc _ | .bdec _ | .cbce _ _ | .cbcd _ _ => false

/-- R38: the commands that need that no stream is open, HASH and HMAC. -/
def needsClosed : Instr → Bool
  | .hash | .hmac => true
  | .nop | .hinit | .hcomp | .hupd | .hfin | .kexp | .benc _ | .bdec _ | .cbce _ _ | .cbcd _ _ => false

/-- R44, R201: the commands that use the schedule already loaded: BENC, BDEC, CBCE and CBCD with KX = 0. -/
def needsKey : Instr → Bool
  | .benc kx | .bdec kx | .cbce _ kx | .cbcd _ kx => !kx
  | .nop | .hinit | .hcomp | .hupd | .hfin | .hash | .hmac | .kexp => false

/-- R184, R201: the commands that need a whole number of blocks, CBCE and CBCD. -/
def needsBlocks : Instr → Bool
  | .cbce _ _ | .cbcd _ _ => true
  | .nop | .hinit | .hcomp | .hupd | .hfin | .hash | .hmac | .kexp | .benc _ | .bdec _ => false

/-- R41, R201: the command that may not pass HLEN_MAX, HUPD. -/
def extendsStream : Instr → Bool
  | .hupd => true
  | .nop | .hinit | .hcomp | .hfin | .hash | .hmac | .kexp | .benc _ | .bdec _ | .cbce _ _ | .cbcd _ _ => false

/-- R201: the checks of a legal command after ILLEGAL, in order, on the state before the command; the first that
applies is the code. The sum HLEN + LEN is unbounded. -/
def check (i : Instr) (s : State) : Err :=
  if needsOpen i && !s.hash.hact then .noCtx
  else if needsClosed i && s.hash.hact then .ctxBusy
  else if needsKey i && !s.cipher.kvalid then .noKey
  else if needsBlocks i && decide (s.ops.len.toNat % 16 ≠ 0) then .lenAlign
  else if extendsStream i && decide (s.hash.hlen.toNat + s.ops.len.toNat > hlenMax) then .lenOvf
  else if !regionsInRange i s then .range
  else .ok

/-- R201: Check(w) of a command word. -/
def checkWord (w : Word) (s : State) : Err :=
  match decode w with
  | .error _ => .illegal
  | .ok i => check i s

/-- R97: a legal command. If its check passes, its effect happens and STATUS.ERR is 0x00; otherwise STATUS.ERR holds the
code and nothing else changes. CMD itself is written by the host's access (Machine/Command.lean). -/
def runCommand (i : Instr) (effect : State → State) (s : State) : Host.Outcome State Fault Refusal :=
  if check i s = .ok then .next (complete (effect s)) else .next (reportError (check i s) s)

end Sys2Proof.Machine
end

