-- ==== Sys2Proof/Machine/Csr.lean ====
section
/-! DEFINITION. Sys2Proof/Machine/Csr.lean: the CSR map and the reads and writes of a register (10_state.md R32 to R45,
46_host_access.md R191 to R194). A write to CMD is a command and stands in Machine/Command.lean. -/

namespace Sys2Proof.Machine

/-- R6, R32: the window is 4096 bytes. -/
def windowBytes : Nat := 4096

/-- R32: the offset in the window of a host address, if it lies in the window. -/
def windowOffset (c : Config) (addr : Nat) : Option Nat :=
  if c.csrBase ≤ addr ∧ addr < c.csrBase + windowBytes then some (addr - c.csrBase) else none

/-- R32: the offset of each register. -/
def Csr.offset : Csr → Nat
  | .cmd => 0x000
  | .status => 0x004
  | .src => 0x008
  | .dst => 0x00C
  | .len => 0x010
  | .keyp => 0x014
  | .klen => 0x018
  | .ivp => 0x01C
  | .hs i => 0x020 + 4 * i.val
  | .cr i => 0x040 + 4 * i.val
  | .hcnt => 0x050
  | .hlenLo => 0x054
  | .hlenHi => 0x058
  | .hbuf i => 0x060 + 4 * i.val
  | .rk i => 0x100 + 4 * i.val

/-- R32: the host address of a register, CSR_BASE plus its offset. -/
def Csr.addr (c : Config) (r : Csr) : Nat := c.csrBase + r.offset

/-- R32, R45: the register at an aligned offset. `none` is a reserved offset. -/
def Csr.ofOffset (o : Nat) : Option Csr :=
  if o = 0x000 then some .cmd
  else if o = 0x004 then some .status
  else if o = 0x008 then some .src
  else if o = 0x00C then some .dst
  else if o = 0x010 then some .len
  else if o = 0x014 then some .keyp
  else if o = 0x018 then some .klen
  else if o = 0x01C then some .ivp
  else if h : 0x020 ≤ o ∧ o < 0x040 then some (.hs ⟨(o - 0x020) / 4, by omega⟩)
  else if h : 0x040 ≤ o ∧ o < 0x050 then some (.cr ⟨(o - 0x040) / 4, by omega⟩)
  else if o = 0x050 then some .hcnt
  else if o = 0x054 then some .hlenLo
  else if o = 0x058 then some .hlenHi
  else if h : 0x060 ≤ o ∧ o < 0x0A0 then some (.hbuf ⟨(o - 0x060) / 4, by omega⟩)
  else if h : 0x100 ≤ o ∧ o < 0x180 then some (.rk ⟨(o - 0x100) / 4, by omega⟩)
  else none

/-- R32: the access right of a register: `true` is RW, `false` is RO. -/
def Csr.writable : Csr → Bool
  | .cmd | .src | .dst | .len | .keyp | .klen | .ivp | .hs _ | .cr _ => true
  | .status | .hcnt | .hlenLo | .hlenHi | .hbuf _ | .rk _ => false

/-- R191: the value of a register, unused bits 0 (R33 to R44). -/
def Csr.read (r : Csr) (s : State) : Word :=
  match r with
  | .cmd => s.cmd
  | .status => s.status
  | .src => s.ops.src
  | .dst => s.ops.dst
  | .len => s.ops.len
  | .keyp => s.ops.keyp
  | .klen => s.ops.klen
  | .ivp => s.ops.ivp
  | .hs i => s.hash.hs[i]
  | .cr i => s.cipher.cr[i]
  | .hcnt => BitVec.ofNat 32 s.hash.hcnt.val
  | .hlenLo => s.hash.hlen.extractLsb' 0 32
  | .hlenHi => s.hash.hlen.extractLsb' 32 32
  | .hbuf i => be32 s.hash.hbuf.toList (4 * i.val)
  | .rk i => s.cipher.rk[i]

/-- R192, R193: a host write to a register other than CMD: a RW register takes the value and nothing else changes; a RO
register ignores it. -/
def Csr.write (r : Csr) (v : Word) (s : State) : State :=
  match r with
  | .cmd => s
  | .status => s
  | .src => s.setOps { s.ops with src := v }
  | .dst => s.setOps { s.ops with dst := v }
  | .len => s.setOps { s.ops with len := v }
  | .keyp => s.setOps { s.ops with keyp := v }
  | .klen => s.setOps { s.ops with klen := v }
  | .ivp => s.setOps { s.ops with ivp := v }
  | .hs i => s.setHash { s.hash with hs := s.hash.hs.set i.val v i.isLt }
  | .cr i => s.setCipher { s.cipher with cr := s.cipher.cr.set i.val v i.isLt }
  | .hcnt => s
  | .hlenLo => s
  | .hlenHi => s
  | .hbuf _ => s
  | .rk _ => s

/-- R194: the accesses the window accepts: 32 bits at an offset that is a multiple of 4. -/
def csrAccessOk (o size : Nat) : Bool := decide (size = 4 ∧ o % 4 = 0)

/-- R191, R45: what an aligned word read at an offset returns: the register's value, or 0 at a reserved offset. -/
def csrValue (o : Nat) (s : State) : Word :=
  match Csr.ofOffset o with
  | some r => r.read s
  | none => 0

/-- R191, R194: the answer to a host read. -/
def csrReadResponse (o size : Nat) (s : State) : Response :=
  if csrAccessOk o size then .word (csrValue o s) else .busError 0

end Sys2Proof.Machine
end

