-- ==== Sys2Proof/Machine/CipherCore.lean ====
section
/-! DEFINITION. Sys2Proof/Machine/CipherCore.lean: the key schedule EXPAND (43_cipher_key_schedule.md R160 to R164) and the
block transform F (44_cipher_block.md R170 to R172).

Both are recurrences over four words, X[i+4] from X[i..i+3]; the model carries the window X[i..i+3] (R52). -/

namespace Sys2Proof.Machine

/-- R160: τ, SBOX on each of the four byte lanes. -/
def tau (x : Word) : Word :=
  sbox (x.extractLsb' 24 8) ++ sbox (x.extractLsb' 16 8) ++ sbox (x.extractLsb' 8 8) ++ sbox (x.extractLsb' 0 8)

/-- R161: L'. -/
def lKey (b : Word) : Word := b ^^^ rotl b 13 ^^^ rotl b 23

/-- R162: T', the source's KeyRound. -/
def tKey (x : Word) : Word := lKey (tau x)

/-- R170: L. -/
def lData (b : Word) : Word := b ^^^ rotl b 2 ^^^ rotl b 10 ^^^ rotl b 18 ^^^ rotl b 24

/-- R171: T, the source's DataRound. -/
def tData (x : Word) : Word := lData (tau x)

/-- Four consecutive words of a recurrence, X[i..i+3] or K[i..i+3] (R52). -/
structure Window where
  x0 : Word
  x1 : Word
  x2 : Word
  x3 : Word
deriving DecidableEq, Repr

/-- One step of a recurrence: X[i+4] = X[i] ⊕ T(X[i+1] ⊕ X[i+2] ⊕ X[i+3] ⊕ k), and the window moves on by one
(R164, R172). -/
def Window.next (t : Word → Word) (x : Window) (k : Word) : Window :=
  ⟨x.x1, x.x2, x.x3, x.x0 ^^^ t (x.x1 ^^^ x.x2 ^^^ x.x3 ^^^ k)⟩

/-- R164: K[0..3], the key's four big-endian words, each XORed with its FK. -/
def keyWindow (key : List Byte) : Window :=
  ⟨be32 key 0 ^^^ fk[0], be32 key 4 ^^^ fk[1], be32 key 8 ^^^ fk[2], be32 key 12 ^^^ fk[3]⟩

/-- R164: the round keys in generation order, one for each round constant: rk[i] is the new word K[i+4]. -/
def keyWords (x : Window) (cks : List Word) : List Word :=
  match cks with
  | [] => []
  | c :: rest => (x.next tKey c).x3 :: keyWords (x.next tKey c) rest

/-- One round key for each round constant. -/
theorem length_keyWords (x : Window) (cks : List Word) : (keyWords x cks).length = cks.length := by
  induction cks generalizing x with
  | nil => rfl
  | cons c rest ih => simp [keyWords, ih]

/-- R164: EXPAND(key), the 32 round keys. -/
def expandKey (key : List Byte) : Vector Word 32 :=
  ⟨(keyWords (keyWindow key) ckAll).toArray, by simp [length_keyWords, ckAll]⟩

/-- R172: the direction of a block transform. -/
inductive Dir where
  | enc
  | dec
deriving DecidableEq, Repr

/-- R172: the order in which the round keys are consumed: forward for encryption, reversed for decryption. -/
def Dir.keys (d : Dir) (rk : Vector Word 32) : List Word :=
  match d with
  | .enc => rk.toList
  | .dec => rk.toList.reverse

/-- R172: X[0..3], the block's four big-endian words. -/
def blockWindow (b : List Byte) : Window := ⟨be32 b 0, be32 b 4, be32 b 8, be32 b 12⟩

/-- R172: SERW(X[35], X[34], X[33], X[32]) of the last window X[32..35]. -/
def Window.out (x : Window) : List Byte := serw [x.x3, x.x2, x.x1, x.x0]

/-- R172: F(in, rk, dir). -/
def blockF (b : List Byte) (rk : Vector Word 32) (d : Dir) : List Byte :=
  ((d.keys rk).foldl (Window.next tData) (blockWindow b)).out

end Sys2Proof.Machine
end

