-- ==== Sys2Proof/Machine/Cipher.lean ====
section
/-! DEFINITION. Sys2Proof/Machine/Cipher.lean: KEXP, the KX option, BENC and BDEC (43_cipher_key_schedule.md R163, R165,
R166; 44_cipher_block.md R173, R174). -/

namespace Sys2Proof.Machine

/-- R163, R166: expand the key at KEYP into RK, all 32 words at once, and set KVALID. -/
def State.loadKey (s : State) : State :=
  s.setCipher { s.cipher with rk := expandKey (s.memRead s.ops.keyp.toNat 16), kvalid := true }

/-- R93, R166: the KX step, the command's first step. -/
def State.kxStep (kx : Bool) (s : State) : State := if kx then s.loadKey else s

/-- R163: KEXP. -/
def execKexp (s : State) : Host.Outcome State Fault Refusal := runCommand .kexp State.loadKey s

/-- R173, R174: the block at SRC through F, to DST. The block is read before it is written (R79). -/
def State.transformBlock (d : Dir) (s : State) : State :=
  s.memWrite s.ops.dst.toNat (blockF (s.memRead s.ops.src.toNat 16) s.cipher.rk d)

/-- R173: the effect of BENC. CR is not touched. -/
def bencEffect (kx : Bool) (s : State) : State := (s.kxStep kx).transformBlock .enc

/-- R173: BENC. -/
def execBenc (kx : Bool) (s : State) : Host.Outcome State Fault Refusal := runCommand (.benc kx) (bencEffect kx) s

/-- R174: the effect of BDEC. CR is not touched. -/
def bdecEffect (kx : Bool) (s : State) : State := (s.kxStep kx).transformBlock .dec

/-- R174: BDEC. -/
def execBdec (kx : Bool) (s : State) : Host.Outcome State Fault Refusal := runCommand (.bdec kx) (bdecEffect kx) s

end Sys2Proof.Machine
end

