-- ==== Sys2Proof/Machine/Chain.lean ====
section
/-! DEFINITION. Sys2Proof/Machine/Chain.lean: CBCE and CBCD (45_chain_mode.md R180 to R184).

Block b lies at SRC + 16·b and DST + 16·b, computed in unbounded naturals (R9). Each block is read, then written, before
the next one is read (R79), so overlapping regions give what that order gives. -/

namespace Sys2Proof.Machine

/-- CR set to the four words of a 16-byte string (R180 to R182). -/
def State.setChain (s : State) (b : List Byte) : State := s.setCipher { s.cipher with cr := words4 b }

/-- R92, R182: the IVL step, after the KX step and before the first block. -/
def State.ivStep (ivl : Bool) (s : State) : State :=
  if ivl then s.setChain (s.memRead s.ops.ivp.toNat 16) else s

/-- R180, R181: SERW(CR[0..3]). -/
def State.chainBytes (s : State) : List Byte := serw s.cipher.cr.toList

/-- R180: one block of CBCE. CR becomes the ciphertext block just written (R183). -/
def State.cbceBlock (src dst : Nat) (s : State) : State :=
  let c := blockF (xorBytes (s.memRead src 16) s.chainBytes) s.cipher.rk .enc
  (s.memWrite dst c).setChain c

/-- R181: one block of CBCD. CR becomes the ciphertext block just read, before the write (R183). -/
def State.cbcdBlock (src dst : Nat) (s : State) : State :=
  let c := s.memRead src 16
  (s.memWrite dst (xorBytes (blockF c s.cipher.rk .dec) s.chainBytes)).setChain c

/-- R180, R181: the loop over `n` blocks in increasing order. -/
def State.chainBlocks (block : Nat → Nat → State → State) (n src dst : Nat) (s : State) : State :=
  match n with
  | 0 => s
  | k + 1 => State.chainBlocks block k (src + 16) (dst + 16) (block src dst s)

/-- R180: the effect of CBCE: the KX step, the IVL step, then LEN/16 blocks. -/
def cbceEffect (ivl kx : Bool) (s : State) : State :=
  ((s.kxStep kx).ivStep ivl).chainBlocks State.cbceBlock (s.ops.len.toNat / 16) s.ops.src.toNat s.ops.dst.toNat

/-- R180: CBCE. -/
def execCbce (ivl kx : Bool) (s : State) : Host.Outcome State Fault Refusal :=
  runCommand (.cbce ivl kx) (cbceEffect ivl kx) s

/-- R181: the effect of CBCD: the KX step, the IVL step, then LEN/16 blocks. -/
def cbcdEffect (ivl kx : Bool) (s : State) : State :=
  ((s.kxStep kx).ivStep ivl).chainBlocks State.cbcdBlock (s.ops.len.toNat / 16) s.ops.src.toNat s.ops.dst.toNat

/-- R181: CBCD. -/
def execCbcd (ivl kx : Bool) (s : State) : Host.Outcome State Fault Refusal :=
  runCommand (.cbcd ivl kx) (cbcdEffect ivl kx) s

end Sys2Proof.Machine
end

