-- ==== Sys2Proof/Machine/HashCore.lean ====
section
/-! DEFINITION. Sys2Proof/Machine/HashCore.lean: the compression function CF (40_hash_compression.md R110 to R117).

W, W1 and the working words A..H are local to CF (R52). -/

namespace Sys2Proof.Machine

/-- R110. -/
def p0 (x : Word) : Word := x ^^^ rotl x 9 ^^^ rotl x 17

/-- R111. -/
def p1 (x : Word) : Word := x ^^^ rotl x 15 ^^^ rotl x 23

/-- R112: the next word W[i] from the words before it, newest first, so that W[i − k] stands at index k − 1. -/
def nextW (ws : List Word) : Word :=
  p1 (ws.getD 15 0 ^^^ ws.getD 8 0 ^^^ rotl (ws.getD 2 0) 15) ^^^ rotl (ws.getD 12 0) 7 ^^^ ws.getD 5 0

/-- R112: extend a list of words, newest first, by `n` words. -/
def extendW (n : Nat) (ws : List Word) : List Word :=
  match n with
  | 0 => ws
  | k + 1 => extendW k (nextW ws :: ws)

/-- R112: W[0..15], the block as sixteen big-endian words. -/
def blockWords (b : List Byte) : List Word := (List.range 16).map (fun i => be32 b (4 * i))

/-- R112: W[0..67]. -/
def expandW (b : List Byte) : List Word := (extendW 52 (blockWords b).reverse).reverse

/-- R112: W1[0..63], W1[i] = W[i] ⊕ W[i+4]. -/
def expandW1 (w : List Word) : List Word := List.zipWith (· ^^^ ·) w (w.drop 4)

/-- R113: the round constant Tj. -/
def roundConst (j : Nat) : Word := if j ≤ 15 then rotl tLo (j : Int) else rotl tHi ((j : Int) - 32)

/-- R114: FFj. -/
def ff (j : Nat) (x y z : Word) : Word :=
  if j ≤ 15 then x ^^^ y ^^^ z else (x &&& y) ||| (x &&& z) ||| (y &&& z)

/-- R114: GGj. -/
def gg (j : Nat) (x y z : Word) : Word :=
  if j ≤ 15 then x ^^^ y ^^^ z else (x &&& y) ||| (~~~x &&& z)

/-- The eight working words A..H of a compression (R52). -/
structure Work where
  a : Word
  b : Word
  c : Word
  d : Word
  e : Word
  f : Word
  g : Word
  h : Word
deriving DecidableEq, Repr

/-- R115: SS1, with register E (90_conflicts.md C1). -/
def ss1 (j : Nat) (s : Work) : Word := rotl (rotl s.a 12 + s.e + roundConst j) 7

/-- R115: SS2. -/
def ss2 (j : Nat) (s : Work) : Word := ss1 j s ^^^ rotl s.a 12

/-- R116: TT1, from W1[j]. -/
def tt1 (j : Nat) (w1 : Word) (s : Work) : Word := ff j s.a s.b s.c + s.d + ss2 j s + w1

/-- R116: TT2, from W[j]. -/
def tt2 (j : Nat) (w : Word) (s : Work) : Word := gg j s.e s.f s.g + s.h + ss1 j s + w

/-- R116: round j on the working words, every right-hand side taken from the start of the round. -/
def hashRound (j : Nat) (w w1 : Word) (s : Work) : Work :=
  ⟨tt1 j w1 s, s.a, rotl s.b 9, s.c, p0 (tt2 j w s), s.e, rotl s.f 19, s.g⟩

/-- R117: the rounds from j on, one for each pair (W[j], W1[j]). -/
def hashRounds (j : Nat) (ws : List (Word × Word)) (s : Work) : Work :=
  match ws with
  | [] => s
  | (w, w1) :: rest => hashRounds (j + 1) rest (hashRound j w w1 s)

/-- R117: the working words a compression starts from. -/
def Work.ofState (v : Vector Word 8) : Work := ⟨v[0], v[1], v[2], v[3], v[4], v[5], v[6], v[7]⟩

/-- R117: the feed-forward, an XOR of each final word into the state. -/
def Work.feedForward (r : Work) (v : Vector Word 8) : Vector Word 8 :=
  #v[r.a ^^^ v[0], r.b ^^^ v[1], r.c ^^^ v[2], r.d ^^^ v[3], r.e ^^^ v[4], r.f ^^^ v[5], r.g ^^^ v[6], r.h ^^^ v[7]]

/-- R117: CF(V, B), the 64 rounds and the feed-forward. -/
def cf (v : Vector Word 8) (b : List Byte) : Vector Word 8 :=
  let w := expandW b
  (hashRounds 0 (w.zip (expandW1 w)) (Work.ofState v)).feedForward v

end Sys2Proof.Machine
end

