-- ==== Sys2Proof/Machine/HashStream.lean ====
section
/-! DEFINITION. Sys2Proof/Machine/HashStream.lean: the hash commands HINIT, HCOMP, HUPD, HFIN and HASH
(40_hash_compression.md R118, 41_hash_stream.md R130 to R137, 42_hmac.md R150).

ABSORB, FINISH and DIGEST act on the hash context alone. -/

namespace Sys2Proof.Machine

/-- R132, R137, R150: the hash context set to the start of a hash. HACT is not touched. -/
def HashCtx.start (h : HashCtx) : HashCtx :=
  { h with hs := hashIv, hbuf := Vector.replicate 64 0, hcnt := 0, hlen := 0 }

/-- R134: one byte of ABSORB. A 64th byte triggers a compression, and HBUF keeps the block. -/
def HashCtx.absorbByte (h : HashCtx) (b : Byte) : HashCtx :=
  let buf := h.hbuf.set h.hcnt.val b h.hcnt.isLt
  if hc : h.hcnt.val + 1 < 64 then { h with hbuf := buf, hcnt := ⟨h.hcnt.val + 1, hc⟩ }
  else { h with hs := cf h.hs buf.toList, hbuf := buf, hcnt := 0 }

/-- R134: the loop of ABSORB over the bytes of m. -/
def HashCtx.absorbBytes (h : HashCtx) (m : List Byte) : HashCtx := m.foldl HashCtx.absorbByte h

/-- R134: ABSORB(m). -/
def HashCtx.absorb (h : HashCtx) (m : List Byte) : HashCtx :=
  let h' := h.absorbBytes m
  { h' with hlen := h'.hlen + BitVec.ofNat 64 m.length }

/-- R136: the pending bytes, the byte 0x80 and zeros: 64 bytes. -/
def padBlock (pending : List Byte) : List Byte := pending ++ [0x80] ++ zeros (63 - pending.length)

/-- R136: blk[56 +: 8] <- L. -/
def withLength (blk l : List Byte) : List Byte := blk.take 56 ++ l

/-- R136: SER64(8·HLEN). -/
def lengthField (n : Nat) : List Byte := ser64 (BitVec.ofNat 64 (8 * n))

/-- R136: the hash state after the last block, or the last two if more than 55 bytes are pending. -/
def HashCtx.finalState (h : HashCtx) : Vector Word 8 :=
  let blk := padBlock (h.hbuf.toList.take h.hcnt.val)
  let l := lengthField h.hlen.toNat
  if h.hcnt.val ≤ 55 then cf h.hs (withLength blk l)
  else cf (cf h.hs blk) (zeros 56 ++ l)

/-- R136: the hash context FINISH leaves: HS holds the final state, and the stream is closed and empty. -/
def HashCtx.finish (h : HashCtx) : HashCtx :=
  { hs := h.finalState, hbuf := Vector.replicate 64 0, hcnt := 0, hlen := 0, hact := false }

/-- R136: the digest FINISH returns, SERW(HS[0..7]) of the final state. -/
def HashCtx.digestBytes (h : HashCtx) : List Byte := serw h.hs.toList

/-- R150: the hash context after DIGEST(M). Its digest is `digestBytes` of it. -/
def HashCtx.digest (h : HashCtx) (m : List Byte) : HashCtx := (h.start.absorb m).finish

/-- R132: the effect of HINIT. -/
def hinitEffect (s : State) : State := s.setHash { s.hash.start with hact := true }

/-- R132: HINIT. -/
def execHinit (s : State) : Host.Outcome State Fault Refusal := runCommand .hinit hinitEffect s

/-- R118: the effect of HCOMP. -/
def hcompEffect (s : State) : State :=
  s.setHash { s.hash with hs := cf s.hash.hs (s.memRead s.ops.src.toNat 64) }

/-- R118: HCOMP. -/
def execHcomp (s : State) : Host.Outcome State Fault Refusal := runCommand .hcomp hcompEffect s

/-- R133: the effect of HUPD. -/
def hupdEffect (s : State) : State := s.setHash (s.hash.absorb (s.memRead s.ops.src.toNat s.ops.len.toNat))

/-- R133: HUPD. -/
def execHupd (s : State) : Host.Outcome State Fault Refusal := runCommand .hupd hupdEffect s

/-- The end HFIN, HASH and HMAC share: the hash context becomes `h`, and its digest is written to MEM[DST +: 32]. -/
def writeDigest (h : HashCtx) (s : State) : State := (s.setHash h).memWrite s.ops.dst.toNat h.digestBytes

/-- R135: the effect of HFIN. -/
def hfinEffect (s : State) : State := writeDigest s.hash.finish s

/-- R135: HFIN. -/
def execHfin (s : State) : Host.Outcome State Fault Refusal := runCommand .hfin hfinEffect s

/-- R137: the effect of HASH. Every input byte is read before the digest is written (R79). -/
def hashEffect (s : State) : State :=
  writeDigest (s.hash.digest (s.memRead s.ops.src.toNat s.ops.len.toNat)) s

/-- R137: HASH. -/
def execHash (s : State) : Host.Outcome State Fault Refusal := runCommand .hash hashEffect s

end Sys2Proof.Machine
end

