-- ==== Sys2Proof/Machine/Hmac.lean ====
section
/-! DEFINITION. Sys2Proof/Machine/Hmac.lean: HMAC (42_hmac.md R150 to R152).

The key, K0, the pads and the inner digest are local to the command (R52). -/

namespace Sys2Proof.Machine

/-- R151: the hash context after NORMKEY(k): a key of more than 64 bytes is hashed. -/
def HashCtx.normKey (h : HashCtx) (k : List Byte) : HashCtx := if k.length > 64 then h.digest k else h

/-- R151: K0 = NORMKEY(k), 64 bytes. -/
def HashCtx.key0 (h : HashCtx) (k : List Byte) : List Byte :=
  if k.length > 64 then (h.digest k).digestBytes ++ zeros 32 else k ++ zeros (64 - k.length)

/-- R151: K0 ⊕ rep(pad byte, 64). -/
def padKey (k0 : List Byte) (pad : Byte) : List Byte := xorBytes k0 (rep pad 64)

/-- R152: the hash context after the inner hash, of ipad ‖ data. -/
def HashCtx.macInner (h : HashCtx) (k data : List Byte) : HashCtx :=
  (h.normKey k).digest (padKey (h.key0 k) ipadByte ++ data)

/-- R152: the hash context after the outer hash, of opad ‖ inner digest. The tag is its `digestBytes`. -/
def HashCtx.mac (h : HashCtx) (k data : List Byte) : HashCtx :=
  (h.macInner k data).digest (padKey (h.key0 k) opadByte ++ (h.macInner k data).digestBytes)

/-- R152: the effect of HMAC. Key and data are read before the tag is written (R79). -/
def hmacEffect (s : State) : State :=
  writeDigest
    (s.hash.mac (s.memRead s.ops.keyp.toNat s.ops.klen.toNat) (s.memRead s.ops.src.toNat s.ops.len.toNat)) s

/-- R152: HMAC. -/
def execHmac (s : State) : Host.Outcome State Fault Refusal := runCommand .hmac hmacEffect s

end Sys2Proof.Machine
end

