-- ==== Sys2Proof/Machine/Nop.lean ====
section
/-! DEFINITION. Sys2Proof/Machine/Nop.lean: NOP (46_host_access.md R190). -/

namespace Sys2Proof.Machine

/-- R190: NOP. It has no effect but STATUS.ERR <- 0x00. -/
def execNop (s : State) : Host.Outcome State Fault Refusal := runCommand .nop (fun t => t) s

end Sys2Proof.Machine
end

