-- ==== Sys2Proof/Machine/Dispatch.lean ====
section
/-! DEFINITION. Sys2Proof/Machine/Dispatch.lean: one arm per command (30_encoding.md R91). -/

namespace Sys2Proof.Machine

def exec (i : Instr) (s : State) : Host.Outcome State Fault Refusal :=
  match i with
  | .nop => Sys2Proof.Machine.execNop s
  | .hinit => Sys2Proof.Machine.execHinit s
  | .hcomp => Sys2Proof.Machine.execHcomp s
  | .hupd => Sys2Proof.Machine.execHupd s
  | .hfin => Sys2Proof.Machine.execHfin s
  | .hash => Sys2Proof.Machine.execHash s
  | .hmac => Sys2Proof.Machine.execHmac s
  | .kexp => Sys2Proof.Machine.execKexp s
  | .benc kx => Sys2Proof.Machine.execBenc kx s
  | .bdec kx => Sys2Proof.Machine.execBdec kx s
  | .cbce ivl kx => Sys2Proof.Machine.execCbce ivl kx s
  | .cbcd ivl kx => Sys2Proof.Machine.execCbcd ivl kx s

end Sys2Proof.Machine
end

