-- ==== Sys2Proof/Machine/Command.lean ====
section
/-! DEFINITION. Sys2Proof/Machine/Command.lean: what each input does (30_encoding.md R97, 46_host_access.md R190 to R196,
70_reset_and_hazards.md R230 to R232). -/

namespace Sys2Proof.Machine

/-- R97: a host write of `w` to CMD. CMD takes the word; an ILLEGAL word ends with its code (R94, R202); a legal one
runs. -/
def writeCmd (w : Word) (s : State) : Host.Outcome State Fault Refusal :=
  match decode w with
  | .error _ => .next (reportError .illegal (s.setCmd w))
  | .ok i => exec i (s.setCmd w)

/-- R97, R192, R193, R45: an aligned word write at an offset of the window. A write to a reserved offset is ignored. -/
def csrWriteWord (o : Nat) (v : Word) (s : State) : Host.Outcome State Fault Refusal :=
  match Csr.ofOffset o with
  | none => .next s
  | some .cmd => writeCmd v s
  | some r => .next (r.write v s)

/-- A host read of the CSR window (R191, R194). No read changes the engine; only the answer is recorded. -/
def hostCsrRead (addr size : Nat) (s : State) : Host.Outcome State Fault Refusal :=
  match windowOffset s.cfg addr with
  | none => .refused .outsideWindow
  | some o => .next (s.setResp (csrReadResponse o size s))

/-- A host write to the CSR window (R97, R192, R193, R194). An access that is not an aligned word has no effect and gets
the bus's error response. -/
def hostCsrWrite (addr size : Nat) (v : Word) (s : State) : Host.Outcome State Fault Refusal :=
  match windowOffset s.cfg addr with
  | none => .refused .outsideWindow
  | some o => if csrAccessOk o size then csrWriteWord o v (s.setResp .accepted) else .next (s.setResp (.busError 0))

/-- R70, R73: the bytes a host access to MEM names exist. -/
def hostRangeOk (a n : Nat) (s : State) : Bool := decide (n = 0 ∨ a + n ≤ s.cfg.memBytes)

/-- R195: a host read of MEM. -/
def hostMemRead (a n : Nat) (s : State) : Host.Outcome State Fault Refusal :=
  if hostRangeOk a n s then .next (s.setResp (.bytes (s.memRead a n))) else .fault .hostMemRange

/-- R195: a host write to MEM. -/
def hostMemWrite (a : Nat) (bs : List Byte) (s : State) : Host.Outcome State Fault Refusal :=
  if hostRangeOk a bs.length s then .next ((s.memWrite a bs).setResp .accepted) else .fault .hostMemRange

/-- R231: the regions a command that reset cuts may have written: those of a command that starts its effects, so none if
its check fails (R202). -/
def cutRegions (w : Word) (s : State) : List Region :=
  match decode w with
  | .error _ => []
  | .ok i => if check i s = .ok then regions i s.ops else []

/-- R231 (93 I8): reset arrives while the command `w` runs. Every byte of the command's write regions takes any value,
the registers take their reset values and the rest of MEM stays. The host's write gets no answer. -/
def resetDuring (w : Word) (s : State) : State :=
  (((cutRegions w s).foldl State.scramble s).resetRegisters).setResp .none

/-- What one input does to the state from which it has been taken. -/
def applyInput (x : Input) (s : State) : Host.Outcome State Fault Refusal :=
  match x with
  | .csrRead addr size => hostCsrRead addr size s
  | .csrWrite addr size v => hostCsrWrite addr size v s
  | .memRead a n => hostMemRead a n s
  | .memWrite a bs => hostMemWrite a bs s
  | .reset => .next s.resetRegisters
  | .resetDuring w => .next (resetDuring w s)
  | .powerUp => .next s.forgetMem.resetRegisters

/-- One step: the first input still to come is taken and happens. With none left the engine does nothing: it has no halt
state and starts nothing on its own (R98, R196; assumption 3). -/
def stepInput (s : State) : Host.Outcome State Fault Refusal :=
  match s.inputs with
  | [] => .next s
  | x :: rest => applyInput x (s.setInputs rest)

/-- R99: `WR <csr>, <imm32>`. -/
def Input.wr (c : Config) (r : Csr) (v : Word) : Input := .csrWrite (r.addr c) 4 v

/-- R99: `RD <csr>`. -/
def Input.rd (c : Config) (r : Csr) : Input := .csrRead (r.addr c) 4

/-- R99, R100: a command mnemonic, the pseudo-instruction `WR CMD, <encoding>`. -/
def Input.command (c : Config) (i : Instr) : Input := Input.wr c .cmd (encode i)

end Sys2Proof.Machine
end

