-- ==== Sys2Proof/Machine/Step.lean ====
section
/-! DEFINITION. Sys2Proof/Machine/Step.lean: the step, and where the next command comes from.

The engine fetches nothing (10_state.md R31, 20_memory.md R84): the command word is the value of the host's write to CMD,
and the host's next access is the first of `inputs` (assumptions 3 and 4). -/

namespace Sys2Proof.Machine

/-- One step of the machine: one input (R5, R97). -/
def step (s : State) : Host.Outcome State Fault Refusal := stepInput s

/-- The state whose next input is the host's write of the command word to CMD, so that the next step runs exactly it.
Nothing else changes, and the inputs that were to come follow it (assumption 4). -/
def State.withFetchWord (s : State) (nbits w : Nat) : State :=
  s.setInputs (Input.wr s.cfg .cmd (tableWord nbits w) :: s.inputs)

end Sys2Proof.Machine
end

