-- ==== Sys2Proof/Machine/Reference.lean ====
section
/-! DEFINITION. Sys2Proof/Machine/Reference.lean: the functions of the spec that the commands are claimed to compute, as the
source's operations on byte strings (30_encoding.md R100), and the host program of a stream (R99).

No command calls these: a command works on the state, and a statement says that what it writes is one of them. -/

namespace Sys2Proof.Machine

/-- The `n` pieces of `k` bytes a byte string starts with. -/
def piecesOf (k n : Nat) (b : List Byte) : List (List Byte) := (List.range n).map (fun i => (b.drop (k * i)).take k)

/-- R130: PAD(M), the 64-byte blocks of a padded message. -/
def pad (m : List Byte) : List (List Byte) :=
  let q := m.length / 64
  let last := padBlock (m.drop (64 * q))
  let l := lengthField m.length
  piecesOf 64 q m ++ (if m.length % 64 ≤ 55 then [withLength last l] else [last, zeros 56 ++ l])

/-- R138: the hash state after all blocks of PAD(M), from V0 = IV. -/
def hashState (m : List Byte) : Vector Word 8 := (pad m).foldl cf hashIv

/-- R138: the source's `hash(M)`. -/
def hashOf (m : List Byte) : List Byte := serw (hashState m).toList

/-- R151: K0 of a key, by the source's `hash`. -/
def macKey (k : List Byte) : List Byte :=
  if k.length > 64 then hashOf k ++ zeros 32 else k ++ zeros (64 - k.length)

/-- R152: the inner digest. -/
def macInnerOf (k data : List Byte) : List Byte := hashOf (xorBytes (macKey k) (rep ipadByte 64) ++ data)

/-- R152: the message of the outer hash, opad ‖ inner digest. -/
def macOuterMessage (k data : List Byte) : List Byte :=
  xorBytes (macKey k) (rep opadByte 64) ++ macInnerOf k data

/-- R152: the source's `mac(k, data)`. -/
def macOf (k data : List Byte) : List Byte := hashOf (macOuterMessage k data)

/-- R180: chained encryption of a list of blocks, from the chain value `cr` as 16 bytes. -/
def cbcEncrypt (rk : Vector Word 32) (cr : List Byte) (ps : List (List Byte)) : List (List Byte) :=
  match ps with
  | [] => []
  | p :: rest => blockF (xorBytes p cr) rk .enc :: cbcEncrypt rk (blockF (xorBytes p cr) rk .enc) rest

/-- R181: chained decryption of a list of blocks, from the chain value `cr` as 16 bytes. -/
def cbcDecrypt (rk : Vector Word 32) (cr : List Byte) (cs : List (List Byte)) : List (List Byte) :=
  match cs with
  | [] => []
  | c :: rest => xorBytes (blockF c rk .dec) cr :: cbcDecrypt rk c rest

/-- R138: one piece of a streamed message: the host's writes to MEM before its HUPD, each an address and the bytes, and
the SRC and LEN of that HUPD. -/
structure StreamPiece where
  writes : List (Nat × List Byte)
  src : Word
  len : Word
deriving DecidableEq, Repr

/-- MEM after the host's writes of a piece. -/
def StreamPiece.written (p : StreamPiece) (s : State) : State := p.writes.foldl (fun t w => t.memWrite w.1 w.2) s

/-- The bytes of a piece: those at SRC when its HUPD runs. -/
def StreamPiece.bytes (p : StreamPiece) (s : State) : List Byte := (p.written s).memRead p.src.toNat p.len.toNat

/-- The host's accesses for a piece: its writes to MEM, then SRC, LEN and HUPD. -/
def StreamPiece.inputs (c : Config) (p : StreamPiece) : List Input :=
  p.writes.map (fun w => Input.memWrite w.1 w.2) ++ [Input.wr c .src p.src, Input.wr c .len p.len, Input.command c .hupd]

/-- The message the pieces make up. A piece may reuse the addresses of an earlier one, so it can be longer than MEM. -/
def streamMessage (pieces : List StreamPiece) (s : State) : List Byte :=
  match pieces with
  | [] => []
  | p :: rest => p.bytes s ++ streamMessage rest (p.written s)

/-- R138: the host program that hashes a message in pieces and writes the digest to `dst`: HINIT, the accesses of each
piece, HFIN. -/
def streamProgram (c : Config) (pieces : List StreamPiece) (dst : Word) : List Input :=
  [Input.command c .hinit] ++ pieces.flatMap (StreamPiece.inputs c) ++ [Input.wr c .dst dst, Input.command c .hfin]

end Sys2Proof.Machine
end

