-- ==== Sys2Proof/Safety.lean ====
section
/-! DEFINITION. Sys2Proof/Safety.lean: the invariant of the machine and the terms the claims use. -/

namespace Sys2Proof.Machine

/-- R40, R41, R134, R136: HLEN never exceeds HLEN_MAX, HCNT is what is left of HLEN after whole blocks, and with no stream
open HLEN is 0 and HBUF is zero. -/
abbrev HashCtx.Inv (h : HashCtx) : Prop :=
  h.hlen.toNat ≤ hlenMax ∧ h.hcnt.val = h.hlen.toNat % 64 ∧
    (h.hact = false → h.hlen = 0 ∧ h.hbuf = Vector.replicate 64 0)

/-- R43, R44: RK is the schedule of some 16-byte key once KVALID is 1, and zero before. -/
def CipherCtx.Inv (c : CipherCtx) : Prop :=
  (c.kvalid = true → ∃ key : List Byte, key.length = 16 ∧ c.rk = expandKey key) ∧
    (c.kvalid = false → c.rk = Vector.replicate 32 0)

/-- The invariant: MEM_BYTES is legal (R6), MEM keeps its canonical form and lists only addresses that exist (R70), and
both contexts keep theirs. -/
def State.Inv (s : State) : Prop :=
  s.cfg.wf = true ∧ Mem.wf s.mem ∧ Mem.below s.mem s.cfg.memBytes ∧ s.hash.Inv ∧ s.cipher.Inv

/-- The next input is the host's write of the word `w` to CMD (R97). -/
def State.nextIsCommand (s : State) (w : Word) (rest : List Input) : Prop :=
  s.inputs = .csrWrite s.cfg.csrBase 4 w :: rest

/-- The state in which a command word runs: its input has been taken, the host's write is accepted and CMD holds the
word (R33, R97). -/
def State.issued (s : State) (w : Word) (rest : List Input) : State :=
  ((s.setInputs rest).setResp .accepted).setCmd w

/-- The region (p, n) is in range (R73). -/
abbrev State.has (s : State) (p : Word) (n : Nat) : Prop := n = 0 ∨ p.toNat + n ≤ s.cfg.memBytes

/-- Two regions share no address. -/
abbrev disjoint (p m q n : Nat) : Prop := p + m ≤ q ∨ q + n ≤ p

/-- The inputs that reset the registers (R231, R232). -/
def Input.isReset : Input → Bool
  | .reset | .resetDuring _ | .powerUp => true
  | .csrRead _ _ | .csrWrite _ _ _ | .memRead _ _ | .memWrite _ _ => false

/-- The commands that expand a key: KEXP, and a command with KX = 1 (R165, R166). -/
def expandsKey : Instr → Bool
  | .kexp => true
  | .benc kx | .bdec kx | .cbce _ kx | .cbcd _ kx => kx
  | .nop | .hinit | .hcomp | .hupd | .hfin | .hash | .hmac => false

end Sys2Proof.Machine
end

