-- ==== Sys2Proof/Certificates/Slice0/Obligations.lean ====
section
/-! DEFINITION. Sys2Proof/Certificates/Slice0/Obligations.lean: the statements for the provers. Each docstring names the rule
of spec/ it formalises; OBLIGATIONS.json says which of them a statement states whole. -/

open Sys2Proof Sys2Proof.Machine

/-! ## Encoding (30_encoding.md) -/

/-- V7 and R100: a few words, written out from the encoding, decode to the command they stand for, and a few to none. -/
def Obligations.SampleWordsDecode : Prop :=
  decode 0x00000000 = .ok .nop ∧ decode 0x00000001 = .ok .hinit ∧ decode 0x00000005 = .ok .hash ∧
  decode 0x00000007 = .ok .kexp ∧ decode 0x00000028 = .ok (.benc true) ∧ decode 0x00000009 = .ok (.bdec false) ∧
  decode 0x0000002A = .ok (.cbce false true) ∧ decode 0x0000001A = .ok (.cbce true false) ∧
  decode 0x0000003B = .ok (.cbcd true true) ∧
  ([0x0000000C, 0x0000000F, 0x00000010, 0x00000018, 0x00000025, 0x00000027, 0x00000040, 0x0000004A, 0x80000005,
    0xFFFFFFFF] : List Word).map (fun w => (decode w).toOption) = List.replicate 10 none

/-- R95, R100: a word decodes to a command exactly when it is that command's word; so decoding inverts encoding and no
command has two words. -/
def Obligations.DecodeExactlyInvertsEncode : Prop :=
  ∀ (w : Word) (i : Instr), decode w = .ok i ↔ w = encode i

/-- R94: a word is ILLEGAL exactly under one of the four conditions, read off the bits of the word; and an ILLEGAL word
ends with the code 0x01 and has no effect but on CMD and STATUS.ERR. -/
def Obligations.IllegalExactlyUnderFourConditions : Prop :=
  ∀ (w : Word),
    let op := w.toNat % 16
    let bad := (op = 0xC ∨ op = 0xD ∨ op = 0xE ∨ op = 0xF) ∨ w.toNat / 64 ≠ 0 ∨
      (w.getLsbD 4 = true ∧ ¬ (op = 0xA ∨ op = 0xB)) ∨
      (w.getLsbD 5 = true ∧ ¬ (op = 0x8 ∨ op = 0x9 ∨ op = 0xA ∨ op = 0xB))
    (illegal w = true ↔ bad) ∧ ((∃ e, decode w = .error e) ↔ bad) ∧ Err.illegal.code = 0x01 ∧
    (∀ (s : State) (rest : List Input), bad → s.nextIsCommand w rest →
      step s = .next { s with inputs := rest, resp := .accepted, cmd := w, err := .illegal })

/-- R95: the decoder is total on all 2^32 words: each is one of the twenty legal words of R100, or ILLEGAL. -/
def Obligations.EachWordIsLegalOrIllegal : Prop :=
  ∀ (w : Word),
    let legal := w ∈ ([0x00, 0x01, 0x02, 0x03, 0x04, 0x05, 0x06, 0x07, 0x08, 0x28, 0x09, 0x29, 0x0A, 0x1A, 0x2A, 0x3A,
      0x0B, 0x1B, 0x2B, 0x3B] : List Word)
    ((∃ i, decode w = .ok i) ↔ legal) ∧ ((∃ e, decode w = .error e) ↔ ¬ legal)

/-- The opcode table: every word belongs to at most one row, a word that decodes belongs to the row of its command's
mnemonic, and a word that belongs to no row is ILLEGAL. -/
def Obligations.OpcodeRowsAgreeWithDecoder : Prop :=
  ∀ (w : Word), (opcodeRows.filter (fun r => r.matches w)).map OpcodeRow.mnemonic =
    match decode w with
    | .ok i => [i.mnemonic]
    | .error _ => []

/-! ## The step (30_encoding.md R97, 46_host_access.md) -/

/-- R97: when the host's next access writes to CMD a word that decodes, the step takes the access, stores the word in CMD
and runs exactly that command. -/
def Obligations.StepRunsDecodedCommand : Prop :=
  ∀ (s : State) (w : Word) (rest : List Input) (i : Instr), s.nextIsCommand w rest → decode w = .ok i →
    step s = exec i { s with inputs := rest, resp := .accepted, cmd := w }

/-- The model's own entry point (assumption 4): a word placed by withFetchWord is the next command to run, for every
command, and the inputs that were to come still come. -/
def Obligations.FetchWordRunsNext : Prop :=
  ∀ (s : State) (i : Instr), step (s.withFetchWord 32 (encode i).toNat) =
    exec i { s with resp := .accepted, cmd := encode i }

/-- R97: a command always ends: exec answers a next state whose STATUS.ERR is the code of its check. -/
def Obligations.EveryCommandEndsWithItsCode : Prop :=
  ∀ (i : Instr) (s : State), ∃ t, exec i s = .next t ∧ t.err = check i s

/-- The model's own stops (assumptions 6 and 7): only a host access to a MEM byte that does not exist faults, and only a
host access outside the CSR window is refused. No command ever stops. -/
def Obligations.OnlyStrayHostAccessesStop : Prop :=
  ∀ (s : State),
    (∀ f, step s = .fault f ↔ f = .hostMemRange ∧ ∃ rest,
      (∃ a n, s.inputs = .memRead a n :: rest ∧ n ≠ 0 ∧ s.cfg.memBytes < a + n) ∨
      (∃ a bs, s.inputs = .memWrite a bs :: rest ∧ bs ≠ [] ∧ s.cfg.memBytes < a + bs.length)) ∧
    (∀ r, step s = .refused r ↔ r = .outsideWindow ∧ ∃ rest addr size,
      (s.inputs = .csrRead addr size :: rest ∨ ∃ v, s.inputs = .csrWrite addr size v :: rest) ∧
      (addr < s.cfg.csrBase ∨ s.cfg.csrBase + 4096 ≤ addr))

/-! ## Errors (60_exceptions.md) -/

/-- R201, R203: Check(w) reports the first of its tests that applies, in the order of the rule, with every command's
regions written out from R96. -/
def Obligations.CheckReportsFirstFailingTest : Prop :=
  ∀ (w : Word) (s : State),
    let op := w.toNat % 16
    let ivl := w.getLsbD 4 = true
    let kx := w.getLsbD 5 = true
    let o := s.ops
    let noCtx := (op = 3 ∨ op = 4) ∧ s.hash.hact = false
    let busy := (op = 5 ∨ op = 6) ∧ s.hash.hact = true
    let noKey := (op = 8 ∨ op = 9 ∨ op = 10 ∨ op = 11) ∧ ¬ kx ∧ s.cipher.kvalid = false
    let align := (op = 10 ∨ op = 11) ∧ o.len.toNat % 16 ≠ 0
    let ovf := op = 3 ∧ s.hash.hlen.toNat + o.len.toNat > 2 ^ 61 - 1
    let range :=
      (op = 2 ∧ ¬ s.has o.src 64) ∨ (op = 3 ∧ ¬ s.has o.src o.len.toNat) ∨ (op = 4 ∧ ¬ s.has o.dst 32) ∨
      (op = 5 ∧ (¬ s.has o.src o.len.toNat ∨ ¬ s.has o.dst 32)) ∨
      (op = 6 ∧ (¬ s.has o.keyp o.klen.toNat ∨ ¬ s.has o.src o.len.toNat ∨ ¬ s.has o.dst 32)) ∨
      (op = 7 ∧ ¬ s.has o.keyp 16) ∨
      ((op = 8 ∨ op = 9) ∧ ((kx ∧ ¬ s.has o.keyp 16) ∨ ¬ s.has o.src 16 ∨ ¬ s.has o.dst 16)) ∨
      ((op = 10 ∨ op = 11) ∧ ((kx ∧ ¬ s.has o.keyp 16) ∨ (ivl ∧ ¬ s.has o.ivp 16) ∨
        ¬ s.has o.src o.len.toNat ∨ ¬ s.has o.dst o.len.toNat))
    (illegal w = true → checkWord w s = .illegal) ∧
    (illegal w = false → noCtx → checkWord w s = .noCtx) ∧
    (illegal w = false → ¬ noCtx → busy → checkWord w s = .ctxBusy) ∧
    (illegal w = false → ¬ noCtx → ¬ busy → noKey → checkWord w s = .noKey) ∧
    (illegal w = false → ¬ noCtx → ¬ busy → ¬ noKey → align → checkWord w s = .lenAlign) ∧
    (illegal w = false → ¬ noCtx → ¬ busy → ¬ noKey → ¬ align → ovf → checkWord w s = .lenOvf) ∧
    (illegal w = false → ¬ noCtx → ¬ busy → ¬ noKey → ¬ align → ¬ ovf → range → checkWord w s = .range) ∧
    (illegal w = false → ¬ noCtx → ¬ busy → ¬ noKey → ¬ align → ¬ ovf → ¬ range → checkWord w s = .ok)

/-- R202: a command whose Check fails has exactly two effects: CMD holds the word and STATUS.ERR holds the code; and the
code does not depend on MEM, so nothing of MEM is read. -/
def Obligations.FailedCommandHasExactlyTwoEffects : Prop :=
  ∀ (s : State) (w : Word),
    (∀ rest : List Input, s.nextIsCommand w rest → checkWord w s ≠ .ok →
      step s = .next { s with inputs := rest, resp := .accepted, cmd := w, err := checkWord w s }) ∧
    (∀ (m : List Host.Cell) (p : Nat), checkWord w { s with mem := m, powerUps := p } = checkWord w s)

/-- R204: a command whose Check passes sets STATUS.ERR to 0x00, STATUS.ERR always describes the most recent command, and a
code lasts until the next command (or a reset, R230). -/
def Obligations.ErrDescribesLatestCommand : Prop :=
  Err.ok.code = 0x00 ∧
  ∀ (s t : State) (x : Input) (rest : List Input), s.inputs = x :: rest → step s = .next t →
    (∀ w, x = .csrWrite s.cfg.csrBase 4 w → t.err = checkWord w s) ∧
    ((∀ w, x ≠ .csrWrite s.cfg.csrBase 4 w) → x.isReset = false → t.err = s.err)

/-! ## NOP and the hash commands (46_host_access.md, 40_hash_compression.md, 41_hash_stream.md) -/

/-- R190: NOP sets STATUS.ERR to 0x00 and changes no other state; its word is 0, and any of bits 31:4 makes it ILLEGAL. -/
def Obligations.NopOnlyClearsErr : Prop :=
  (∀ s : State, exec .nop s = .next { s with err := .ok }) ∧ encode .nop = 0x00000000 ∧
  (∀ (s : State) (rest : List Input), s.nextIsCommand 0 rest →
    step s = .next { s with inputs := rest, resp := .accepted, cmd := 0, err := .ok }) ∧
  (∀ (w : Word) (s : State), w.toNat % 16 = 0 → w ≠ 0 → checkWord w s = .illegal)

/-- R132: HINIT loads HS with the hash IV, zeroes HBUF, HCNT and HLEN, sets HACT, and changes nothing else, whether or not
a stream was open. -/
def Obligations.HinitOpensFreshStream : Prop :=
  (∀ s : State, ∃ t, exec .hinit s = .next t ∧
    t = { s with
      hash := { hs := #v[0x7380166F, 0x4914B2B9, 0x172442D7, 0xDA8A0600, 0xA96F30BC, 0x163138AA, 0xE38DEE4D, 0xB0FB0E4E]
                hbuf := Vector.replicate 64 0, hcnt := 0, hlen := 0, hact := true }
      err := .ok } ∧
    (Csr.hs 0).read t = 0x7380166F ∧ Csr.hcnt.read t = 0 ∧ (s.cipher.kvalid = false → Csr.status.read t = 0x00000100)) ∧
  encode .hinit = 0x00000001 ∧
  (∀ (w : Word) (s : State), w.toNat % 16 = 1 → w ≠ 1 → checkWord w s = .illegal)

/-- R118: HCOMP replaces HS by CF(HS, MEM[SRC +: 64]) and changes nothing else, stream open or not; a block out of range
ends with RANGE; and the two values of CF the rule gives. -/
def Obligations.HcompCompressesOneBlock : Prop :=
  (∀ s : State, s.has s.ops.src 64 → exec .hcomp s =
    .next { s with hash := { s.hash with hs := cf s.hash.hs (s.memRead s.ops.src.toNat 64) }, err := .ok }) ∧
  (∀ s : State, ¬ s.has s.ops.src 64 → exec .hcomp s = .next { s with err := .range }) ∧
  encode .hcomp = 0x00000002 ∧
  (∀ (w : Word) (s : State), w.toNat % 16 = 2 → w ≠ 2 → checkWord w s = .illegal) ∧
  cf (Vector.replicate 8 0) (zeros 64) =
    #v[0x2762550f, 0x18134933, 0xba35ce4e, 0x0a757e65, 0x8c0e7205, 0xfe9e4ff6, 0x5ac5c88b, 0xa3649ac2] ∧
  cf hashIv ([0x61, 0x62, 0x63, 0x80] ++ zeros 59 ++ [0x18]) =
    #v[0x66c7f0f4, 0x62eeedd9, 0xd1f2d46b, 0xdc10e4e2, 0x4167c487, 0x5cf2f7a2, 0x297da02b, 0x8f4ba8e0]

/-- R133: HUPD absorbs MEM[SRC +: LEN] into the open stream and changes nothing else; its errors are ILLEGAL, NO_CTX,
LEN_OVF and RANGE in that order, each leaving the stream unchanged; LEN = 0 changes nothing and never fails RANGE; and the
registers of the rule's example. -/
def Obligations.HupdAbsorbsRegion : Prop :=
  encode .hupd = 0x00000003 ∧
  (∀ (w : Word) (s : State), w.toNat % 16 = 3 → w ≠ 3 → checkWord w s = .illegal) ∧
  (let h := HashCtx.reset.start.absorb [0x61, 0x62, 0x63]
   h.hcnt = 3 ∧ h.hlen = 3 ∧ be32 h.hbuf.toList 0 = 0x61626300 ∧ h.hs = hashIv) ∧
  ∀ s : State,
    let m := s.memRead s.ops.src.toNat s.ops.len.toNat
    let fits := s.hash.hlen.toNat + s.ops.len.toNat ≤ 2 ^ 61 - 1
    (s.hash.hact = true → fits → s.has s.ops.src s.ops.len.toNat →
      exec .hupd s = .next { s with hash := s.hash.absorb m, err := .ok }) ∧
    (s.hash.hact = false → exec .hupd s = .next { s with err := .noCtx }) ∧
    (s.hash.hact = true → ¬ fits → exec .hupd s = .next { s with err := .lenOvf }) ∧
    (s.hash.hact = true → fits → ¬ s.has s.ops.src s.ops.len.toNat → exec .hupd s = .next { s with err := .range }) ∧
    (s.hash.hact = true → fits → s.ops.len = 0 → exec .hupd s = .next { s with err := .ok }) ∧
    (s.hash.hcnt.val + m.length = 64 → (s.hash.absorb m).hcnt = 0)

/-- R134: ABSORB compresses exactly the full 64-byte chunks of the pending bytes followed by m, in order, and keeps the
rest pending; the bytes of HBUF behind the pending ones are those of the last block compressed, or unchanged if none was;
HLEN grows by the length of m. -/
def Obligations.AbsorbCompressesFullChunks : Prop :=
  ∀ (h : HashCtx) (m : List Byte),
    let all := h.hbuf.toList.take h.hcnt.val ++ m
    let q := all.length / 64
    let h' := h.absorb m
    h'.hs = (piecesOf 64 q all).foldl cf h.hs ∧
    h'.hcnt.val = all.length % 64 ∧
    h'.hbuf.toList.take h'.hcnt.val = all.drop (64 * q) ∧
    (q = 0 → h'.hbuf.toList.drop h'.hcnt.val = h.hbuf.toList.drop h'.hcnt.val) ∧
    (0 < q → h'.hbuf.toList.drop h'.hcnt.val = ((all.drop (64 * (q - 1))).take 64).drop h'.hcnt.val) ∧
    h'.hlen = h.hlen + BitVec.ofNat 64 m.length ∧ h'.hact = h.hact

/-- R135, R136: HFIN compresses the padded remainder (one block if at most 55 bytes are pending, else two), writes the
32-byte digest to DST, keeps the final state in HS and closes the stream; its errors are ILLEGAL, NO_CTX and RANGE in that
order and change nothing else; and the digests of the rule's corner case and example. -/
def Obligations.HfinWritesDigestAndCloses : Prop :=
  encode .hfin = 0x00000004 ∧
  (∀ (w : Word) (s : State), w.toNat % 16 = 4 → w ≠ 4 → checkWord w s = .illegal) ∧
  HashCtx.reset.start.finish.digestBytes = serw [0x1ab21d83, 0x55cfa17f, 0x8e611948, 0x31e81a8f, 0x22bec8c7, 0x28fefb74,
    0x7ed035eb, 0x5082aa2b] ∧
  (HashCtx.reset.start.absorb [0x61, 0x62, 0x63]).finish.digestBytes = serw [0x66c7f0f4, 0x62eeedd9, 0xd1f2d46b,
    0xdc10e4e2, 0x4167c487, 0x5cf2f7a2, 0x297da02b, 0x8f4ba8e0] ∧
  ∀ s : State,
    let r := s.hash.hcnt.val
    let blk := s.hash.hbuf.toList.take r ++ [0x80] ++ zeros (63 - r)
    let l := ser64 (BitVec.ofNat 64 (8 * s.hash.hlen.toNat))
    let v := if r ≤ 55 then cf s.hash.hs (blk.take 56 ++ l) else cf (cf s.hash.hs blk) (zeros 56 ++ l)
    (s.hash.hact = true → s.has s.ops.dst 32 → exec .hfin s =
      .next { s with
        hash := { hs := v, hbuf := Vector.replicate 64 0, hcnt := 0, hlen := 0, hact := false }
        mem := Mem.writeBytes s.mem s.ops.dst.toNat (serw v.toList)
        err := .ok }) ∧
    (s.hash.hact = false → exec .hfin s = .next { s with err := .noCtx }) ∧
    (s.hash.hact = true → ¬ s.has s.ops.dst 32 → exec .hfin s = .next { s with err := .range })

/-- R150: DIGEST(M) leaves in HS the state after all blocks of PAD(M), whatever the context held; its serialisation is the
source's hash(M); HBUF, HCNT, HLEN and HACT are left 0. -/
def Obligations.DigestIsHashOfPaddedMessage : Prop :=
  ∀ (h : HashCtx) (m : List Byte), m.length ≤ 2 ^ 61 - 1 →
    h.digest m = { hs := hashState m, hbuf := Vector.replicate 64 0, hcnt := 0, hlen := 0, hact := false } ∧
    (h.digest m).digestBytes = hashOf m

/-- R137: HASH writes the source's hash of the LEN bytes at SRC, as they were before the command, to DST; HS keeps the
final state and the rest of the hash context is 0; its errors are ILLEGAL, CTX_BUSY and RANGE in that order; and the hashes
of the rule's corner case and example. -/
def Obligations.HashWritesHashOfRegion : Prop :=
  encode .hash = 0x00000005 ∧
  (∀ (w : Word) (s : State), w.toNat % 16 = 5 → w ≠ 5 → checkWord w s = .illegal) ∧
  hashOf [] = serw [0x1ab21d83, 0x55cfa17f, 0x8e611948, 0x31e81a8f, 0x22bec8c7, 0x28fefb74, 0x7ed035eb, 0x5082aa2b] ∧
  hashOf [0x61, 0x62, 0x63] = serw [0x66c7f0f4, 0x62eeedd9, 0xd1f2d46b, 0xdc10e4e2, 0x4167c487, 0x5cf2f7a2, 0x297da02b,
    0x8f4ba8e0] ∧
  ∀ s : State,
    let m := s.memRead s.ops.src.toNat s.ops.len.toNat
    let ok := s.has s.ops.src s.ops.len.toNat ∧ s.has s.ops.dst 32
    (s.hash.hact = false → ok → exec .hash s =
      .next { s with
        hash := { hs := hashState m, hbuf := Vector.replicate 64 0, hcnt := 0, hlen := 0, hact := false }
        mem := Mem.writeBytes s.mem s.ops.dst.toNat (hashOf m)
        err := .ok }) ∧
    (s.hash.hact = true → exec .hash s = .next { s with err := .ctxBusy }) ∧
    (s.hash.hact = false → ¬ ok → exec .hash s = .next { s with err := .range })

/-- R138: a message split in any way into pieces, each already in MEM or written there by the host before its HUPD, so that
the message may be longer than MEM, gives, by HINIT, a HUPD for each piece and HFIN, the digest SERW(Vz) of PAD, and so the
same 32 bytes that HASH writes for the whole message wherever it lies in MEM. -/
def Obligations.SplitStreamGivesSameDigest : Prop :=
  ∀ (s : State) (pieces : List StreamPiece) (dst : Word),
    let m := streamMessage pieces s
    let prog := streamProgram s.cfg pieces dst
    Mem.wf s.mem → (∀ p ∈ pieces, s.has p.src p.len.toNat ∧ ∀ w ∈ p.writes, w.1 + w.2.length ≤ s.cfg.memBytes) →
    s.has dst 32 → m.length ≤ 2 ^ 61 - 1 →
      ∃ t : State, Host.Core.run Sys2Proof.core prog.length { s with inputs := prog } = .next t ∧
        t.memRead dst.toNat 32 = hashOf m ∧ t.err = .ok ∧
        (∀ (u v : State), Mem.wf u.mem → check .hash u = .ok → u.memRead u.ops.src.toNat u.ops.len.toNat = m →
          exec .hash u = .next v → v.memRead u.ops.dst.toNat 32 = t.memRead dst.toNat 32)

/-! ## HMAC (42_hmac.md) -/

/-- R152: HMAC writes the source's mac of the key bytes at KEYP and the data bytes at SRC, as they were before the
command, to DST; HS keeps the final state of the outer hash and the rest of the hash context is 0; its errors are ILLEGAL,
CTX_BUSY and RANGE in that order; and the tag of the rule's example. -/
def Obligations.HmacWritesMacOfKeyAndData : Prop :=
  encode .hmac = 0x00000006 ∧
  (∀ (w : Word) (s : State), w.toNat % 16 = 6 → w ≠ 6 → checkWord w s = .illegal) ∧
  macOf [0x01, 0x02, 0x03, 0x04, 0x05, 0x06, 0x07, 0x08, 0x09, 0x0a, 0x0b, 0x0c, 0x0d, 0x0e, 0x0f, 0x10]
    [0x61, 0x62, 0x63] = serw [0xa673f590, 0x5a6f786c, 0xccead2c3, 0x94198d67, 0x16fe523f, 0x3c70da9a, 0xdfdb8abb,
      0x2da88345] ∧
  ∀ s : State,
    let k := s.memRead s.ops.keyp.toNat s.ops.klen.toNat
    let d := s.memRead s.ops.src.toNat s.ops.len.toNat
    let ok := s.has s.ops.keyp s.ops.klen.toNat ∧ s.has s.ops.src s.ops.len.toNat ∧ s.has s.ops.dst 32
    (s.hash.hact = false → ok → exec .hmac s =
      .next { s with
        hash := { hs := hashState (macOuterMessage k d), hbuf := Vector.replicate 64 0, hcnt := 0, hlen := 0, hact := false }
        mem := Mem.writeBytes s.mem s.ops.dst.toNat (macOf k d)
        err := .ok }) ∧
    (s.hash.hact = true → exec .hmac s = .next { s with err := .ctxBusy }) ∧
    (s.hash.hact = false → ¬ ok → exec .hmac s = .next { s with err := .range })

/-- R153: the same key and data bytes always give the same tag, whatever else the two states hold (HACT = 0, as the check
asks). -/
def Obligations.HmacTagDependsOnKeyAndDataOnly : Prop :=
  ∀ (s t s' t' : State), Mem.wf s.mem → Mem.wf s'.mem → check .hmac s = .ok → check .hmac s' = .ok →
    s.memRead s.ops.keyp.toNat s.ops.klen.toNat = s'.memRead s'.ops.keyp.toNat s'.ops.klen.toNat →
    s.memRead s.ops.src.toNat s.ops.len.toNat = s'.memRead s'.ops.src.toNat s'.ops.len.toNat →
    exec .hmac s = .next t → exec .hmac s' = .next t' →
      t.memRead s.ops.dst.toNat 32 = t'.memRead s'.ops.dst.toNat 32

/-! ## The compression function and the primitives (40_hash_compression.md, 00_scope.md, 10_state.md) -/

/-- R11: rotl rotates left by n mod 32 for any integer n, so a negative amount rotates right and n + 32 is n. -/
def Obligations.RotlTakesAmountModulo32 : Prop :=
  ∀ (x : Word) (n : Int),
    rotl x n = x.rotateLeft (n % 32).toNat ∧ rotl x (n + 32) = rotl x n ∧
    (∀ k : Nat, rotl x (-(k : Int)) = x.rotateRight (k % 32))

/-- R12: the big-endian packings, as numbers. -/
def Obligations.PackingIsBigEndian : Prop :=
  (∀ (b : List Byte) (i : Nat), (be32 b i).toNat = (b.getD i 0).toNat * 2 ^ 24 + (b.getD (i + 1) 0).toNat * 2 ^ 16 +
    (b.getD (i + 2) 0).toNat * 2 ^ 8 + (b.getD (i + 3) 0).toNat) ∧
  (∀ (x : Word), (ser32 x).map BitVec.toNat =
    [x.toNat / 2 ^ 24, x.toNat / 2 ^ 16 % 256, x.toNat / 2 ^ 8 % 256, x.toNat % 256]) ∧
  (∀ (v : BitVec 64), (ser64 v).map BitVec.toNat =
    (List.range 8).map (fun k => v.toNat / 2 ^ (8 * (7 - k)) % 256)) ∧
  (∀ (b : List Byte) (i : Fin 4), (words4 b)[i] = be32 b (4 * i.val)) ∧
  (∀ (ws : List Word) (k : Nat), k < ws.length → ((serw ws).drop (4 * k)).take 4 = ser32 (ws.getD k 0))

/-- R112: the message expansion, as the recurrence of the rule over the finished arrays W and W1; and the words of the
rule's example. -/
def Obligations.ExpansionFollowsRecurrence : Prop :=
  (let w := expandW ([0x61, 0x62, 0x63, 0x80] ++ zeros 59 ++ [0x18])
   w.getD 16 0 = 0x9092E200 ∧ w.getD 18 0 = 0x000C0606 ∧ w.getD 19 0 = 0x719C70ED ∧
     (expandW1 w).getD 15 0 = 0x719C70F5) ∧
  ∀ (b : List Byte),
    let w := fun i => (expandW b).getD i 0
    let w1 := fun i => (expandW1 (expandW b)).getD i 0
    (expandW b).length = 68 ∧ (expandW1 (expandW b)).length = 64 ∧
    (∀ i, i < 16 → w i = be32 b (4 * i)) ∧
    (∀ i, 16 ≤ i → i < 68 →
      w i = p1 (w (i - 16) ^^^ w (i - 9) ^^^ rotl (w (i - 3)) 15) ^^^ rotl (w (i - 13)) 7 ^^^ w (i - 6)) ∧
    (∀ i, i < 64 → w1 i = w i ^^^ w (i + 4))

/-- R113: every round constant is its base rotated by j mod 32, and the example values of the rule. -/
def Obligations.RoundConstantsRotateByIndex : Prop :=
  (∀ j : Nat, j ≤ 15 → roundConst j = (0x79CC4519 : Word).rotateLeft j) ∧
  (∀ j : Nat, 16 ≤ j → j ≤ 63 → roundConst j = (0x7A879D8A : Word).rotateLeft (j % 32)) ∧
  roundConst 0 = 0x79CC4519 ∧ roundConst 1 = 0xF3988A32 ∧ roundConst 15 = 0x228CBCE6 ∧ roundConst 16 = 0x9D8A7A87 ∧
  roundConst 31 = 0x3D43CEC5 ∧ roundConst 32 = 0x7A879D8A ∧ roundConst 33 = 0xF50F3B14 ∧ roundConst 63 = 0x3D43CEC5

/-- R115 to R117: CF runs 64 rounds on the working words from V, round j with W[j], W1[j] and Tj, and XORs the last words
into V. -/
def Obligations.CompressionRunsSixtyFourRounds : Prop :=
  ∀ (v : Vector Word 8) (b : List Byte), ∃ S : Nat → Work,
    let w := fun i => (expandW b).getD i 0
    let w1 := fun i => (expandW1 (expandW b)).getD i 0
    S 0 = ⟨v[0], v[1], v[2], v[3], v[4], v[5], v[6], v[7]⟩ ∧
    (∀ j, j < 64 →
      let x := S j
      let s1 := rotl (rotl x.a 12 + x.e + roundConst j) 7
      let f1 := if j ≤ 15 then x.a ^^^ x.b ^^^ x.c else (x.a &&& x.b) ||| (x.a &&& x.c) ||| (x.b &&& x.c)
      let g1 := if j ≤ 15 then x.e ^^^ x.f ^^^ x.g else (x.e &&& x.f) ||| (~~~ x.e &&& x.g)
      let t1 := f1 + x.d + (s1 ^^^ rotl x.a 12) + w1 j
      let t2 := g1 + x.h + s1 + w j
      S (j + 1) = ⟨t1, x.a, rotl x.b 9, x.c, t2 ^^^ rotl t2 9 ^^^ rotl t2 17, x.e, rotl x.f 19, x.g⟩) ∧
    cf v b = #v[(S 64).a ^^^ v[0], (S 64).b ^^^ v[1], (S 64).c ^^^ v[2], (S 64).d ^^^ v[3],
      (S 64).e ^^^ v[4], (S 64).f ^^^ v[5], (S 64).g ^^^ v[6], (S 64).h ^^^ v[7]]

/-! ## The cipher (43_cipher_key_schedule.md, 44_cipher_block.md) -/

/-- R163: KEXP expands the 16 bytes at KEYP into RK and sets KVALID, and changes nothing else; a key out of range ends with
RANGE; and the round keys the rule's example gives. -/
def Obligations.KexpExpandsKeyAtKeyp : Prop :=
  (∀ s : State, s.has s.ops.keyp 16 → exec .kexp s =
    .next { s with
      cipher := { rk := expandKey (s.memRead s.ops.keyp.toNat 16), kvalid := true, cr := s.cipher.cr }, err := .ok }) ∧
  (∀ s : State, ¬ s.has s.ops.keyp 16 → exec .kexp s = .next { s with err := .range }) ∧
  encode .kexp = 0x00000007 ∧
  (∀ (w : Word) (s : State), w.toNat % 16 = 7 → w ≠ 7 → checkWord w s = .illegal) ∧
  (let rk := expandKey [0x01, 0x23, 0x45, 0x67, 0x89, 0xab, 0xcd, 0xef, 0xfe, 0xdc, 0xba, 0x98, 0x76, 0x54, 0x32, 0x10]
   rk[0] = 0xF12186F9 ∧ rk[1] = 0x41662B61 ∧ rk[31] = 0x9124A012)

/-- R164: the round keys satisfy the recurrence of the rule: K[0..3] are the key words XOR FK, K[i+4] is
K[i] ⊕ T'(K[i+1] ⊕ K[i+2] ⊕ K[i+3] ⊕ CK[i]), and rk[i] is K[i+4]; and the words of the rule's example. -/
def Obligations.ScheduleFollowsRecurrence : Prop :=
  (let key := [0x01, 0x23, 0x45, 0x67, 0x89, 0xab, 0xcd, 0xef, 0xfe, 0xdc, 0xba, 0x98, 0x76, 0x54, 0x32, 0x10]
   keyWindow key = ⟨0xa292ffa1, 0xdf01febf, 0x99a12b0f, 0xc42410cc⟩ ∧ (expandKey key)[0] = 0xF12186F9) ∧
  ∀ (key : List Byte), ∃ K : Nat → Word,
    (∀ i : Fin 4, K i.val = be32 key (4 * i.val) ^^^ fk[i]) ∧
    (∀ i, i < 32 → K (i + 4) = K i ^^^ tKey (K (i + 1) ^^^ K (i + 2) ^^^ K (i + 3) ^^^ ck i)) ∧
    (∀ i : Fin 32, (expandKey key)[i] = K (i.val + 4))

/-- R172: the block transform satisfies the recurrence of the rule, the keys taken forward for encryption and reversed for
decryption, and its output is the last four words in reverse order. -/
def Obligations.TransformFollowsRecurrence : Prop :=
  ∀ (b : List Byte) (rk : Vector Word 32) (d : Dir), ∃ X : Nat → Word,
    (∀ i, i < 4 → X i = be32 b (4 * i)) ∧
    (∀ i : Fin 32, X (i.val + 4) = X i.val ^^^ tData (X (i.val + 1) ^^^ X (i.val + 2) ^^^ X (i.val + 3) ^^^
      (match d with
       | .enc => rk[i]
       | .dec => rk[31 - i.val]'(by omega)))) ∧
    blockF b rk d = serw [X 35, X 34, X 33, X 32]

/-- R175: for every schedule and every 16-byte block, decryption undoes encryption and encryption undoes decryption. -/
def Obligations.TransformDirectionsAreInverse : Prop :=
  ∀ (rk : Vector Word 32) (x : List Byte), x.length = 16 →
    blockF (blockF x rk .enc) rk .dec = x ∧ blockF (blockF x rk .dec) rk .enc = x

/-- R173, R174: BENC and BDEC write the transform of the block at SRC, read before it is written, to DST; with KX = 1 the
key at KEYP is expanded first and that schedule is used; CR and the hash context do not change; their errors are ILLEGAL,
NO_KEY and RANGE in that order; and the block of the rules' examples. -/
def Obligations.BlockCommandsTransformOneBlock : Prop :=
  (encode (.benc false) = 0x00000008 ∧ encode (.benc true) = 0x00000028 ∧ encode (.bdec false) = 0x00000009 ∧
    encode (.bdec true) = 0x00000029) ∧
  (∀ (w : Word) (s : State), w.toNat % 16 = 8 ∨ w.toNat % 16 = 9 → w.getLsbD 4 = true ∨ w.toNat / 64 ≠ 0 →
    checkWord w s = .illegal) ∧
  (let key := [0x01, 0x23, 0x45, 0x67, 0x89, 0xab, 0xcd, 0xef, 0xfe, 0xdc, 0xba, 0x98, 0x76, 0x54, 0x32, 0x10]
   let out := serw [0x681edf34, 0xd206965e, 0x86b3e94f, 0x536e4246]
   blockF key (expandKey key) .enc = out ∧ blockF out (expandKey key) .dec = key) ∧
  ∀ (s : State) (kx : Bool),
    let rk := if kx then expandKey (s.memRead s.ops.keyp.toNat 16) else s.cipher.rk
    let keyed := kx = true ∨ s.cipher.kvalid = true
    let inRange := (kx = true → s.has s.ops.keyp 16) ∧ s.has s.ops.src 16 ∧ s.has s.ops.dst 16
    let out := fun d => { s with
      cipher := { rk := rk, kvalid := true, cr := s.cipher.cr }
      mem := Mem.writeBytes s.mem s.ops.dst.toNat (blockF (s.memRead s.ops.src.toNat 16) rk d)
      err := .ok }
    (keyed → inRange → exec (.benc kx) s = .next (out .enc) ∧ exec (.bdec kx) s = .next (out .dec)) ∧
    (∀ i ∈ [Instr.benc kx, .bdec kx],
      (¬ keyed → exec i s = .next { s with err := .noKey }) ∧
      (keyed → ¬ inRange → exec i s = .next { s with err := .range }))

/-! ## The chained mode (45_chain_mode.md) -/

/-- R180: CBCE does the KX step, the IVL step and then, for each block in order, reads the block, encrypts it XOR CR, writes
the result and sets CR to it, so a read sees the writes of the earlier blocks, whatever regions overlap (R79); its errors
are ILLEGAL, NO_KEY, LEN_ALIGN and RANGE in that order and change nothing else; and the rule's example. -/
def Obligations.CbceRunsBlockByBlock : Prop :=
  (encode (.cbce false false) = 0x0000000A ∧ encode (.cbce true false) = 0x0000001A ∧
    encode (.cbce false true) = 0x0000002A ∧ encode (.cbce true true) = 0x0000003A) ∧
  (∀ (w : Word) (s : State), w.toNat % 16 = 10 → w.toNat / 64 ≠ 0 → checkWord w s = .illegal) ∧
  (let key := [0x01, 0x23, 0x45, 0x67, 0x89, 0xab, 0xcd, 0xef, 0xfe, 0xdc, 0xba, 0x98, 0x76, 0x54, 0x32, 0x10]
   cbcEncrypt (expandKey key) key [key] = [serw [0x2677f46b, 0x09c122cc, 0x97553310, 0x5bd4a22a]] ∧
     blockF (zeros 16) (expandKey key) .enc = serw [0x2677f46b, 0x09c122cc, 0x97553310, 0x5bd4a22a] ∧
     cbcEncrypt (expandKey key) (zeros 16) [key] = [serw [0x681edf34, 0xd206965e, 0x86b3e94f, 0x536e4246]]) ∧
  ∀ (s : State) (ivl kx : Bool),
    let o := s.ops
    let rk := if kx then expandKey (s.memRead o.keyp.toNat 16) else s.cipher.rk
    let keyed := kx = true ∨ s.cipher.kvalid = true
    let inRange := (kx = true → s.has o.keyp 16) ∧ (ivl = true → s.has o.ivp 16) ∧ s.has o.src o.len.toNat ∧
      s.has o.dst o.len.toNat
    (keyed → o.len.toNat % 16 = 0 → inRange →
      ∃ S : Nat → State,
        S 0 = { s with cipher :=
          { rk := rk, kvalid := true, cr := if ivl then words4 (s.memRead o.ivp.toNat 16) else s.cipher.cr } } ∧
        (∀ b, b < o.len.toNat / 16 →
          let c := blockF (xorBytes ((S b).memRead (o.src.toNat + 16 * b) 16) (serw (S b).cipher.cr.toList)) rk .enc
          S (b + 1) = { S b with
            mem := Mem.writeBytes (S b).mem (o.dst.toNat + 16 * b) c
            cipher := { (S b).cipher with cr := words4 c } }) ∧
        exec (.cbce ivl kx) s = .next { S (o.len.toNat / 16) with err := .ok }) ∧
    (¬ keyed → exec (.cbce ivl kx) s = .next { s with err := .noKey }) ∧
    (keyed → o.len.toNat % 16 ≠ 0 → exec (.cbce ivl kx) s = .next { s with err := .lenAlign }) ∧
    (keyed → o.len.toNat % 16 = 0 → ¬ inRange → exec (.cbce ivl kx) s = .next { s with err := .range })

/-- R181: CBCD does the KX step, the IVL step and then, for each block in order, reads the block, writes its decryption XOR
CR, and sets CR to the ciphertext block read before the write (R79); its errors are those of CBCE in the same order; and
the rule's example. -/
def Obligations.CbcdRunsBlockByBlock : Prop :=
  (encode (.cbcd false false) = 0x0000000B ∧ encode (.cbcd true false) = 0x0000001B ∧
    encode (.cbcd false true) = 0x0000002B ∧ encode (.cbcd true true) = 0x0000003B) ∧
  (∀ (w : Word) (s : State), w.toNat % 16 = 11 → w.toNat / 64 ≠ 0 → checkWord w s = .illegal) ∧
  (let key := [0x01, 0x23, 0x45, 0x67, 0x89, 0xab, 0xcd, 0xef, 0xfe, 0xdc, 0xba, 0x98, 0x76, 0x54, 0x32, 0x10]
   cbcDecrypt (expandKey key) key [serw [0x2677f46b, 0x09c122cc, 0x97553310, 0x5bd4a22a]] = [key]) ∧
  ∀ (s : State) (ivl kx : Bool),
    let o := s.ops
    let rk := if kx then expandKey (s.memRead o.keyp.toNat 16) else s.cipher.rk
    let keyed := kx = true ∨ s.cipher.kvalid = true
    let inRange := (kx = true → s.has o.keyp 16) ∧ (ivl = true → s.has o.ivp 16) ∧ s.has o.src o.len.toNat ∧
      s.has o.dst o.len.toNat
    (keyed → o.len.toNat % 16 = 0 → inRange →
      ∃ S : Nat → State,
        S 0 = { s with cipher :=
          { rk := rk, kvalid := true, cr := if ivl then words4 (s.memRead o.ivp.toNat 16) else s.cipher.cr } } ∧
        (∀ b, b < o.len.toNat / 16 →
          let c := (S b).memRead (o.src.toNat + 16 * b) 16
          S (b + 1) = { S b with
            mem := Mem.writeBytes (S b).mem (o.dst.toNat + 16 * b)
              (xorBytes (blockF c rk .dec) (serw (S b).cipher.cr.toList))
            cipher := { (S b).cipher with cr := words4 c } }) ∧
        exec (.cbcd ivl kx) s = .next { S (o.len.toNat / 16) with err := .ok }) ∧
    (¬ keyed → exec (.cbcd ivl kx) s = .next { s with err := .noKey }) ∧
    (keyed → o.len.toNat % 16 ≠ 0 → exec (.cbcd ivl kx) s = .next { s with err := .lenAlign }) ∧
    (keyed → o.len.toNat % 16 = 0 → ¬ inRange → exec (.cbcd ivl kx) s = .next { s with err := .range })

/-- R180, R181: in place or with regions apart, CBCE and CBCD write the chained transform of the original buffer. -/
def Obligations.ChainedCommandsMatchListForm : Prop :=
  ∀ (s t : State) (ivl kx : Bool),
    let o := s.ops
    let rk := if kx then expandKey (s.memRead o.keyp.toNat 16) else s.cipher.rk
    let iv := if ivl then s.memRead o.ivp.toNat 16 else serw s.cipher.cr.toList
    let input := piecesOf 16 (o.len.toNat / 16) (s.memRead o.src.toNat o.len.toNat)
    Mem.wf s.mem → (o.src = o.dst ∨ disjoint o.src.toNat o.len.toNat o.dst.toNat o.len.toNat) →
    (check (.cbce ivl kx) s = .ok → exec (.cbce ivl kx) s = .next t →
      t.memRead o.dst.toNat o.len.toNat = (cbcEncrypt rk iv input).flatten) ∧
    (check (.cbcd ivl kx) s = .ok → exec (.cbcd ivl kx) s = .next t →
      t.memRead o.dst.toNat o.len.toNat = (cbcDecrypt rk iv input).flatten)

/-- R186: CBCD.IV.KX of what CBCE.IV.KX wrote, with the same key and IV still in MEM, writes the plaintext to its DST,
over the ciphertext or apart from it. -/
def Obligations.ChainedDecryptRecoversPlaintext : Prop :=
  ∀ (s : State) (dst : Word),
    let o := s.ops
    let n := o.len.toNat
    Mem.wf s.mem → check (.cbce true true) s = .ok →
    (o.src = o.dst ∨ disjoint o.src.toNat n o.dst.toNat n) →
    disjoint o.keyp.toNat 16 o.dst.toNat n → disjoint o.ivp.toNat 16 o.dst.toNat n →
    s.has dst n → (dst = o.dst ∨ disjoint o.dst.toNat n dst.toNat n) →
      ∃ t u : State, exec (.cbce true true) s = .next t ∧
        exec (.cbcd true true) { t with ops := { o with src := o.dst, dst := dst } } = .next u ∧ u.err = .ok ∧
        u.memRead dst.toNat n = s.memRead o.src.toNat n

/-- R186: with a wrong IV only the first recovered block differs: it is the plaintext XOR the IV XOR the wrong IV. -/
def Obligations.WrongIvAltersOnlyFirstBlock : Prop :=
  ∀ (rk : Vector Word 32) (iv iv' p : List Byte) (ps : List (List Byte)),
    iv.length = 16 → iv'.length = 16 → p.length = 16 → (∀ q ∈ ps, q.length = 16) →
      cbcDecrypt rk iv' (cbcEncrypt rk iv (p :: ps)) = xorBytes (xorBytes p iv) iv' :: ps

/-- R185: CBCE over the first n1 bytes and then CBCE with IVL = 0 and KX = 0 over the rest leaves the same MEM and the same
cipher context as one CBCE over all of them; the same for CBCD. -/
def Obligations.ContinuationEqualsOneCommand : Prop :=
  ∀ (s : State) (ivl kx : Bool) (n1 : Word) (enc : Bool),
    let o := s.ops
    let first : Instr := if enc then .cbce ivl kx else .cbcd ivl kx
    let next : Instr := if enc then .cbce false false else .cbcd false false
    s.cfg.wf = true → check first s = .ok → n1.toNat % 16 = 0 → n1.toNat ≤ o.len.toNat →
      ∃ t t1 t2 : State, exec first s = .next t ∧ exec first { s with ops := { o with len := n1 } } = .next t1 ∧
        exec next { t1 with ops := { o with src := o.src + n1, dst := o.dst + n1, len := o.len - n1 } } = .next t2 ∧
        t2.mem = t.mem ∧ t2.cipher = t.cipher ∧ t2.err = .ok

/-! ## Frames -/

/-- R30, R33, R35, R36: no command writes an operand CSR or CMD, and none touches the parameters or the model's own fields
(the words that run no command at all do not either, by FailedCommandHasExactlyTwoEffects). -/
def Obligations.CommandsKeepOperandsAndCmd : Prop :=
  ∀ (i : Instr) (s t : State), exec i s = .next t →
    t.ops = s.ops ∧ t.cmd = s.cmd ∧ t.cfg = s.cfg ∧ t.inputs = s.inputs ∧ t.resp = s.resp ∧
    t.powerUps = s.powerUps ∧ t.draws = s.draws

/-- R96, R139: a command that runs changes no byte of MEM outside its write region: 32 bytes at DST for HFIN, HASH and
HMAC, 16 for BENC and BDEC, LEN for CBCE and CBCD, none for the others; and one whose check fails changes none at all. -/
def Obligations.MemoryOutsideWriteRegionKept : Prop :=
  ∀ (i : Instr) (s t : State) (a : Nat),
    let d := s.ops.dst.toNat
    Mem.wf s.mem → exec i s = .next t →
    (match i with
     | .nop | .hinit | .hcomp | .hupd | .kexp => True
     | .hfin | .hash | .hmac => ¬ (d ≤ a ∧ a < d + 32)
     | .benc _ | .bdec _ => ¬ (d ≤ a ∧ a < d + 16)
     | .cbce _ _ | .cbcd _ _ => ¬ (d ≤ a ∧ a < d + s.ops.len.toNat)) ∨ check i s ≠ .ok →
      t.memByte a = s.memByte a

/-- R96: the hash commands and NOP do not touch the cipher context; NOP does not touch the hash context; HCOMP changes
only HS of it; HUPD keeps HACT. -/
def Obligations.HashCommandsKeepCipherContext : Prop :=
  ∀ (s t : State),
    (∀ i ∈ [Instr.nop, .hinit, .hcomp, .hupd, .hfin, .hash, .hmac], exec i s = .next t → t.cipher = s.cipher) ∧
    (exec .nop s = .next t → t.hash = s.hash) ∧
    (exec .hcomp s = .next t → t.hash.hbuf = s.hash.hbuf ∧ t.hash.hcnt = s.hash.hcnt ∧ t.hash.hlen = s.hash.hlen ∧
      t.hash.hact = s.hash.hact) ∧
    (exec .hupd s = .next t → t.hash.hact = s.hash.hact)

/-- R96, D24: the cipher commands do not touch the hash context; without KX they keep RK and KVALID; KEXP,
BENC and BDEC keep CR. -/
def Obligations.CipherCommandsKeepHashContext : Prop :=
  ∀ (s t : State) (ivl kx : Bool),
    (∀ i ∈ [Instr.kexp, .benc kx, .bdec kx, .cbce ivl kx, .cbcd ivl kx], exec i s = .next t → t.hash = s.hash) ∧
    (∀ i ∈ [Instr.benc false, .bdec false, .cbce ivl false, .cbcd ivl false], exec i s = .next t →
      t.cipher.rk = s.cipher.rk ∧ t.cipher.kvalid = s.cipher.kvalid) ∧
    (∀ i ∈ [Instr.kexp, .benc kx, .bdec kx], exec i s = .next t → t.cipher.cr = s.cipher.cr)

/-- R80: HINIT, HCOMP, HUPD, KEXP and NOP write nothing to MEM; and what HINIT and NOP do does not depend on MEM. -/
def Obligations.ReadOnlyCommandsWriteNoMemory : Prop :=
  (∀ i ∈ [Instr.hinit, .hcomp, .hupd, .kexp, .nop], ∀ s t : State, exec i s = .next t → t.mem = s.mem) ∧
  (∀ i ∈ [Instr.hinit, .nop], ∀ (s t : State) (m : List Host.Cell) (p : Nat), exec i s = .next t →
    exec i { s with mem := m, powerUps := p } = .next { t with mem := m, powerUps := p })

/-! ## Rules of the whole machine -/

/-- From every state that meets the invariant, a step gives a state that meets it: MEM keeps its canonical form and lists
only addresses that exist (R70), HLEN stays at most HLEN_MAX and HCNT its remainder (R40, R41), a closed stream is empty
(R136), and RK is the schedule of some key once KVALID is 1 (R43, R44). -/
def Obligations.StepKeepsInvariant : Prop :=
  ∀ (s t : State), s.Inv → step s = .next t → t.Inv

/-- The invariant holds right after reset. -/
def Obligations.ResetStateMeetsInvariant : Prop := State.reset.Inv

/-- R33: CMD holds the last command word the host wrote, even a failed one, and nothing else changes it but a reset; a
read returns it. -/
def Obligations.CmdHoldsLastWordWritten : Prop :=
  ∀ (s t : State) (x : Input) (rest : List Input), s.inputs = x :: rest → step s = .next t →
    (∀ w, x = .csrWrite s.cfg.csrBase 4 w → t.cmd = w) ∧
    ((∀ w, x ≠ .csrWrite s.cfg.csrBase 4 w) → x.isReset = false → t.cmd = s.cmd) ∧
    Csr.cmd.read t = t.cmd

/-- R38: HACT is 1 from a successful HINIT until the next successful HFIN; HUPD and HFIN need it 1, HASH and HMAC need it 0
and leave it 0; reset clears it and no host access changes it directly. -/
def Obligations.HactSetByHinitClearedByHfin : Prop :=
  (∀ s t : State, exec .hinit s = .next t → t.hash.hact = true) ∧
  (∀ s t : State, exec .hfin s = .next t → (check .hfin s = .ok → t.hash.hact = false) ∧
    (check .hfin s ≠ .ok → t.hash.hact = s.hash.hact)) ∧
  (∀ (i : Instr) (s t : State), i ≠ .hinit → i ≠ .hfin → exec i s = .next t → t.hash.hact = s.hash.hact) ∧
  (∀ s : State, s.hash.hact = false → exec .hupd s = .next { s with err := .noCtx } ∧
    exec .hfin s = .next { s with err := .noCtx }) ∧
  (∀ s : State, s.hash.hact = true → exec .hash s = .next { s with err := .ctxBusy } ∧
    exec .hmac s = .next { s with err := .ctxBusy }) ∧
  (∀ (s t : State) (x : Input) (rest : List Input), s.inputs = x :: rest →
    (∀ w, x ≠ .csrWrite s.cfg.csrBase 4 w) → step s = .next t →
    t.hash.hact = if x.isReset then false else s.hash.hact)

/-- R44: KVALID is 0 at reset and becomes 1 when KEXP or a command with KX = 1 succeeds, and nothing else but a reset
changes it; BENC, BDEC, CBCE and CBCD with KX = 0 need it, otherwise they end with NO_KEY. -/
def Obligations.KvalidSetOnlyByExpansion : Prop :=
  State.reset.cipher.kvalid = false ∧
  (∀ (s t : State) (x : Input) (rest : List Input), s.inputs = x :: rest → step s = .next t →
    let expands := ∃ w i, x = .csrWrite s.cfg.csrBase 4 w ∧ decode w = .ok i ∧ expandsKey i = true ∧ check i s = .ok
    (x.isReset = true → t.cipher.kvalid = false) ∧
    (expands → t.cipher.kvalid = true) ∧
    (x.isReset = false → ¬ expands → t.cipher.kvalid = s.cipher.kvalid)) ∧
  (∀ (s : State) (ivl : Bool), s.cipher.kvalid = false →
    ∀ i ∈ [Instr.benc false, .bdec false, .cbce ivl false, .cbcd ivl false], exec i s = .next { s with err := .noKey })

/-- R43, R165: RK is written only by a successful KEXP or a successful command with KX = 1, as a whole, with the schedule
of the 16 bytes at KEYP; every other step but a reset keeps it, a change of the key bytes in MEM included. -/
def Obligations.RkWrittenOnlyByExpansion : Prop :=
  ∀ (s t : State) (x : Input) (rest : List Input), s.inputs = x :: rest → step s = .next t → x.isReset = false →
    let expands := ∃ w i, x = .csrWrite s.cfg.csrBase 4 w ∧ decode w = .ok i ∧ expandsKey i = true ∧ check i s = .ok
    (expands → t.cipher.rk = expandKey (s.memRead s.ops.keyp.toNat 16)) ∧
    (¬ expands → t.cipher.rk = s.cipher.rk)

/-! ## Host access (10_state.md, 46_host_access.md) -/

/-- R32: the offset of every register, each element of the arrays included; the register found at an aligned offset is the
one whose offset it is, so no two registers share one. -/
def Obligations.CsrOffsetsAreUnambiguous : Prop :=
  ([Csr.cmd, .status, .src, .dst, .len, .keyp, .klen, .ivp, .hcnt, .hlenLo, .hlenHi].map Csr.offset =
    [0x000, 0x004, 0x008, 0x00C, 0x010, 0x014, 0x018, 0x01C, 0x050, 0x054, 0x058]) ∧
  (∀ i : Fin 8, (Csr.hs i).offset = 0x020 + 4 * i.val) ∧
  (∀ i : Fin 4, (Csr.cr i).offset = 0x040 + 4 * i.val) ∧
  (∀ i : Fin 16, (Csr.hbuf i).offset = 0x060 + 4 * i.val) ∧
  (∀ i : Fin 32, (Csr.rk i).offset = 0x100 + 4 * i.val) ∧
  (∀ r : Csr, Csr.ofOffset r.offset = some r ∧ r.offset % 4 = 0 ∧ r.offset < 4096) ∧
  (∀ (o : Nat) (r : Csr), o % 4 = 0 → Csr.ofOffset o = some r → r.offset = o)

/-- R33 to R37, R39 to R43, R76, R200: what every register reads: CMD and the operand CSRs their words; STATUS is
ERR + 2^8·HACT + 2^9·KVALID, so its upper bits read 0, and ERR is the code of R200, 0x00 to 0x07; HCNT the count; HLEN_HI and HLEN_LO the halves of HLEN; HBUF word i is
bytes 4i to 4i + 3, byte 4i uppermost; HS[i], CR[i] and RK[i] are the words of the hash and the cipher context. -/
def Obligations.StatusAndStreamRegistersRead : Prop :=
  Err.ok.code = 0x00 ∧ Err.illegal.code = 0x01 ∧ Err.range.code = 0x02 ∧ Err.noKey.code = 0x03 ∧ Err.noCtx.code = 0x04 ∧
  Err.ctxBusy.code = 0x05 ∧ Err.lenAlign.code = 0x06 ∧ Err.lenOvf.code = 0x07 ∧
  ∀ s : State,
    (Csr.status.read s).toNat = s.err.code.toNat + 256 * s.hash.hact.toNat + 512 * s.cipher.kvalid.toNat ∧
    (Csr.hcnt.read s).toNat = s.hash.hcnt.val ∧
    s.hash.hlen.toNat = (Csr.hlenHi.read s).toNat * 2 ^ 32 + (Csr.hlenLo.read s).toNat ∧
    (∀ i : Fin 16, (Csr.hbuf i).read s = s.hash.hbuf[4 * i.val] ++ s.hash.hbuf[4 * i.val + 1] ++
      s.hash.hbuf[4 * i.val + 2] ++ s.hash.hbuf[4 * i.val + 3]) ∧
    (∀ i : Fin 8, (Csr.hs i).read s = s.hash.hs[i]) ∧
    (∀ i : Fin 4, (Csr.cr i).read s = s.cipher.cr[i]) ∧
    (∀ i : Fin 32, (Csr.rk i).read s = s.cipher.rk[i]) ∧
    [Csr.cmd, .src, .dst, .len, .keyp, .klen, .ivp].map (fun r => r.read s) =
      [s.cmd, s.ops.src, s.ops.dst, s.ops.len, s.ops.keyp, s.ops.klen, s.ops.ivp]

/-- R191: an aligned word read returns the register's value, or 0 at a reserved offset, and changes nothing but the answer
the host got. -/
def Obligations.CsrReadHasNoSideEffect : Prop :=
  ∀ (s : State) (rest : List Input) (o : Nat), o < 4096 → o % 4 = 0 →
    s.inputs = .csrRead (s.cfg.csrBase + o) 4 :: rest →
      ∃ v : Word, step s = .next { s with inputs := rest, resp := .word v } ∧
        (∀ r : Csr, r.offset = o → v = r.read s) ∧ ((∀ r : Csr, r.offset ≠ o) → v = 0)

/-- R45: the reserved offsets are 0x05C, 0x0A0 to 0x0FC and 0x180 to 0xFFC; a read of one returns 0 and a write is ignored,
with no other effect. -/
def Obligations.ReservedOffsetsReadZeroIgnoreWrites : Prop :=
  ∀ (o : Nat), o < 4096 → o % 4 = 0 →
    ((∀ r : Csr, r.offset ≠ o) ↔ o = 0x05C ∨ (0x0A0 ≤ o ∧ o ≤ 0x0FC) ∨ (0x180 ≤ o ∧ o ≤ 0xFFC)) ∧
    ((∀ r : Csr, r.offset ≠ o) → ∀ (s : State) (rest : List Input) (v : Word),
      (s.inputs = .csrRead (s.cfg.csrBase + o) 4 :: rest →
        step s = .next { s with inputs := rest, resp := .word 0 }) ∧
      (s.inputs = .csrWrite (s.cfg.csrBase + o) 4 v :: rest →
        step s = .next { s with inputs := rest, resp := .accepted }))

/-- R192: a write to a RW register other than CMD sets that register and changes nothing else: every other register reads
as before, STATUS with HACT among them, and MEM is unchanged. -/
def Obligations.HostWriteSetsOneRegister : Prop :=
  ∀ (s : State) (rest : List Input) (r : Csr) (v : Word),
    (r ∈ [Csr.src, .dst, .len, .keyp, .klen, .ivp] ∨ (∃ i, r = .hs i) ∨ (∃ i, r = .cr i)) →
    s.inputs = .csrWrite (s.cfg.csrBase + r.offset) 4 v :: rest →
      ∃ t : State, step s = .next t ∧ r.read t = v ∧ (∀ r' : Csr, r' ≠ r → r'.read t = r'.read s) ∧
        t.mem = s.mem ∧ t.powerUps = s.powerUps ∧ t.draws = s.draws ∧ t.cfg = s.cfg ∧ t.inputs = rest

/-- R193: a write to a RO register or to a reserved offset is ignored: no state changes and no error is reported. -/
def Obligations.HostWriteToReadOnlyIgnored : Prop :=
  ∀ (s : State) (rest : List Input) (o : Nat) (v : Word), o < 4096 → o % 4 = 0 →
    ((∃ r : Csr, r.offset = o ∧ (r ∈ [Csr.status, .hcnt, .hlenLo, .hlenHi] ∨ (∃ i, r = .hbuf i) ∨ (∃ i, r = .rk i))) ∨
      (∀ r : Csr, r.offset ≠ o)) →
    s.inputs = .csrWrite (s.cfg.csrBase + o) 4 v :: rest →
      step s = .next { s with inputs := rest, resp := .accepted }

/-- R194: an access to the window that is not a 32-bit access at a multiple of 4 gets the bus's error response, changes
nothing, and as a read returns 0. -/
def Obligations.MalformedCsrAccessHasNoEffect : Prop :=
  ∀ (s : State) (rest : List Input) (o size : Nat) (v : Word), o < 4096 → (size ≠ 4 ∨ o % 4 ≠ 0) →
    (s.inputs = .csrRead (s.cfg.csrBase + o) size :: rest →
      step s = .next { s with inputs := rest, resp := .busError 0 }) ∧
    (s.inputs = .csrWrite (s.cfg.csrBase + o) size v :: rest →
      step s = .next { s with inputs := rest, resp := .busError 0 })

/-- R72, R195: a host read of MEM returns the bytes there and has no side effect: nothing but the answer changes; a host
write stores its bytes, every other byte reads as before, and no register changes; so a read after a write returns the bytes
written, and elsewhere those that were there. An access of no bytes is in range at any address. -/
def Obligations.HostReadSeesHostWrite : Prop :=
  ∀ (s : State), Mem.wf s.mem →
    (∀ (p n : Nat) (rest : List Input), s.inputs = .memRead p n :: rest → (n = 0 ∨ p + n ≤ s.cfg.memBytes) →
      ∃ out : List Byte, step s = .next { s with inputs := rest, resp := .bytes out } ∧ out.length = n ∧
        (∀ k, k < n → out[k]? = some (s.memByte (p + k)))) ∧
    (∀ (a : Nat) (bs : List Byte) (rest : List Input), s.inputs = .memWrite a bs :: rest →
      (bs = [] ∨ a + bs.length ≤ s.cfg.memBytes) →
      ∃ t : State, step s = .next t ∧
        t = { s with inputs := rest, resp := .accepted, mem := Mem.writeBytes s.mem a bs } ∧
        (∀ k, k < bs.length → bs[k]? = some (t.memByte (a + k))) ∧
        (∀ x, ¬ (a ≤ x ∧ x < a + bs.length) → t.memByte x = s.memByte x)) ∧
    (∀ (a p n : Nat) (bs : List Byte) (rest : List Input), s.inputs = .memWrite a bs :: .memRead p n :: rest →
      (bs = [] ∨ a + bs.length ≤ s.cfg.memBytes) → (n = 0 ∨ p + n ≤ s.cfg.memBytes) →
      ∃ (t : State) (out : List Byte), Host.Core.run Sys2Proof.core 2 s = .next t ∧ t.resp = .bytes out ∧ out.length = n ∧
        (∀ k, k < n → out[k]? =
          if a ≤ p + k ∧ p + k < a + bs.length then bs[p + k - a]? else some (s.memByte (p + k))))

/-! ## Reset (70_reset_and_hazards.md) -/

/-- R230: at reset every register reads 0; HBUF is zero bytes, HLEN is 0, HACT and KVALID are 0 and HS is 0, not IV; so a
cipher command with KX = 0 ends with NO_KEY. That holds of every reset the platform gives (R231): between host steps, while a
command runs and at power-up; and of the state the machine starts from. A reset between host steps leaves MEM as it is
(R232). -/
def Obligations.ResetClearsEveryRegister : Prop :=
  (∀ r : Csr, r.read State.reset = 0) ∧
  ∀ (s : State) (x : Input) (rest : List Input), s.inputs = x :: rest →
    x = .reset ∨ x = .powerUp ∨ (∃ w, x = .resetDuring w) →
    ∃ t : State, step s = .next t ∧ (∀ r : Csr, r.read t = 0) ∧
      t.hash = { hs := Vector.replicate 8 0, hbuf := Vector.replicate 64 0, hcnt := 0, hlen := 0, hact := false } ∧
      t.cipher = { rk := Vector.replicate 32 0, kvalid := false, cr := Vector.replicate 4 0 } ∧ t.err = .ok ∧
      (∀ ivl : Bool, ∀ i ∈ [Instr.benc false, .bdec false, .cbce ivl false, .cbcd ivl false], check i t = .noKey) ∧
      t.cfg = s.cfg ∧ t.inputs = rest ∧ (x = .reset → t.mem = s.mem ∧ t.powerUps = s.powerUps)

/-- R231: a reset while a command runs gives every register its reset value and changes no byte of MEM outside the command's
write regions. The model's choice (log entry 8): a word that is ILLEGAL or whose check fails has written nothing when the
reset arrives, deduced from R202, so the reset then changes no byte of MEM at all. -/
def Obligations.ResetDuringCommandSparesOtherMemory : Prop :=
  ∀ (s : State) (w : Word) (rest : List Input), Mem.wf s.mem → s.inputs = .resetDuring w :: rest →
    ∃ t : State, step s = .next t ∧ (∀ r : Csr, r.read t = 0) ∧
      (∀ a, (∀ i, decode w = .ok i → check i s = .ok → storesTo i s.ops a = false) → t.memByte a = s.memByte a) ∧
      (checkWord w s ≠ .ok → t.mem = s.mem)
end

