-- ==== Sys2Proof/Laws/State.lean ====
section
/-! SUPPORT. Sys2Proof/Laws/State.lean: each field of the state after each update, true by rfl, so that no proof unfolds a
record update. -/

namespace Sys2Proof.Machine

variable (s : State)

section setCmd
variable (w : Word)

@[simp] theorem State.setCmd_cfg : (s.setCmd w).cfg = s.cfg := rfl
@[simp] theorem State.setCmd_cmd : (s.setCmd w).cmd = w := rfl
@[simp] theorem State.setCmd_err : (s.setCmd w).err = s.err := rfl
@[simp] theorem State.setCmd_ops : (s.setCmd w).ops = s.ops := rfl
@[simp] theorem State.setCmd_hash : (s.setCmd w).hash = s.hash := rfl
@[simp] theorem State.setCmd_cipher : (s.setCmd w).cipher = s.cipher := rfl
@[simp] theorem State.setCmd_mem : (s.setCmd w).mem = s.mem := rfl
@[simp] theorem State.setCmd_powerUps : (s.setCmd w).powerUps = s.powerUps := rfl
@[simp] theorem State.setCmd_draws : (s.setCmd w).draws = s.draws := rfl
@[simp] theorem State.setCmd_inputs : (s.setCmd w).inputs = s.inputs := rfl
@[simp] theorem State.setCmd_resp : (s.setCmd w).resp = s.resp := rfl

end setCmd

section setErr
variable (e : Err)

@[simp] theorem State.setErr_cfg : (s.setErr e).cfg = s.cfg := rfl
@[simp] theorem State.setErr_cmd : (s.setErr e).cmd = s.cmd := rfl
@[simp] theorem State.setErr_err : (s.setErr e).err = e := rfl
@[simp] theorem State.setErr_ops : (s.setErr e).ops = s.ops := rfl
@[simp] theorem State.setErr_hash : (s.setErr e).hash = s.hash := rfl
@[simp] theorem State.setErr_cipher : (s.setErr e).cipher = s.cipher := rfl
@[simp] theorem State.setErr_mem : (s.setErr e).mem = s.mem := rfl
@[simp] theorem State.setErr_powerUps : (s.setErr e).powerUps = s.powerUps := rfl
@[simp] theorem State.setErr_draws : (s.setErr e).draws = s.draws := rfl
@[simp] theorem State.setErr_inputs : (s.setErr e).inputs = s.inputs := rfl
@[simp] theorem State.setErr_resp : (s.setErr e).resp = s.resp := rfl

end setErr

section setOps
variable (o : Operands)

@[simp] theorem State.setOps_cfg : (s.setOps o).cfg = s.cfg := rfl
@[simp] theorem State.setOps_cmd : (s.setOps o).cmd = s.cmd := rfl
@[simp] theorem State.setOps_err : (s.setOps o).err = s.err := rfl
@[simp] theorem State.setOps_ops : (s.setOps o).ops = o := rfl
@[simp] theorem State.setOps_hash : (s.setOps o).hash = s.hash := rfl
@[simp] theorem State.setOps_cipher : (s.setOps o).cipher = s.cipher := rfl
@[simp] theorem State.setOps_mem : (s.setOps o).mem = s.mem := rfl
@[simp] theorem State.setOps_powerUps : (s.setOps o).powerUps = s.powerUps := rfl
@[simp] theorem State.setOps_draws : (s.setOps o).draws = s.draws := rfl
@[simp] theorem State.setOps_inputs : (s.setOps o).inputs = s.inputs := rfl
@[simp] theorem State.setOps_resp : (s.setOps o).resp = s.resp := rfl

end setOps

section setHash
variable (h : HashCtx)

@[simp] theorem State.setHash_cfg : (s.setHash h).cfg = s.cfg := rfl
@[simp] theorem State.setHash_cmd : (s.setHash h).cmd = s.cmd := rfl
@[simp] theorem State.setHash_err : (s.setHash h).err = s.err := rfl
@[simp] theorem State.setHash_ops : (s.setHash h).ops = s.ops := rfl
@[simp] theorem State.setHash_hash : (s.setHash h).hash = h := rfl
@[simp] theorem State.setHash_cipher : (s.setHash h).cipher = s.cipher := rfl
@[simp] theorem State.setHash_mem : (s.setHash h).mem = s.mem := rfl
@[simp] theorem State.setHash_powerUps : (s.setHash h).powerUps = s.powerUps := rfl
@[simp] theorem State.setHash_draws : (s.setHash h).draws = s.draws := rfl
@[simp] theorem State.setHash_inputs : (s.setHash h).inputs = s.inputs := rfl
@[simp] theorem State.setHash_resp : (s.setHash h).resp = s.resp := rfl

end setHash

section setCipher
variable (c : CipherCtx)

@[simp] theorem State.setCipher_cfg : (s.setCipher c).cfg = s.cfg := rfl
@[simp] theorem State.setCipher_cmd : (s.setCipher c).cmd = s.cmd := rfl
@[simp] theorem State.setCipher_err : (s.setCipher c).err = s.err := rfl
@[simp] theorem State.setCipher_ops : (s.setCipher c).ops = s.ops := rfl
@[simp] theorem State.setCipher_hash : (s.setCipher c).hash = s.hash := rfl
@[simp] theorem State.setCipher_cipher : (s.setCipher c).cipher = c := rfl
@[simp] theorem State.setCipher_mem : (s.setCipher c).mem = s.mem := rfl
@[simp] theorem State.setCipher_powerUps : (s.setCipher c).powerUps = s.powerUps := rfl
@[simp] theorem State.setCipher_draws : (s.setCipher c).draws = s.draws := rfl
@[simp] theorem State.setCipher_inputs : (s.setCipher c).inputs = s.inputs := rfl
@[simp] theorem State.setCipher_resp : (s.setCipher c).resp = s.resp := rfl

end setCipher

section setMem
variable (m : List Host.Cell)

@[simp] theorem State.setMem_cfg : (s.setMem m).cfg = s.cfg := rfl
@[simp] theorem State.setMem_cmd : (s.setMem m).cmd = s.cmd := rfl
@[simp] theorem State.setMem_err : (s.setMem m).err = s.err := rfl
@[simp] theorem State.setMem_ops : (s.setMem m).ops = s.ops := rfl
@[simp] theorem State.setMem_hash : (s.setMem m).hash = s.hash := rfl
@[simp] theorem State.setMem_cipher : (s.setMem m).cipher = s.cipher := rfl
@[simp] theorem State.setMem_mem : (s.setMem m).mem = m := rfl
@[simp] theorem State.setMem_powerUps : (s.setMem m).powerUps = s.powerUps := rfl
@[simp] theorem State.setMem_draws : (s.setMem m).draws = s.draws := rfl
@[simp] theorem State.setMem_inputs : (s.setMem m).inputs = s.inputs := rfl
@[simp] theorem State.setMem_resp : (s.setMem m).resp = s.resp := rfl

end setMem

section setInputs
variable (l : List Input)

@[simp] theorem State.setInputs_cfg : (s.setInputs l).cfg = s.cfg := rfl
@[simp] theorem State.setInputs_cmd : (s.setInputs l).cmd = s.cmd := rfl
@[simp] theorem State.setInputs_err : (s.setInputs l).err = s.err := rfl
@[simp] theorem State.setInputs_ops : (s.setInputs l).ops = s.ops := rfl
@[simp] theorem State.setInputs_hash : (s.setInputs l).hash = s.hash := rfl
@[simp] theorem State.setInputs_cipher : (s.setInputs l).cipher = s.cipher := rfl
@[simp] theorem State.setInputs_mem : (s.setInputs l).mem = s.mem := rfl
@[simp] theorem State.setInputs_powerUps : (s.setInputs l).powerUps = s.powerUps := rfl
@[simp] theorem State.setInputs_draws : (s.setInputs l).draws = s.draws := rfl
@[simp] theorem State.setInputs_inputs : (s.setInputs l).inputs = l := rfl
@[simp] theorem State.setInputs_resp : (s.setInputs l).resp = s.resp := rfl

end setInputs

section setResp
variable (r : Response)

@[simp] theorem State.setResp_cfg : (s.setResp r).cfg = s.cfg := rfl
@[simp] theorem State.setResp_cmd : (s.setResp r).cmd = s.cmd := rfl
@[simp] theorem State.setResp_err : (s.setResp r).err = s.err := rfl
@[simp] theorem State.setResp_ops : (s.setResp r).ops = s.ops := rfl
@[simp] theorem State.setResp_hash : (s.setResp r).hash = s.hash := rfl
@[simp] theorem State.setResp_cipher : (s.setResp r).cipher = s.cipher := rfl
@[simp] theorem State.setResp_mem : (s.setResp r).mem = s.mem := rfl
@[simp] theorem State.setResp_powerUps : (s.setResp r).powerUps = s.powerUps := rfl
@[simp] theorem State.setResp_draws : (s.setResp r).draws = s.draws := rfl
@[simp] theorem State.setResp_inputs : (s.setResp r).inputs = s.inputs := rfl
@[simp] theorem State.setResp_resp : (s.setResp r).resp = r := rfl

end setResp

@[simp] theorem reportError_cfg (e : Err) : (reportError e s).cfg = s.cfg := rfl
@[simp] theorem reportError_cmd (e : Err) : (reportError e s).cmd = s.cmd := rfl
@[simp] theorem reportError_err (e : Err) : (reportError e s).err = e := rfl
@[simp] theorem reportError_ops (e : Err) : (reportError e s).ops = s.ops := rfl
@[simp] theorem reportError_hash (e : Err) : (reportError e s).hash = s.hash := rfl
@[simp] theorem reportError_cipher (e : Err) : (reportError e s).cipher = s.cipher := rfl
@[simp] theorem reportError_mem (e : Err) : (reportError e s).mem = s.mem := rfl
@[simp] theorem reportError_powerUps (e : Err) : (reportError e s).powerUps = s.powerUps := rfl
@[simp] theorem reportError_draws (e : Err) : (reportError e s).draws = s.draws := rfl
@[simp] theorem reportError_inputs (e : Err) : (reportError e s).inputs = s.inputs := rfl
@[simp] theorem reportError_resp (e : Err) : (reportError e s).resp = s.resp := rfl

@[simp] theorem complete_cfg : (complete s).cfg = s.cfg := rfl
@[simp] theorem complete_cmd : (complete s).cmd = s.cmd := rfl
@[simp] theorem complete_err : (complete s).err = .ok := rfl
@[simp] theorem complete_ops : (complete s).ops = s.ops := rfl
@[simp] theorem complete_hash : (complete s).hash = s.hash := rfl
@[simp] theorem complete_cipher : (complete s).cipher = s.cipher := rfl
@[simp] theorem complete_mem : (complete s).mem = s.mem := rfl
@[simp] theorem complete_powerUps : (complete s).powerUps = s.powerUps := rfl
@[simp] theorem complete_draws : (complete s).draws = s.draws := rfl
@[simp] theorem complete_inputs : (complete s).inputs = s.inputs := rfl
@[simp] theorem complete_resp : (complete s).resp = s.resp := rfl

@[simp] theorem State.memWrite_cfg (a : Nat) (bs : List Byte) : (s.memWrite a bs).cfg = s.cfg := rfl
@[simp] theorem State.memWrite_cmd (a : Nat) (bs : List Byte) : (s.memWrite a bs).cmd = s.cmd := rfl
@[simp] theorem State.memWrite_err (a : Nat) (bs : List Byte) : (s.memWrite a bs).err = s.err := rfl
@[simp] theorem State.memWrite_ops (a : Nat) (bs : List Byte) : (s.memWrite a bs).ops = s.ops := rfl
@[simp] theorem State.memWrite_hash (a : Nat) (bs : List Byte) : (s.memWrite a bs).hash = s.hash := rfl
@[simp] theorem State.memWrite_cipher (a : Nat) (bs : List Byte) : (s.memWrite a bs).cipher = s.cipher := rfl
@[simp] theorem State.memWrite_mem (a : Nat) (bs : List Byte) :
    (s.memWrite a bs).mem = Mem.writeBytes s.mem a bs := rfl
@[simp] theorem State.memWrite_powerUps (a : Nat) (bs : List Byte) : (s.memWrite a bs).powerUps = s.powerUps := rfl
@[simp] theorem State.memWrite_draws (a : Nat) (bs : List Byte) : (s.memWrite a bs).draws = s.draws := rfl
@[simp] theorem State.memWrite_inputs (a : Nat) (bs : List Byte) : (s.memWrite a bs).inputs = s.inputs := rfl
@[simp] theorem State.memWrite_resp (a : Nat) (bs : List Byte) : (s.memWrite a bs).resp = s.resp := rfl

@[simp] theorem State.resetRegisters_cfg : s.resetRegisters.cfg = s.cfg := rfl
@[simp] theorem State.resetRegisters_cmd : s.resetRegisters.cmd = 0 := rfl
@[simp] theorem State.resetRegisters_err : s.resetRegisters.err = .ok := rfl
@[simp] theorem State.resetRegisters_ops : s.resetRegisters.ops = Operands.reset := rfl
@[simp] theorem State.resetRegisters_hash : s.resetRegisters.hash = HashCtx.reset := rfl
@[simp] theorem State.resetRegisters_cipher : s.resetRegisters.cipher = CipherCtx.reset := rfl
@[simp] theorem State.resetRegisters_mem : s.resetRegisters.mem = s.mem := rfl
@[simp] theorem State.resetRegisters_powerUps : s.resetRegisters.powerUps = s.powerUps := rfl
@[simp] theorem State.resetRegisters_draws : s.resetRegisters.draws = s.draws := rfl
@[simp] theorem State.resetRegisters_inputs : s.resetRegisters.inputs = s.inputs := rfl
@[simp] theorem State.resetRegisters_resp : s.resetRegisters.resp = s.resp := rfl

@[simp] theorem State.forgetMem_cfg : s.forgetMem.cfg = s.cfg := rfl
@[simp] theorem State.forgetMem_cmd : s.forgetMem.cmd = s.cmd := rfl
@[simp] theorem State.forgetMem_err : s.forgetMem.err = s.err := rfl
@[simp] theorem State.forgetMem_ops : s.forgetMem.ops = s.ops := rfl
@[simp] theorem State.forgetMem_hash : s.forgetMem.hash = s.hash := rfl
@[simp] theorem State.forgetMem_cipher : s.forgetMem.cipher = s.cipher := rfl
@[simp] theorem State.forgetMem_mem : s.forgetMem.mem = [] := rfl
@[simp] theorem State.forgetMem_powerUps : s.forgetMem.powerUps = s.powerUps + 1 := rfl
@[simp] theorem State.forgetMem_draws : s.forgetMem.draws = s.draws := rfl
@[simp] theorem State.forgetMem_inputs : s.forgetMem.inputs = s.inputs := rfl
@[simp] theorem State.forgetMem_resp : s.forgetMem.resp = s.resp := rfl

section issued
variable (w : Word) (rest : List Input)

@[simp] theorem State.issued_cfg : (s.issued w rest).cfg = s.cfg := rfl
@[simp] theorem State.issued_cmd : (s.issued w rest).cmd = w := rfl
@[simp] theorem State.issued_err : (s.issued w rest).err = s.err := rfl
@[simp] theorem State.issued_ops : (s.issued w rest).ops = s.ops := rfl
@[simp] theorem State.issued_hash : (s.issued w rest).hash = s.hash := rfl
@[simp] theorem State.issued_cipher : (s.issued w rest).cipher = s.cipher := rfl
@[simp] theorem State.issued_mem : (s.issued w rest).mem = s.mem := rfl
@[simp] theorem State.issued_powerUps : (s.issued w rest).powerUps = s.powerUps := rfl
@[simp] theorem State.issued_draws : (s.issued w rest).draws = s.draws := rfl
@[simp] theorem State.issued_inputs : (s.issued w rest).inputs = rest := rfl
@[simp] theorem State.issued_resp : (s.issued w rest).resp = .accepted := rfl

end issued

/-- A byte reads the same in two states whose memories and power-ups agree. -/
theorem State.memByte_congr {s t : State} (hm : t.mem = s.mem) (hp : t.powerUps = s.powerUps) (a : Nat) :
    t.memByte a = s.memByte a := by
  simp [State.memByte, hm, hp]

/-- A byte string reads the same in two states whose memories and power-ups agree. -/
theorem State.memRead_congr {s t : State} (hm : t.mem = s.mem) (hp : t.powerUps = s.powerUps) (a n : Nat) :
    t.memRead a n = s.memRead a n := by
  simp [State.memRead, State.memByte, hm, hp]

end Sys2Proof.Machine
end

