-- ==== Sys2Proof/Laws/Memory.lean ====
section
/-! SUPPORT. Sys2Proof/Laws/Memory.lean: reads after writes, and the canonical form (20_memory.md R70, R72). -/

namespace Sys2Proof.Machine

/-- What one byte written does to every address (R72). -/
theorem Mem.find_writeByte (m : List Host.Cell) (hm : Mem.wf m) (a : Nat) (b : Byte) (x : Nat) :
    Mem.find (Mem.writeByte m a b) x = if x = a then some b else Mem.find m x := by
  induction m with
  | nil => simp [Mem.writeByte, Mem.find, eq_comm]
  | cons c rest ih =>
    have hrest := ih (List.pairwise_cons.mp hm).2
    have hlt := (List.pairwise_cons.mp hm).1
    unfold Mem.writeByte
    split
    · by_cases hx : x = a
      · simp [Mem.find, hx]
      · simp [Mem.find, hx, Ne.symm hx]
    · split
      · subst a
        by_cases hx : x = c.1
        · simp [Mem.find, hx]
        · simp [Mem.find, hx, Ne.symm hx]
      · simp only [Mem.find]
        split
        · next h => simp [← h]; omega
        · exact hrest

/-- The addresses listed after a byte is written. -/
theorem Mem.mem_writeByte {m : List Host.Cell} {a : Nat} {b : Byte} {c : Host.Cell} (h : c ∈ Mem.writeByte m a b) :
    c.1 = a ∨ c ∈ m := by
  induction m with
  | nil => simp [Mem.writeByte] at h; simp [h]
  | cons d rest ih =>
    unfold Mem.writeByte at h
    split at h
    · simp only [List.mem_cons] at h ⊢; aesop
    · split at h
      · simp only [List.mem_cons] at h ⊢; aesop
      · simp only [List.mem_cons] at h ⊢
        rcases h with h | h
        · exact .inr (.inl h)
        · exact (ih h).imp id .inr

/-- Writing a byte keeps the canonical form. -/
theorem Mem.wf_writeByte {m : List Host.Cell} (hm : Mem.wf m) (a : Nat) (b : Byte) : Mem.wf (Mem.writeByte m a b) := by
  induction m with
  | nil => simp [Mem.writeByte]
  | cons c rest ih =>
    obtain ⟨hlt, hrest⟩ := List.pairwise_cons.mp hm
    unfold Mem.writeByte
    split
    · refine List.pairwise_cons.mpr ⟨fun d hd => ?_, hm⟩
      rcases List.mem_cons.mp hd with rfl | hd
      · assumption
      · have := hlt d hd; simp only; omega
    · split
      · subst a
        exact List.pairwise_cons.mpr ⟨hlt, hrest⟩
      · refine List.pairwise_cons.mpr ⟨fun d hd => ?_, ih hrest⟩
        rcases Mem.mem_writeByte hd with h | h
        · omega
        · exact hlt d h

/-- Writing a byte of MEM lists only addresses of MEM. -/
theorem Mem.below_writeByte {m : List Host.Cell} {n a : Nat} (hm : Mem.below m n) (ha : a < n) (b : Byte) :
    Mem.below (Mem.writeByte m a b) n := by
  intro c hc
  rcases Mem.mem_writeByte hc with h | h
  · omega
  · exact hm c h

/-- Writing a string keeps the canonical form. -/
theorem Mem.wf_writeBytes {m : List Host.Cell} (hm : Mem.wf m) (a : Nat) (bs : List Byte) :
    Mem.wf (Mem.writeBytes m a bs) := by
  induction bs generalizing m a with
  | nil => exact hm
  | cons b rest ih => exact ih (Mem.wf_writeByte hm a b) (a + 1)

/-- Writing a string inside MEM lists only addresses of MEM. -/
theorem Mem.below_writeBytes {m : List Host.Cell} {n : Nat} (hm : Mem.below m n) (a : Nat) (bs : List Byte)
    (h : bs.length = 0 ∨ a + bs.length ≤ n) : Mem.below (Mem.writeBytes m a bs) n := by
  induction bs generalizing m a with
  | nil => exact hm
  | cons b rest ih =>
    simp only [List.length_cons] at h
    exact ih (Mem.below_writeByte hm (by omega) b) (a + 1) (by omega)

/-- What a string written does to every address (R13, R72). -/
theorem Mem.find_writeBytes {m : List Host.Cell} (hm : Mem.wf m) (a : Nat) (bs : List Byte) (x : Nat) :
    Mem.find (Mem.writeBytes m a bs) x = if a ≤ x ∧ x < a + bs.length then bs[x - a]? else Mem.find m x := by
  induction bs generalizing m a with
  | nil => simp [Mem.writeBytes]
  | cons b rest ih =>
    rw [Mem.writeBytes, ih (Mem.wf_writeByte hm a b), Mem.find_writeByte m hm]
    by_cases h1 : a + 1 ≤ x ∧ x < a + 1 + rest.length
    · have h2 : a ≤ x ∧ x < a + (b :: rest).length := by simp; omega
      have h3 : x - a = (x - (a + 1)) + 1 := by omega
      simp [h1, h2.1, h3]; omega
    · by_cases h2 : x = a
      · subst h2; simp
      · have h3 : ¬ (a ≤ x ∧ x < a + (b :: rest).length) := by simp; omega
        rw [if_neg h1, if_neg h2, if_neg h3]

/-- A byte outside the stored ones reads as before. -/
theorem State.memByte_memWrite_of_not {s : State} (hs : Mem.wf s.mem) {a x : Nat} {bs : List Byte}
    (h : ¬ (a ≤ x ∧ x < a + bs.length)) : (s.memWrite a bs).memByte x = s.memByte x := by
  simp [State.memByte, Mem.find_writeBytes hs, h]

/-- A stored byte reads as stored. -/
theorem State.memByte_memWrite_at {s : State} (hs : Mem.wf s.mem) {a k : Nat} {bs : List Byte} (h : k < bs.length) :
    (s.memWrite a bs).memByte (a + k) = bs[k] := by
  simp [State.memByte, Mem.find_writeBytes hs, h]

@[simp] theorem State.length_memRead (s : State) (a n : Nat) : (s.memRead a n).length = n := by
  simp [State.memRead]

@[simp] theorem State.getElem_memRead (s : State) (a n k : Nat) (h : k < (s.memRead a n).length) :
    (s.memRead a n)[k] = s.memByte (a + k) := by
  simp [State.memRead]

/-- Reading back a string just written (R72). -/
theorem State.memRead_memWrite_same {s : State} (hs : Mem.wf s.mem) (a : Nat) (bs : List Byte) :
    (s.memWrite a bs).memRead a bs.length = bs := by
  apply List.ext_getElem (by simp)
  intro k h1 h2
  rw [State.getElem_memRead, State.memByte_memWrite_at hs h2]

/-- Reading a region that shares no address with the bytes written. -/
theorem State.memRead_memWrite_disjoint {s : State} (hs : Mem.wf s.mem) {a p n : Nat} {bs : List Byte}
    (h : a + bs.length ≤ p ∨ p + n ≤ a) : (s.memWrite a bs).memRead p n = s.memRead p n := by
  apply List.ext_getElem (by simp)
  intro k h1 h2
  simp only [State.length_memRead] at h1
  rw [State.getElem_memRead, State.getElem_memRead, State.memByte_memWrite_of_not hs]
  omega

/-- Reading two regions that follow each other. -/
theorem State.memRead_add (s : State) (a m n : Nat) : s.memRead a (m + n) = s.memRead a m ++ s.memRead (a + m) n := by
  simp [State.memRead, List.range_add, List.map_append, Function.comp_def, Nat.add_assoc]

end Sys2Proof.Machine
end

