-- ==== Sys2Proof/Laws/Command.lean ====
section
/-! SUPPORT. Sys2Proof/Laws/Command.lean: how every command ends (30_encoding.md R97), and what each effect leaves
unchanged. `effectOf` names the effect of each command once, so a proof about all commands is a case split over effects,
not over meanings. -/

namespace Sys2Proof.Machine

/-- The effect of each command, as its meaning passes it to `runCommand`. -/
def effectOf : Instr → State → State
  | .nop => fun t => t
  | .hinit => hinitEffect
  | .hcomp => hcompEffect
  | .hupd => hupdEffect
  | .hfin => hfinEffect
  | .hash => hashEffect
  | .hmac => hmacEffect
  | .kexp => State.loadKey
  | .benc kx => bencEffect kx
  | .bdec kx => bdecEffect kx
  | .cbce ivl kx => cbceEffect ivl kx
  | .cbcd ivl kx => cbcdEffect ivl kx

/-- Every meaning is its effect run as a command. -/
theorem exec_eq (i : Instr) (s : State) : exec i s = runCommand i (effectOf i) s := by
  cases i <;> rfl

/-- A command whose check passes has its effect. -/
theorem exec_of_check_ok {i : Instr} {s : State} (h : check i s = .ok) : exec i s = .next (complete (effectOf i s)) := by
  rw [exec_eq, runCommand, if_pos h]

/-- A command whose check fails records its code. -/
theorem exec_of_check_fails {i : Instr} {s : State} (h : check i s ≠ .ok) :
    exec i s = .next (reportError (check i s) s) := by
  rw [exec_eq, runCommand, if_neg h]

/-- Everything a command can do. -/
theorem exec_cases {i : Instr} {s t : State} (h : exec i s = .next t) :
    (check i s = .ok ∧ t = complete (effectOf i s)) ∨ (check i s ≠ .ok ∧ t = reportError (check i s) s) := by
  by_cases hc : check i s = .ok
  · rw [exec_of_check_ok hc] at h; cases h; exact .inl ⟨hc, rfl⟩
  · rw [exec_of_check_fails hc] at h; cases h; exact .inr ⟨hc, rfl⟩

/-- What no effect of a command touches. -/
structure SameOutside (s t : State) : Prop where
  cfg : t.cfg = s.cfg
  cmd : t.cmd = s.cmd
  ops : t.ops = s.ops
  powerUps : t.powerUps = s.powerUps
  draws : t.draws = s.draws
  inputs : t.inputs = s.inputs
  resp : t.resp = s.resp

theorem SameOutside.refl (s : State) : SameOutside s s := ⟨rfl, rfl, rfl, rfl, rfl, rfl, rfl⟩

theorem SameOutside.trans {s t u : State} (h : SameOutside s t) (k : SameOutside t u) : SameOutside s u :=
  ⟨k.cfg.trans h.cfg, k.cmd.trans h.cmd, k.ops.trans h.ops, k.powerUps.trans h.powerUps, k.draws.trans h.draws,
    k.inputs.trans h.inputs, k.resp.trans h.resp⟩

theorem SameOutside.setHash (s : State) (h : HashCtx) : SameOutside s (s.setHash h) := ⟨rfl, rfl, rfl, rfl, rfl, rfl, rfl⟩

theorem SameOutside.setCipher (s : State) (c : CipherCtx) : SameOutside s (s.setCipher c) :=
  ⟨rfl, rfl, rfl, rfl, rfl, rfl, rfl⟩

theorem SameOutside.memWrite (s : State) (a : Nat) (bs : List Byte) : SameOutside s (s.memWrite a bs) :=
  ⟨rfl, rfl, rfl, rfl, rfl, rfl, rfl⟩

theorem SameOutside.kxStep (kx : Bool) (s : State) : SameOutside s (s.kxStep kx) := by
  cases kx
  · exact .refl s
  · exact .setCipher s _

theorem SameOutside.ivStep (ivl : Bool) (s : State) : SameOutside s (s.ivStep ivl) := by
  cases ivl
  · exact .refl s
  · exact .setCipher s _

theorem SameOutside.cbceBlock (src dst : Nat) (s : State) : SameOutside s (s.cbceBlock src dst) :=
  (SameOutside.memWrite s dst _).trans (.setCipher _ _)

theorem SameOutside.cbcdBlock (src dst : Nat) (s : State) : SameOutside s (s.cbcdBlock src dst) :=
  (SameOutside.memWrite s dst _).trans (.setCipher _ _)

/-- A property that every block keeps, the loop keeps (R180, R181). -/
theorem chainBlocks_induct {block : Nat → Nat → State → State} {P : Nat → Nat → State → Prop}
    (hstep : ∀ src dst s, P src dst s → P (src + 16) (dst + 16) (block src dst s))
    (n src dst : Nat) (s : State) (h : P src dst s) :
    P (src + 16 * n) (dst + 16 * n) (State.chainBlocks block n src dst s) := by
  induction n generalizing src dst s with
  | zero => exact h
  | succ k ih =>
    have := ih (src + 16) (dst + 16) (block src dst s) (hstep src dst s h)
    rw [State.chainBlocks]
    convert this using 1 <;> omega

theorem SameOutside.chainBlocks {block : Nat → Nat → State → State}
    (hb : ∀ src dst s, SameOutside s (block src dst s)) (n src dst : Nat) (s : State) :
    SameOutside s (State.chainBlocks block n src dst s) :=
  chainBlocks_induct (P := fun _ _ t => SameOutside s t) (fun src dst t h => h.trans (hb src dst t)) n src dst s (.refl s)

/-- No effect of a command touches the parameters, CMD, the operand CSRs or the model's own fields (R30, R33). -/
theorem effectOf_sameOutside (i : Instr) (s : State) : SameOutside s (effectOf i s) := by
  cases i with
  | nop => exact .refl s
  | hinit => exact .setHash s _
  | hcomp => exact .setHash s _
  | hupd => exact .setHash s _
  | hfin => exact (SameOutside.setHash s _).trans (.memWrite _ _ _)
  | hash => exact (SameOutside.setHash s _).trans (.memWrite _ _ _)
  | hmac => exact (SameOutside.setHash s _).trans (.memWrite _ _ _)
  | kexp => exact .setCipher s _
  | benc kx => exact (SameOutside.kxStep kx s).trans (.memWrite _ _ _)
  | bdec kx => exact (SameOutside.kxStep kx s).trans (.memWrite _ _ _)
  | cbce ivl kx =>
    exact ((SameOutside.kxStep kx s).trans (.ivStep ivl _)).trans (.chainBlocks SameOutside.cbceBlock _ _ _ _)
  | cbcd ivl kx =>
    exact ((SameOutside.kxStep kx s).trans (.ivStep ivl _)).trans (.chainBlocks SameOutside.cbcdBlock _ _ _ _)

end Sys2Proof.Machine
end

