-- ==== Sys2Proof/Laws/Check.lean ====
section
/-! SUPPORT. Sys2Proof/Laws/Check.lean: the check of each command, written out for it (60_exceptions.md R201, R203). -/

namespace Sys2Proof.Machine

/-- A region is in range as `State.has` says. -/
theorem inRange_eq (s : State) (a : Access) (p : Word) (n : Nat) :
    Region.inRange ⟨a, p.toNat, n⟩ s.cfg.memBytes = decide (s.has p n) := rfl

/-- A command whose check fails with a code other than OK records the code, and that is all. -/
theorem exec_of_check_eq {i : Instr} {s : State} {e : Err} (h : check i s = e) (he : e ≠ .ok) :
    exec i s = .next { s with err := e } := by
  rw [exec_of_check_fails (by rw [h]; exact he), h]; rfl

theorem check_hcomp (s : State) : check .hcomp s = if s.has s.ops.src 64 then .ok else .range := by
  simp only [check, needsOpen, needsClosed, needsKey, needsBlocks, extendsStream, regionsInRange, regions, Region.reads]
  by_cases h : s.has s.ops.src 64 <;> simp [h, inRange_eq]

theorem check_hupd (s : State) : check .hupd s =
    if s.hash.hact = false then .noCtx
    else if s.hash.hlen.toNat + s.ops.len.toNat > hlenMax then .lenOvf
    else if s.has s.ops.src s.ops.len.toNat then .ok else .range := by
  simp only [check, needsOpen, needsClosed, needsKey, needsBlocks, extendsStream, regionsInRange, regions, Region.reads]
  cases h : s.hash.hact
  · rfl
  · by_cases h1 : s.hash.hlen.toNat + s.ops.len.toNat > hlenMax <;> by_cases h2 : s.has s.ops.src s.ops.len.toNat <;>
      simp [h1, h2, inRange_eq]

theorem check_hfin (s : State) : check .hfin s =
    if s.hash.hact = false then .noCtx else if s.has s.ops.dst 32 then .ok else .range := by
  simp only [check, needsOpen, needsClosed, needsKey, needsBlocks, extendsStream, regionsInRange, regions, Region.writes]
  cases h : s.hash.hact
  · rfl
  · by_cases h1 : s.has s.ops.dst 32 <;> simp [h1, inRange_eq]

theorem check_hash (s : State) : check .hash s =
    if s.hash.hact = true then .ctxBusy
    else if s.has s.ops.src s.ops.len.toNat ∧ s.has s.ops.dst 32 then .ok else .range := by
  simp only [check, needsOpen, needsClosed, needsKey, needsBlocks, extendsStream, regionsInRange, regions, Region.reads,
    Region.writes]
  cases h : s.hash.hact
  · by_cases h1 : s.has s.ops.src s.ops.len.toNat <;> by_cases h2 : s.has s.ops.dst 32 <;> simp [h1, h2, inRange_eq]
  · rfl

theorem check_hmac (s : State) : check .hmac s =
    if s.hash.hact = true then .ctxBusy
    else if s.has s.ops.keyp s.ops.klen.toNat ∧ s.has s.ops.src s.ops.len.toNat ∧ s.has s.ops.dst 32 then .ok
    else .range := by
  simp only [check, needsOpen, needsClosed, needsKey, needsBlocks, extendsStream, regionsInRange, regions, Region.reads,
    Region.writes]
  cases h : s.hash.hact
  · by_cases h1 : s.has s.ops.keyp s.ops.klen.toNat <;> by_cases h2 : s.has s.ops.src s.ops.len.toNat <;>
      by_cases h3 : s.has s.ops.dst 32 <;> simp [h1, h2, h3, inRange_eq]
  · rfl

theorem check_kexp (s : State) : check .kexp s = if s.has s.ops.keyp 16 then .ok else .range := by
  simp only [check, needsOpen, needsClosed, needsKey, needsBlocks, extendsStream, regionsInRange, regions, Region.reads]
  by_cases h : s.has s.ops.keyp 16 <;> simp [h, inRange_eq]

/-- The check of BENC and BDEC. -/
theorem check_block {i : Instr} {kx : Bool} (hi : i = .benc kx ∨ i = .bdec kx) (s : State) : check i s =
    if ¬ (kx = true ∨ s.cipher.kvalid = true) then .noKey
    else if (kx = true → s.has s.ops.keyp 16) ∧ s.has s.ops.src 16 ∧ s.has s.ops.dst 16 then .ok else .range := by
  rcases hi with rfl | rfl <;> cases hv : s.cipher.kvalid <;> cases kx <;>
    simp only [check, hv, needsOpen, needsClosed, needsKey, needsBlocks, extendsStream, regionsInRange, regions,
      Region.reads, Region.writes, keyRegion] <;>
    by_cases h1 : s.has s.ops.keyp 16 <;> by_cases h2 : s.has s.ops.src 16 <;> by_cases h3 : s.has s.ops.dst 16 <;>
    simp [h1, h2, h3, inRange_eq]

/-- The check of CBCE and CBCD. -/
theorem check_chain {i : Instr} {ivl kx : Bool} (hi : i = .cbce ivl kx ∨ i = .cbcd ivl kx) (s : State) : check i s =
    if ¬ (kx = true ∨ s.cipher.kvalid = true) then .noKey
    else if s.ops.len.toNat % 16 ≠ 0 then .lenAlign
    else if (kx = true → s.has s.ops.keyp 16) ∧ (ivl = true → s.has s.ops.ivp 16) ∧ s.has s.ops.src s.ops.len.toNat ∧
      s.has s.ops.dst s.ops.len.toNat then .ok
    else .range := by
  by_cases hl : s.ops.len.toNat % 16 = 0 <;>
    rcases hi with rfl | rfl <;> cases hv : s.cipher.kvalid <;> cases kx <;> cases ivl <;>
    simp only [check, hv, needsOpen, needsClosed, needsKey, needsBlocks, extendsStream, regionsInRange, regions,
      Region.reads, Region.writes, keyRegion, ivRegion] <;>
    by_cases h1 : s.has s.ops.keyp 16 <;> by_cases h2 : s.has s.ops.src s.ops.len.toNat <;>
    by_cases h3 : s.has s.ops.dst s.ops.len.toNat <;> by_cases h4 : s.has s.ops.ivp 16 <;>
    simp [hl, h1, h2, h3, h4, inRange_eq]

/-- A command whose check passes has every region in range (R203). -/
theorem regions_inRange {i : Instr} {s : State} (h : check i s = .ok) :
    ∀ r ∈ regions i s.ops, r.inRange s.cfg.memBytes = true := by
  have hr : regionsInRange i s = true := by
    by_contra hn
    have hn : regionsInRange i s = false := by simpa using hn
    simp only [check, hn] at h
    repeat' split at h
    all_goals first | (cases h; done) | simp_all
  simpa [regionsInRange] using hr

end Sys2Proof.Machine
end

