-- ==== Sys2Proof/Laws/Lengths.lean ====
section
/-! SUPPORT. Sys2Proof/Laws/Lengths.lean: the lengths of the byte strings the rules build (00_scope.md R8, R12). -/

namespace Sys2Proof.Machine

@[simp] theorem length_zeros (n : Nat) : (zeros n).length = n := by simp [zeros]

@[simp] theorem length_rep (v : Byte) (n : Nat) : (rep v n).length = n := by simp [rep]

@[simp] theorem length_xorBytes (a b : List Byte) : (xorBytes a b).length = min a.length b.length := by
  simp [xorBytes]

@[simp] theorem length_ser32 (x : Word) : (ser32 x).length = 4 := rfl

@[simp] theorem length_ser64 (v : BitVec 64) : (ser64 v).length = 8 := rfl

@[simp] theorem length_serw (ws : List Word) : (serw ws).length = 4 * ws.length := by
  induction ws with
  | nil => rfl
  | cons w rest ih => simp [serw] at ih ⊢; omega

@[simp] theorem length_lengthField (n : Nat) : (lengthField n).length = 8 := rfl

theorem length_padBlock {p : List Byte} (h : p.length ≤ 63) : (padBlock p).length = 64 := by
  simp [padBlock]; omega

theorem length_withLength {blk l : List Byte} (hb : blk.length = 64) (hl : l.length = 8) :
    (withLength blk l).length = 64 := by
  simp [withLength, hb, hl]

/-- R172: a block transform gives 16 bytes. -/
@[simp] theorem length_blockF (b : List Byte) (rk : Vector Word 32) (d : Dir) : (blockF b rk d).length = 16 := by
  simp [blockF, Window.out]

/-- R139: a digest is 32 bytes. -/
@[simp] theorem HashCtx.length_digestBytes (h : HashCtx) : h.digestBytes.length = 32 := by
  simp [HashCtx.digestBytes]

@[simp] theorem length_hashOf (m : List Byte) : (hashOf m).length = 32 := by simp [hashOf]

@[simp] theorem State.length_chainBytes (s : State) : s.chainBytes.length = 16 := by simp [State.chainBytes]

@[simp] theorem length_freeBytes (d n : Nat) : (freeBytes d n).length = n := by simp [freeBytes]

end Sys2Proof.Machine
end

