-- ==== Sys2Proof/Laws/Effects.lean ====
section
/-! SUPPORT. Sys2Proof/Laws/Effects.lean: the fields of the state after each shared step of a command: the digest written,
the KX and IVL steps, one block, the loop over blocks. A proof that cites these never unfolds the hash or the cipher
(rfl on a field of a block does, and takes long). -/

namespace Sys2Proof.Machine

variable (s : State)

section State.loadKey

@[simp] theorem State.loadKey_cfg : (s.loadKey).cfg = s.cfg := by
  simp only [State.loadKey, State.setCipher_cfg]
@[simp] theorem State.loadKey_ops : (s.loadKey).ops = s.ops := by
  simp only [State.loadKey, State.setCipher_ops]
@[simp] theorem State.loadKey_hash : (s.loadKey).hash = s.hash := by
  simp only [State.loadKey, State.setCipher_hash]
@[simp] theorem State.loadKey_cipher : (s.loadKey).cipher = { s.cipher with rk := expandKey (s.memRead s.ops.keyp.toNat 16), kvalid := true } := by
  simp only [State.loadKey, State.setCipher_cipher]
@[simp] theorem State.loadKey_mem : (s.loadKey).mem = s.mem := by
  simp only [State.loadKey, State.setCipher_mem]
@[simp] theorem State.loadKey_powerUps : (s.loadKey).powerUps = s.powerUps := by
  simp only [State.loadKey, State.setCipher_powerUps]

end State.loadKey

section State.kxStep
variable (kx : Bool)

@[simp] theorem State.kxStep_cfg : (s.kxStep kx).cfg = s.cfg := by
  cases kx <;> simp [State.kxStep]
@[simp] theorem State.kxStep_ops : (s.kxStep kx).ops = s.ops := by
  cases kx <;> simp [State.kxStep]
@[simp] theorem State.kxStep_hash : (s.kxStep kx).hash = s.hash := by
  cases kx <;> simp [State.kxStep]
@[simp] theorem State.kxStep_mem : (s.kxStep kx).mem = s.mem := by
  cases kx <;> simp [State.kxStep]
@[simp] theorem State.kxStep_powerUps : (s.kxStep kx).powerUps = s.powerUps := by
  cases kx <;> simp [State.kxStep]

end State.kxStep

/-- The cipher context after the KX step (R93, R166). -/
theorem State.kxStep_cipher (kx : Bool) : (s.kxStep kx).cipher =
    if kx then { s.cipher with rk := expandKey (s.memRead s.ops.keyp.toNat 16), kvalid := true } else s.cipher := by
  cases kx <;> simp [State.kxStep]

section State.setChain
variable (b : List Byte)

@[simp] theorem State.setChain_cfg : (s.setChain b).cfg = s.cfg := by
  simp only [State.setChain, State.setCipher_cfg]
@[simp] theorem State.setChain_ops : (s.setChain b).ops = s.ops := by
  simp only [State.setChain, State.setCipher_ops]
@[simp] theorem State.setChain_hash : (s.setChain b).hash = s.hash := by
  simp only [State.setChain, State.setCipher_hash]
@[simp] theorem State.setChain_cipher : (s.setChain b).cipher = { s.cipher with cr := words4 b } := by
  simp only [State.setChain, State.setCipher_cipher]
@[simp] theorem State.setChain_mem : (s.setChain b).mem = s.mem := by
  simp only [State.setChain, State.setCipher_mem]
@[simp] theorem State.setChain_powerUps : (s.setChain b).powerUps = s.powerUps := by
  simp only [State.setChain, State.setCipher_powerUps]

end State.setChain

section State.ivStep
variable (ivl : Bool)

@[simp] theorem State.ivStep_cfg : (s.ivStep ivl).cfg = s.cfg := by
  cases ivl <;> simp [State.ivStep]
@[simp] theorem State.ivStep_ops : (s.ivStep ivl).ops = s.ops := by
  cases ivl <;> simp [State.ivStep]
@[simp] theorem State.ivStep_hash : (s.ivStep ivl).hash = s.hash := by
  cases ivl <;> simp [State.ivStep]
@[simp] theorem State.ivStep_mem : (s.ivStep ivl).mem = s.mem := by
  cases ivl <;> simp [State.ivStep]
@[simp] theorem State.ivStep_powerUps : (s.ivStep ivl).powerUps = s.powerUps := by
  cases ivl <;> simp [State.ivStep]

end State.ivStep

/-- The cipher context after the IVL step (R92, R182). -/
theorem State.ivStep_cipher (ivl : Bool) : (s.ivStep ivl).cipher =
    if ivl then { s.cipher with cr := words4 (s.memRead s.ops.ivp.toNat 16) } else s.cipher := by
  cases ivl <;> simp [State.ivStep]

section State.transformBlock
variable (d : Dir)

@[simp] theorem State.transformBlock_cfg : (s.transformBlock d).cfg = s.cfg := by
  simp only [State.transformBlock, State.memWrite_cfg]
@[simp] theorem State.transformBlock_ops : (s.transformBlock d).ops = s.ops := by
  simp only [State.transformBlock, State.memWrite_ops]
@[simp] theorem State.transformBlock_hash : (s.transformBlock d).hash = s.hash := by
  simp only [State.transformBlock, State.memWrite_hash]
@[simp] theorem State.transformBlock_cipher : (s.transformBlock d).cipher = s.cipher := by
  simp only [State.transformBlock, State.memWrite_cipher]
@[simp] theorem State.transformBlock_mem : (s.transformBlock d).mem = Mem.writeBytes s.mem s.ops.dst.toNat (blockF (s.memRead s.ops.src.toNat 16) s.cipher.rk d) := by
  simp only [State.transformBlock, State.memWrite_mem]
@[simp] theorem State.transformBlock_powerUps : (s.transformBlock d).powerUps = s.powerUps := by
  simp only [State.transformBlock, State.memWrite_powerUps]

end State.transformBlock

section writeDigest
variable (h : HashCtx)

@[simp] theorem writeDigest_cfg : (writeDigest h s).cfg = s.cfg := by
  simp only [writeDigest, State.memWrite_cfg, State.setHash_cfg]
@[simp] theorem writeDigest_ops : (writeDigest h s).ops = s.ops := by
  simp only [writeDigest, State.memWrite_ops, State.setHash_ops]
@[simp] theorem writeDigest_hash : (writeDigest h s).hash = h := by
  simp only [writeDigest, State.memWrite_hash, State.setHash_hash]
@[simp] theorem writeDigest_cipher : (writeDigest h s).cipher = s.cipher := by
  simp only [writeDigest, State.memWrite_cipher, State.setHash_cipher]
@[simp] theorem writeDigest_mem : (writeDigest h s).mem = Mem.writeBytes s.mem s.ops.dst.toNat h.digestBytes := by
  simp only [writeDigest, State.memWrite_mem, State.setHash_mem]
@[simp] theorem writeDigest_powerUps : (writeDigest h s).powerUps = s.powerUps := by
  simp only [writeDigest, State.memWrite_powerUps, State.setHash_powerUps]

end writeDigest

section State.cbceBlock
variable (src dst : Nat)

@[simp] theorem State.cbceBlock_cfg : (s.cbceBlock src dst).cfg = s.cfg := by
  simp only [State.cbceBlock, State.setChain_cfg, State.memWrite_cfg]
@[simp] theorem State.cbceBlock_ops : (s.cbceBlock src dst).ops = s.ops := by
  simp only [State.cbceBlock, State.setChain_ops, State.memWrite_ops]
@[simp] theorem State.cbceBlock_hash : (s.cbceBlock src dst).hash = s.hash := by
  simp only [State.cbceBlock, State.setChain_hash, State.memWrite_hash]
@[simp] theorem State.cbceBlock_cipher : (s.cbceBlock src dst).cipher = { s.cipher with cr := words4 (blockF (xorBytes (s.memRead src 16) s.chainBytes) s.cipher.rk .enc) } := by
  simp only [State.cbceBlock, State.setChain_cipher, State.memWrite_cipher]
@[simp] theorem State.cbceBlock_mem : (s.cbceBlock src dst).mem = Mem.writeBytes s.mem dst (blockF (xorBytes (s.memRead src 16) s.chainBytes) s.cipher.rk .enc) := by
  simp only [State.cbceBlock, State.setChain_mem, State.memWrite_mem]
@[simp] theorem State.cbceBlock_powerUps : (s.cbceBlock src dst).powerUps = s.powerUps := by
  simp only [State.cbceBlock, State.setChain_powerUps, State.memWrite_powerUps]

end State.cbceBlock

section State.cbcdBlock
variable (src dst : Nat)

@[simp] theorem State.cbcdBlock_cfg : (s.cbcdBlock src dst).cfg = s.cfg := by
  simp only [State.cbcdBlock, State.setChain_cfg, State.memWrite_cfg]
@[simp] theorem State.cbcdBlock_ops : (s.cbcdBlock src dst).ops = s.ops := by
  simp only [State.cbcdBlock, State.setChain_ops, State.memWrite_ops]
@[simp] theorem State.cbcdBlock_hash : (s.cbcdBlock src dst).hash = s.hash := by
  simp only [State.cbcdBlock, State.setChain_hash, State.memWrite_hash]
@[simp] theorem State.cbcdBlock_cipher : (s.cbcdBlock src dst).cipher = { s.cipher with cr := words4 (s.memRead src 16) } := by
  simp only [State.cbcdBlock, State.setChain_cipher, State.memWrite_cipher]
@[simp] theorem State.cbcdBlock_mem : (s.cbcdBlock src dst).mem = Mem.writeBytes s.mem dst (xorBytes (blockF (s.memRead src 16) s.cipher.rk .dec) s.chainBytes) := by
  simp only [State.cbcdBlock, State.setChain_mem, State.memWrite_mem]
@[simp] theorem State.cbcdBlock_powerUps : (s.cbcdBlock src dst).powerUps = s.powerUps := by
  simp only [State.cbcdBlock, State.setChain_powerUps, State.memWrite_powerUps]

end State.cbcdBlock

/-- The loop over blocks keeps the hash context, RK and KVALID when each block does. -/
theorem chainBlocks_keeps {block : Nat → Nat → State → State}
    (hb : ∀ src dst t, (block src dst t).hash = t.hash ∧ (block src dst t).cipher.rk = t.cipher.rk ∧
      (block src dst t).cipher.kvalid = t.cipher.kvalid) (n src dst : Nat) :
    (State.chainBlocks block n src dst s).hash = s.hash ∧
      (State.chainBlocks block n src dst s).cipher.rk = s.cipher.rk ∧
      (State.chainBlocks block n src dst s).cipher.kvalid = s.cipher.kvalid :=
  chainBlocks_induct
    (P := fun _ _ t => t.hash = s.hash ∧ t.cipher.rk = s.cipher.rk ∧ t.cipher.kvalid = s.cipher.kvalid)
    (fun src dst t h => ⟨(hb src dst t).1.trans h.1, (hb src dst t).2.1.trans h.2.1, (hb src dst t).2.2.trans h.2.2⟩)
    n src dst s ⟨rfl, rfl, rfl⟩

/-- A block of CBCE keeps the hash context, RK and KVALID. -/
theorem cbceBlock_keeps (src dst : Nat) : (s.cbceBlock src dst).hash = s.hash ∧
    (s.cbceBlock src dst).cipher.rk = s.cipher.rk ∧ (s.cbceBlock src dst).cipher.kvalid = s.cipher.kvalid := by
  simp

/-- A block of CBCD keeps the hash context, RK and KVALID. -/
theorem cbcdBlock_keeps (src dst : Nat) : (s.cbcdBlock src dst).hash = s.hash ∧
    (s.cbcdBlock src dst).cipher.rk = s.cipher.rk ∧ (s.cbcdBlock src dst).cipher.kvalid = s.cipher.kvalid := by
  simp

/-- The loop over blocks keeps every byte outside its `16 * n` output bytes, and MEM's canonical form, when each block keeps
them outside its 16. -/
theorem chainBlocks_memory {block : Nat → Nat → State → State}
    (hb : ∀ src dst t, Mem.wf t.mem → Mem.wf (block src dst t).mem ∧
      ∀ x, ¬ (dst ≤ x ∧ x < dst + 16) → (block src dst t).memByte x = t.memByte x) (n src dst : Nat) (hs : Mem.wf s.mem) :
    Mem.wf (State.chainBlocks block n src dst s).mem ∧
      ∀ x, ¬ (dst ≤ x ∧ x < dst + 16 * n) → (State.chainBlocks block n src dst s).memByte x = s.memByte x := by
  induction n generalizing src dst s with
  | zero => exact ⟨hs, fun _ _ => rfl⟩
  | succ k ih =>
    obtain ⟨h1, h2⟩ := hb src dst s hs
    obtain ⟨h3, h4⟩ := ih (block src dst s) (src + 16) (dst + 16) h1
    exact ⟨h3, fun x hx => (h4 x (by omega)).trans (h2 x (by omega))⟩

/-- What a block of CBCE does to MEM: it changes 16 bytes. -/
theorem cbceBlock_memory (src dst : Nat) (hs : Mem.wf s.mem) : Mem.wf (s.cbceBlock src dst).mem ∧
    ∀ x, ¬ (dst ≤ x ∧ x < dst + 16) → (s.cbceBlock src dst).memByte x = s.memByte x := by
  refine ⟨by simpa using Mem.wf_writeBytes hs _ _, fun x hx => ?_⟩
  rw [← State.memByte_memWrite_of_not hs (bs := blockF (xorBytes (s.memRead src 16) s.chainBytes) s.cipher.rk .enc)
    (by simpa using hx)]
  exact State.memByte_congr (by simp) (by simp) x

/-- What a block of CBCD does to MEM: it changes 16 bytes. -/
theorem cbcdBlock_memory (src dst : Nat) (hs : Mem.wf s.mem) : Mem.wf (s.cbcdBlock src dst).mem ∧
    ∀ x, ¬ (dst ≤ x ∧ x < dst + 16) → (s.cbcdBlock src dst).memByte x = s.memByte x := by
  refine ⟨by simpa using Mem.wf_writeBytes hs _ _, fun x hx => ?_⟩
  rw [← State.memByte_memWrite_of_not hs (bs := xorBytes (blockF (s.memRead src 16) s.cipher.rk .dec) s.chainBytes)
    (by simpa using hx)]
  exact State.memByte_congr (by simp) (by simp) x

end Sys2Proof.Machine
end

