-- ==== Sys2Proof/Laws/PerInstr.lean ====
section
/-! SUPPORT. Sys2Proof/Laws/PerInstr.lean: the family EncodesLegal of LAWS.json, one lemma a command: the command is
well-formed, its word is none of the ILLEGAL ones (R94), and it belongs to the row of its mnemonic in the opcode table
(R91, R100). -/

namespace Sys2Proof

/-- Every command is well-formed: `Instr` has an option bit only where R92 and R93 define it. -/
theorem Instr.wellFormed_eq_true (i : Instr) : i.wellFormed = true := by
  cases i <;> simp [Instr.wellFormed, CmdFields.wellFormed, CmdFields.opOk, CmdFields.rsvdOk, CmdFields.ivlOk,
    CmdFields.kxOk, Instr.fields]

namespace Laws.EncodesLegal

/-- The family's statement. -/
def Statement (i : Instr) : Prop :=
  i.wellFormed = true ∧ illegal (encode i) = false ∧
    (opcodeRows.filter (fun r => r.matches (encode i))).map OpcodeRow.mnemonic = [i.mnemonic]

theorem nop : Statement .nop := by unfold Statement; decide
theorem hinit : Statement .hinit := by unfold Statement; decide
theorem hcomp : Statement .hcomp := by unfold Statement; decide
theorem hupd : Statement .hupd := by unfold Statement; decide
theorem hfin : Statement .hfin := by unfold Statement; decide
theorem hash : Statement .hash := by unfold Statement; decide
theorem hmac : Statement .hmac := by unfold Statement; decide
theorem kexp : Statement .kexp := by unfold Statement; decide
theorem benc (kx : Bool) : Statement (.benc kx) := by unfold Statement; cases kx <;> decide
theorem bdec (kx : Bool) : Statement (.bdec kx) := by unfold Statement; cases kx <;> decide
theorem cbce (ivl kx : Bool) : Statement (.cbce ivl kx) := by unfold Statement; cases ivl <;> cases kx <;> decide
theorem cbcd (ivl kx : Bool) : Statement (.cbcd ivl kx) := by unfold Statement; cases ivl <;> cases kx <;> decide

end Laws.EncodesLegal

end Sys2Proof
end

