-- ==== Sys2Proof/Laws/Encoding.lean ====
section
/-! SUPPORT. Sys2Proof/Laws/Encoding.lean: the fields of a word and the word of fields (30_encoding.md R90). -/

namespace Sys2Proof

/-- The word of a word's fields is the word: no bit of it is dropped. -/
theorem CmdFields.toWord_ofWord (w : Word) : (CmdFields.ofWord w).toWord = w := by
  unfold CmdFields.ofWord CmdFields.toWord
  apply BitVec.eq_of_getLsbD_eq
  intro i hi
  simp only [BitVec.getLsbD_append, BitVec.getLsbD_extractLsb', BitVec.getLsbD_ofBool]
  by_cases h4 : i < 4
  · simp [h4]
  · by_cases h5 : i = 4
    · subst h5; simp
    · by_cases h6 : i = 5
      · subst h6; simp
      · simp [h4, show ¬ i - 4 < 1 by omega, show ¬ i - 4 - 1 < 1 by omega, show i - 4 - 1 - 1 < 26 by omega,
          show 6 + (i - 4 - 1 - 1) = i by omega]

/-- The fields of a word of fields are those fields. -/
theorem CmdFields.ofWord_toWord (f : CmdFields) : CmdFields.ofWord f.toWord = f := by
  obtain ⟨op, ivl, kx, rsvd⟩ := f
  unfold CmdFields.ofWord CmdFields.toWord
  congr 1
  · apply BitVec.eq_of_getLsbD_eq
    intro i hi
    simp only [BitVec.getLsbD_append, BitVec.getLsbD_extractLsb', BitVec.getLsbD_ofBool]
    simp [show i < 4 by omega]
  · simp only [BitVec.getLsbD_append, BitVec.getLsbD_ofBool]; simp
  · simp only [BitVec.getLsbD_append, BitVec.getLsbD_ofBool]; simp
  · apply BitVec.eq_of_getLsbD_eq
    intro i hi
    simp only [BitVec.getLsbD_append, BitVec.getLsbD_extractLsb', BitVec.getLsbD_ofBool]
    simp [show ¬ 6 + i < 4 by omega, show ¬ 6 + i - 4 < 1 by omega, show ¬ 6 + i - 4 - 1 < 1 by omega,
      show 6 + i - 4 - 1 - 1 = i by omega, hi]

/-- OP as a number. -/
theorem CmdFields.op_ofWord (w : Word) : (CmdFields.ofWord w).op.toNat = w.toNat % 16 := by
  simp [CmdFields.ofWord]

/-- RSVD as a number. -/
theorem CmdFields.rsvd_ofWord (w : Word) : (CmdFields.ofWord w).rsvd.toNat = w.toNat / 64 := by
  have := w.isLt
  simp [CmdFields.ofWord, Nat.shiftRight_eq_div_pow]; omega

/-- A bit of a word as arithmetic on its number. -/
theorem getLsbD_eq_div (w : Word) (i : Nat) : w.getLsbD i = decide (w.toNat / 2 ^ i % 2 = 1) := by
  rw [BitVec.getLsbD, Nat.testBit_eq_decide_div_mod_eq]

/-- What a row that fixes IVL = 0 gives. -/
theorem withoutIvl_eq_ok {f : CmdFields} {i j : Instr} : withoutIvl f i = .ok j ↔ f.ivl = false ∧ j = i := by
  unfold withoutIvl
  cases f.ivl <;> simp [eq_comm]

/-- What a row that fixes IVL = 0 and KX = 0 gives. -/
theorem withoutOptions_eq_ok {f : CmdFields} {i j : Instr} :
    withoutOptions f i = .ok j ↔ f.kx = false ∧ f.ivl = false ∧ j = i := by
  unfold withoutOptions
  cases f.kx <;> simp [withoutIvl_eq_ok]

end Sys2Proof
end

