-- ==== Sys2Proof/Laws/HashStream.lean ====
section
/-! SUPPORT. Sys2Proof/Laws/HashStream.lean: what ABSORB does to the counters, and that it goes byte by byte
(41_hash_stream.md R134). -/

namespace Sys2Proof.Machine

/-- One byte leaves HLEN and HACT, and moves HCNT on modulo 64. -/
theorem HashCtx.absorbByte_counts (h : HashCtx) (b : Byte) :
    (h.absorbByte b).hcnt.val = (h.hcnt.val + 1) % 64 ∧ (h.absorbByte b).hlen = h.hlen ∧
      (h.absorbByte b).hact = h.hact := by
  have := h.hcnt.isLt
  unfold HashCtx.absorbByte
  split
  · exact ⟨by simp only; omega, rfl, rfl⟩
  · exact ⟨by simp only [Fin.val_zero]; omega, rfl, rfl⟩

/-- The loop of ABSORB leaves HLEN and HACT, and moves HCNT on modulo 64. -/
theorem HashCtx.absorbBytes_counts (h : HashCtx) (m : List Byte) :
    (h.absorbBytes m).hcnt.val = (h.hcnt.val + m.length) % 64 ∧ (h.absorbBytes m).hlen = h.hlen ∧
      (h.absorbBytes m).hact = h.hact := by
  induction m generalizing h with
  | nil => exact ⟨(Nat.mod_eq_of_lt h.hcnt.isLt).symm, rfl, rfl⟩
  | cons b m ih =>
    obtain ⟨i1, i2, i3⟩ := ih (h.absorbByte b)
    obtain ⟨b1, b2, b3⟩ := h.absorbByte_counts b
    refine ⟨i1.trans ?_, i2.trans b2, i3.trans b3⟩
    rw [b1, List.length_cons]; omega

/-- ABSORB adds the length to HLEN, leaves HACT, and moves HCNT on modulo 64. -/
theorem HashCtx.absorb_counts (h : HashCtx) (m : List Byte) :
    (h.absorb m).hcnt.val = (h.hcnt.val + m.length) % 64 ∧ (h.absorb m).hlen = h.hlen + BitVec.ofNat 64 m.length ∧
      (h.absorb m).hact = h.hact := by
  obtain ⟨h1, h2, h3⟩ := h.absorbBytes_counts m
  exact ⟨h1, by rw [HashCtx.absorb, h2], h3⟩

/-- The loop of ABSORB over two strings. -/
theorem HashCtx.absorbBytes_append (h : HashCtx) (a b : List Byte) :
    h.absorbBytes (a ++ b) = (h.absorbBytes a).absorbBytes b := by
  simp [HashCtx.absorbBytes]

/-- HLEN plays no part in the loop of ABSORB. -/
theorem HashCtx.absorbBytes_setHlen (h : HashCtx) (m : List Byte) (v : BitVec 64) :
    ({ h with hlen := v }).absorbBytes m = { h.absorbBytes m with hlen := v } := by
  induction m generalizing h with
  | nil => rfl
  | cons b m ih =>
    have hb : ({ h with hlen := v }).absorbByte b = { h.absorbByte b with hlen := v } := by
      unfold HashCtx.absorbByte; dsimp only; split <;> rfl
    change (({ h with hlen := v }).absorbByte b).absorbBytes m = _
    rw [hb, ih]; rfl

/-- ABSORB of two strings is ABSORB of the one and then of the other. -/
theorem HashCtx.absorb_append (h : HashCtx) (a b : List Byte) : h.absorb (a ++ b) = (h.absorb a).absorb b := by
  have k := HashCtx.absorbBytes_setHlen (h.absorbBytes a) b ((h.absorbBytes a).hlen + BitVec.ofNat 64 a.length)
  have hl := ((h.absorbBytes a).absorbBytes_counts b).2.1
  unfold HashCtx.absorb
  rw [k, HashCtx.absorbBytes_append]
  simp only [hl, List.length_append, BitVec.ofNat_add, BitVec.add_assoc]

end Sys2Proof.Machine
end

