-- ==== Sys2Proof/Laws/Step.lean ====
section
/-! SUPPORT. Sys2Proof/Laws/Step.lean: what one step does, input by input (30_encoding.md R97, 46_host_access.md R191 to
R195, 70_reset_and_hazards.md R231, R232), and how steps follow each other. -/

namespace Sys2Proof.Machine

/-- Every register's offset is a multiple of 4 inside the window (R32). -/
theorem Csr.offset_aligned (r : Csr) : r.offset % 4 = 0 ∧ r.offset < 4096 := by
  cases r with
  | hs i => simp only [Csr.offset]; omega
  | cr i => simp only [Csr.offset]; omega
  | hbuf i => simp only [Csr.offset]; omega
  | rk i => simp only [Csr.offset]; omega
  | _ => exact ⟨rfl, by decide⟩

/-- An offset of the window is found from its host address. -/
theorem windowOffset_base_add (c : Config) {o : Nat} (h : o < 4096) : windowOffset c (c.csrBase + o) = some o := by
  simp [windowOffset, windowBytes, h]

/-- With nothing left to come, the engine idles (R196). -/
theorem step_idle {s : State} (h : s.inputs = []) : step s = .next s := by
  simp only [step, stepInput, h]

/-- A step takes the first input. -/
theorem step_input {s : State} {x : Input} {rest : List Input} (h : s.inputs = x :: rest) :
    step s = applyInput x (s.setInputs rest) := by
  simp only [step, stepInput, h]

/-- An aligned word read in the window (R191). -/
theorem step_csrRead {s : State} {o : Nat} {rest : List Input} (ho : o < 4096) (h4 : o % 4 = 0)
    (h : s.inputs = .csrRead (s.cfg.csrBase + o) 4 :: rest) :
    step s = .next ((s.setInputs rest).setResp (.word (csrValue o (s.setInputs rest)))) := by
  have hw : windowOffset (s.setInputs rest).cfg (s.cfg.csrBase + o) = some o := windowOffset_base_add s.cfg ho
  simp only [step_input h, applyInput, hostCsrRead, hw, csrReadResponse]
  rw [if_pos (by simp [csrAccessOk, h4])]

/-- An aligned word write in the window (R97, R192, R193). -/
theorem step_csrWrite {s : State} {o : Nat} {v : Word} {rest : List Input} (ho : o < 4096) (h4 : o % 4 = 0)
    (h : s.inputs = .csrWrite (s.cfg.csrBase + o) 4 v :: rest) :
    step s = csrWriteWord o v ((s.setInputs rest).setResp .accepted) := by
  have hw : windowOffset (s.setInputs rest).cfg (s.cfg.csrBase + o) = some o := windowOffset_base_add s.cfg ho
  simp only [step_input h, applyInput, hostCsrWrite, hw]
  rw [if_pos (by simp [csrAccessOk, h4])]

/-- A host read of MEM bytes that exist (R72, R195). -/
theorem step_memRead {s : State} {a n : Nat} {rest : List Input} (h : s.inputs = .memRead a n :: rest)
    (hr : n = 0 ∨ a + n ≤ s.cfg.memBytes) :
    step s = .next ((s.setInputs rest).setResp (.bytes ((s.setInputs rest).memRead a n))) := by
  simp only [step_input h, applyInput, hostMemRead]
  exact if_pos (decide_eq_true hr)

/-- A host write to MEM bytes that exist (R195). -/
theorem step_memWrite {s : State} {a : Nat} {bs : List Byte} {rest : List Input} (h : s.inputs = .memWrite a bs :: rest)
    (hr : bs = [] ∨ a + bs.length ≤ s.cfg.memBytes) :
    step s = .next (((s.setInputs rest).memWrite a bs).setResp .accepted) := by
  simp only [step_input h, applyInput, hostMemWrite]
  rw [if_pos (by simpa [hostRangeOk] using hr)]

/-- A write of a command word to CMD (R97). -/
theorem step_writeCmd {s : State} {w : Word} {rest : List Input} (h : s.nextIsCommand w rest) :
    step s = writeCmd w ((s.setInputs rest).setResp .accepted) := by
  rw [step_csrWrite (o := 0) (v := w) (by omega) rfl h]
  simp [csrWriteWord, Csr.ofOffset]

/-- A command word that decodes. -/
theorem writeCmd_of_decode {w : Word} {i : Instr} (h : decode w = .ok i) (s : State) :
    writeCmd w s = exec i (s.setCmd w) := by
  rw [writeCmd, h]

/-- The effect of a command written to CMD, or the code of its failed check (R97, R202). -/
theorem writeCmd_cases {w : Word} {s t : State} (h : writeCmd w s = .next t) :
    (∃ i, decode w = .ok i ∧ check i s = .ok ∧ t = complete (effectOf i (s.setCmd w))) ∨
      (checkWord w s ≠ .ok ∧ t = reportError (checkWord w s) (s.setCmd w)) := by
  unfold writeCmd checkWord at *
  cases hd : decode w with
  | error e => rw [hd] at h; cases h; exact .inr ⟨by simp, rfl⟩
  | ok i =>
    rw [hd] at h
    rcases exec_cases h with ⟨hc, rfl⟩ | ⟨hc, rfl⟩
    · exact .inl ⟨i, rfl, hc, rfl⟩
    · exact .inr ⟨hc, rfl⟩

/-- A write to CMD always gives a next state. -/
theorem writeCmd_next (w : Word) (s : State) : ∃ t, writeCmd w s = .next t := by
  unfold writeCmd
  cases decode w with
  | error e => exact ⟨_, rfl⟩
  | ok i =>
    simp only [exec_eq, runCommand]
    split <;> exact ⟨_, rfl⟩

/-- Steps follow each other. -/
theorem run_succ {k : Nat} {s t : State} (h : step s = .next t) :
    Host.Core.run Sys2Proof.core (k + 1) s = Host.Core.run Sys2Proof.core k t := by
  have h' : Sys2Proof.core.step s = .next t := h
  have key : ∀ (M : Host.Core) (a b : M.State), M.step a = .next b → M.run (k + 1) a = M.run k b := by
    intro M a b hab
    simp only [Host.Core.run, hab]
  exact key Sys2Proof.core s t h'

end Sys2Proof.Machine
end

