-- ==== Sys2Proof/Laws/Stream.lean ====
section
/-! SUPPORT. Sys2Proof/Laws/Stream.lean: the pieces of a streamed message (41_hash_stream.md R138): what the host's writes to
MEM change, and how the steps take them. -/

namespace Sys2Proof.Machine

/-- The host's writes change MEM only, and keep its canonical form. -/
theorem memWrites_keeps (ws : List (Nat × List Byte)) (s : State) :
    ws.foldl (fun t w => t.memWrite w.1 w.2) s = s.setMem (ws.foldl (fun t w => t.memWrite w.1 w.2) s).mem ∧
      (Mem.wf s.mem → Mem.wf (ws.foldl (fun t w => t.memWrite w.1 w.2) s).mem) := by
  induction ws generalizing s with
  | nil => exact ⟨rfl, id⟩
  | cons w ws ih =>
    obtain ⟨h, k⟩ := ih (s.memWrite w.1 w.2)
    exact ⟨h, fun hw => k (Mem.wf_writeBytes hw _ _)⟩

/-- What the host's writes leave in MEM depends on what was in MEM only. -/
theorem memWrites_mem_congr (ws : List (Nat × List Byte)) {s t : State} (h : t.mem = s.mem) :
    (ws.foldl (fun t w => t.memWrite w.1 w.2) t).mem = (ws.foldl (fun t w => t.memWrite w.1 w.2) s).mem := by
  induction ws generalizing s t with
  | nil => exact h
  | cons w ws ih => exact ih (by simp only [State.memWrite_mem, h])

/-- A piece's writes change MEM only. -/
theorem StreamPiece.written_eq (p : StreamPiece) (s : State) : p.written s = s.setMem (p.written s).mem :=
  (memWrites_keeps p.writes s).1

/-- A piece's writes keep the canonical form. -/
theorem StreamPiece.written_wf (p : StreamPiece) {s : State} (h : Mem.wf s.mem) : Mem.wf (p.written s).mem :=
  (memWrites_keeps p.writes s).2 h

@[simp] theorem StreamPiece.written_cfg (p : StreamPiece) (s : State) : (p.written s).cfg = s.cfg := by rw [p.written_eq]; rfl
@[simp] theorem StreamPiece.written_powerUps (p : StreamPiece) (s : State) : (p.written s).powerUps = s.powerUps := by
  rw [p.written_eq]; rfl

/-- A piece's bytes depend on MEM only. -/
theorem StreamPiece.bytes_congr (p : StreamPiece) {s t : State} (hm : t.mem = s.mem) (hp : t.powerUps = s.powerUps) :
    p.bytes t = p.bytes s :=
  State.memRead_congr (memWrites_mem_congr p.writes hm)
    ((p.written_powerUps t).trans (hp.trans (p.written_powerUps s).symm)) _ _

/-- The message depends on MEM only. -/
theorem streamMessage_congr (pieces : List StreamPiece) {s t : State} (hm : t.mem = s.mem) (hp : t.powerUps = s.powerUps) :
    streamMessage pieces t = streamMessage pieces s := by
  induction pieces generalizing s t with
  | nil => rfl
  | cons p ps ih =>
    rw [streamMessage, streamMessage, p.bytes_congr hm hp,
      ih (s := p.written s) (t := p.written t) (memWrites_mem_congr p.writes hm) (by simp [hp])]

/-- A piece has LEN bytes. -/
theorem StreamPiece.length_bytes (p : StreamPiece) (s : State) : (p.bytes s).length = p.len.toNat := by
  simp [StreamPiece.bytes]

/-- The steps take the host's writes of a piece one by one. -/
theorem run_memWrites (ws : List (Nat × List Byte)) (rest : List Input) (k : Nat) {s : State}
    (hi : s.inputs = ws.map (fun w => Input.memWrite w.1 w.2) ++ rest)
    (hr : ∀ w ∈ ws, w.1 + w.2.length ≤ s.cfg.memBytes) :
    ∃ t : State, Host.Core.run Sys2Proof.core (ws.length + k) s = Host.Core.run Sys2Proof.core k t ∧
      t = { s with
        inputs := rest, mem := (ws.foldl (fun t w => t.memWrite w.1 w.2) s).mem, resp := t.resp } := by
  induction ws generalizing s with
  | nil => exact ⟨s, by simp, by rw [← show s.inputs = rest from hi]; rfl⟩
  | cons w ws ih =>
    have h1 := step_memWrite hi (.inr (hr w (by simp)))
    obtain ⟨t, t1, t2⟩ := ih (s := ((s.setInputs (ws.map (fun w => Input.memWrite w.1 w.2) ++ rest)).memWrite w.1 w.2).setResp
      .accepted) rfl (fun v hv => hr v (by simp [hv]))
    refine ⟨t, ?_, ?_⟩
    · rw [show (w :: ws).length + k = ws.length + k + 1 by simp only [List.length_cons]; omega]
      exact (run_succ h1).trans t1
    · rw [t2]
      have : (ws.foldl (fun t w => t.memWrite w.1 w.2)
          (((s.setInputs (ws.map (fun w => Input.memWrite w.1 w.2) ++ rest)).memWrite w.1 w.2).setResp .accepted)).mem =
          ((w :: ws).foldl (fun t w => t.memWrite w.1 w.2) s).mem := memWrites_mem_congr ws rfl
      rw [this]; rfl

end Sys2Proof.Machine
end

