-- ==== Sys2Proof/Tests/Slice0.lean ====
section
/-! SUPPORT. Sys2Proof/Tests/Slice0.lean: the WellFormed smoke test, decoding from words written out bit by bit, one-step
tests whose expected values are those of 95_test_vectors.md, and a witness for the hypotheses of each statement. -/

namespace Sys2Proof.Tests

open Sys2Proof Sys2Proof.Machine

/-! ## Helpers -/

/-- The `n` bytes of a byte string printed in hexadecimal. -/
def hx (n v : Nat) : List Byte := (List.range n).map (fun i => BitVec.ofNat 8 (v >>> (8 * (n - 1 - i))))

/-- The state a step ends in (the reset state if it stops). -/
def after (o : Host.Outcome State Fault Refusal) : State :=
  match o with
  | .next s => s
  | .fault _ => State.reset
  | .refused _ => State.reset

/-- The string K of 95_test_vectors.md. -/
def keyK : List Byte := hx 16 0x0123456789abcdeffedcba9876543210

/-- The IV and the plaintext of V6.2. -/
def ivB : List Byte := hx 16 0x000102030405060708090a0b0c0d0e0f
def plain : List Byte := hx 48 0x00112233445566778899aabbccddeeff00112233445566778899aabbccddeeff0123456789abcdeffedcba9876543210
def crypt : List Byte := hx 48 0x4691e99a3261b6144f6aa68bea48dbbd16e96658f113bf22cbe041bb87f2e0115743993cacdfef24413162f2987fdb0b

/-- The reset state (MEM_BYTES = 0x10000) with SRC, LEN, DST set. -/
def at3 (src len dst : Word) : State := State.reset.setOps { Operands.reset with src := src, len := len, dst := dst }

/-- The state P4 starts its first command from: K at 0x500, the IV at 0x510, three blocks at 0x600, in place. -/
def p4 : State :=
  { State.reset with
    ops := { src := 0x600, dst := 0x600, len := 48, keyp := 0x500, klen := 16, ivp := 0x510 }
    mem := Mem.writeBytes (Mem.writeBytes [] 0x500 (keyK ++ ivB)) 0x600 plain }

/-- The same with the stream open, and with the schedule of K loaded. -/
def p4open : State := { p4 with hash := { HashCtx.reset.start with hact := true } }
def p4keyed : State := { p4 with cipher := { p4.cipher with rk := expandKey keyK, kvalid := true } }

/-- "abc" at 0x100 and the bytes 01 02 … (klen of them) at 0x300, as P3 sets them up. -/
def p3 (klen : Nat) : State :=
  { State.reset with
    ops := { Operands.reset with src := 0x100, len := 3, dst := 0x400, keyp := 0x300, klen := BitVec.ofNat 32 klen }
    mem := Mem.writeBytes (Mem.writeBytes [] 0x100 [0x61, 0x62, 0x63]) 0x300
      ((List.range klen).map (fun i => BitVec.ofNat 8 (i + 1))) }

/-- A state whose next input is the host's write of `w` to CMD. -/
def cmdNext (w : Word) (s : State) : State := s.setInputs [.csrWrite s.cfg.csrBase 4 w, .csrRead s.cfg.csrBase 4]

/-! ## WellFormed smoke test: one ill-formed record for each check (30_encoding.md R94) -/

theorem test_wf_refuses_reserved_op :
    (CmdFields.mk 0xC false false 0).opOk = false ∧ (CmdFields.mk 0xF false false 0).wellFormed = false := by decide
theorem test_wf_refuses_reserved_bits :
    (CmdFields.mk 0xA false false 1).rsvdOk = false ∧ (CmdFields.mk 0xA false false 1).wellFormed = false := by decide
theorem test_wf_refuses_ivl_on_benc :
    (CmdFields.mk 0x8 true false 0).ivlOk = false ∧ (CmdFields.mk 0x8 true false 0).wellFormed = false := by decide
theorem test_wf_refuses_kx_on_kexp :
    (CmdFields.mk 0x7 false true 0).kxOk = false ∧ (CmdFields.mk 0x7 false true 0).wellFormed = false := by decide
theorem test_wf_accepts_every_command : Instr.all.all Instr.wellFormed = true := by decide

/-! ## Decoding, from words written out in the fields of R90: RSVD (26 bits), KX, IVL, OP -/

theorem test_decode_nop : decode (0#26 ++ 0#1 ++ 0#1 ++ 0b0000#4) = .ok .nop := by decide
theorem test_decode_hinit : decode (0#26 ++ 0#1 ++ 0#1 ++ 0b0001#4) = .ok .hinit := by decide
theorem test_decode_hcomp : decode (0#26 ++ 0#1 ++ 0#1 ++ 0b0010#4) = .ok .hcomp := by decide
theorem test_decode_hupd : decode (0#26 ++ 0#1 ++ 0#1 ++ 0b0011#4) = .ok .hupd := by decide
theorem test_decode_hfin : decode (0#26 ++ 0#1 ++ 0#1 ++ 0b0100#4) = .ok .hfin := by decide
theorem test_decode_hash : decode (0#26 ++ 0#1 ++ 0#1 ++ 0b0101#4) = .ok .hash := by decide
theorem test_decode_hmac : decode (0#26 ++ 0#1 ++ 0#1 ++ 0b0110#4) = .ok .hmac := by decide
theorem test_decode_kexp : decode (0#26 ++ 0#1 ++ 0#1 ++ 0b0111#4) = .ok .kexp := by decide
theorem test_decode_benc : decode (0#26 ++ 1#1 ++ 0#1 ++ 0b1000#4) = .ok (.benc true) := by decide
theorem test_decode_bdec : decode (0#26 ++ 1#1 ++ 0#1 ++ 0b1001#4) = .ok (.bdec true) := by decide
theorem test_decode_cbce : decode (0#26 ++ 0#1 ++ 1#1 ++ 0b1010#4) = .ok (.cbce true false) := by decide
theorem test_decode_cbcd : decode (0#26 ++ 1#1 ++ 0#1 ++ 0b1011#4) = .ok (.cbcd false true) := by decide

/-- R100: the twenty words and the assembler's names, in the order of `Instr.all`. -/
theorem test_decode_all_words :
    Instr.all.map (fun i => (encode i, i.asm)) =
      [(0x00, "NOP"), (0x01, "HINIT"), (0x02, "HCOMP"), (0x03, "HUPD"), (0x04, "HFIN"), (0x05, "HASH"), (0x06, "HMAC")] ++
      [(0x07, "KEXP"), (0x08, "BENC"), (0x28, "BENC.KX"), (0x09, "BDEC"), (0x29, "BDEC.KX"), (0x0A, "CBCE")] ++
      [(0x1A, "CBCE.IV"), (0x2A, "CBCE.KX"), (0x3A, "CBCE.IV.KX"), (0x0B, "CBCD"), (0x1B, "CBCD.IV")] ++
      [(0x2B, "CBCD.KX"), (0x3B, "CBCD.IV.KX")] := by decide

/-- V7: words that are ILLEGAL, with the condition of R94 that holds. -/
theorem test_decode_illegal :
    decode 0x0000000C = .error .reservedOp ∧ decode 0x80000005 = .error .reservedBits ∧
      decode 0x00000018 = .error .ivlNotAllowed ∧ decode 0x00000027 = .error .kxNotAllowed := by decide

/-- The host's entry points on one word: 0x3A is CBCE.IV.KX, and nbits = 32. -/
theorem test_decodeTableWord : decodeTableWord 32 0x3A = some (.cbce true true) ∧ decodeTableWord 32 0x4A = none := by decide
theorem test_withFetchWord : (after (step (State.reset.withFetchWord 32 0x01))).hash.hact = true := by decide

/-! ## Tables and primitives (R46 to R51, V0, V1, V4, V5) -/

/-- R46: the corners of SBOX, and its 256 entries are a permutation (sixteen rows of sixteen, all different). -/
theorem test_sbox : sbox 0x00 = 0xd6 ∧ sbox 0x0F = 0x05 ∧ sbox 0xF0 = 0x18 ∧ sbox 0xFF = 0x48 ∧
    sboxRows.map List.length = List.replicate 16 16 := by decide
theorem test_sbox_permutation : (List.range 256).all (fun v => (List.range 256).any (fun x =>
    sbox (BitVec.ofNat 8 x) == BitVec.ofNat 8 v)) = true := by decide +kernel
/-- R48: the first and the last CK. -/
theorem test_ck : ck 0 = 0x00070E15 ∧ ck 31 = 0x646B7279 := by decide
theorem test_rotl : rotl 0x80000001 1 = 0x00000003 ∧ rotl 0x12345678 32 = 0x12345678 ∧ rotl 0x7A879D8A (-16) = 0x9D8A7A87 := by
  decide
theorem test_packing : be32 [0x61, 0x62, 0x63, 0x80] 0 = 0x61626380 ∧ ser32 0x00000018 = [0, 0, 0, 0x18] ∧
    ser64 448 = [0, 0, 0, 0, 0, 0, 0x01, 0xc0] := by decide
theorem test_permutations : p0 1 = 0x00020201 ∧ p0 0x80000000 = 0x80010100 ∧ p1 1 = 0x00808001 := by decide
theorem test_cipher_helpers : tau 0x01234567 = 0x90F473A2 ∧ tKey 0 = 0x67676767 ∧ tData 0 = 0x5B5B5B5B := by decide +kernel
/-- V4.2: EXPAND(K), all 32 words. -/
theorem test_expandKey : expandKey keyK =
    #v[0xf12186f9, 0x41662b61, 0x5a6ab19a, 0x7ba92077, 0x367360f4, 0x776a0c61, 0xb6bb89b3, 0x24763151,
      0xa520307c, 0xb7584dbd, 0xc30753ed, 0x7ee55b57, 0x6988608c, 0x30d895b7, 0x44ba14af, 0x104495a1,
      0xd120b428, 0x73b55fa3, 0xcc874966, 0x92244439, 0xe89e641f, 0x98ca015a, 0xc7159060, 0x99e1fd2e,
      0xb79bd80c, 0x1d2115b0, 0x0e228aeb, 0xf1780c81, 0x428d3654, 0x62293496, 0x01cf72e5, 0x9124a012] := by decide +kernel

/-! ## Commands, one step each -/

/-- V8: after LEN_ALIGN, NOP clears the code. -/
theorem test_nop : after (exec .nop { p4open with err := .lenAlign }) = p4open := by decide
/-- V2.4, first row; a second HINIT abandons the stream. -/
theorem test_hinit : (after (exec .hinit State.reset)).status = 0x00000100 ∧ (after (exec .hinit State.reset)).hash.hs = hashIv := by
  decide
theorem test_hinit_twice : (after (exec .hinit (p4open.setHash (p4open.hash.absorb [0x61])))).hash = p4open.hash := by decide
/-- V1.5: CF(0, zeros) after reset, at the last block of MEM; one byte further is out of range. -/
theorem test_hcomp_top : (after (exec .hcomp ((at3 0xFFC0 0 0).memWrite 0xFFC0 (zeros 64)))).hash.hs =
    #v[0x2762550f, 0x18134933, 0xba35ce4e, 0x0a757e65, 0x8c0e7205, 0xfe9e4ff6, 0x5ac5c88b, 0xa3649ac2] := by decide +kernel
theorem test_hcomp_range : after (exec .hcomp (at3 0xFFC1 0 0)) = { at3 0xFFC1 0 0 with err := .range } := by decide
/-- V2.4, second row. -/
theorem test_hupd : let t := after (exec .hupd { p3 0 with hash := p4open.hash })
    Csr.hcnt.read t = 3 ∧ Csr.hlenLo.read t = 3 ∧ (Csr.hbuf 0).read t = 0x61626300 ∧ t.hash.hs = hashIv := by decide +kernel
/-- V2.4, fourth row: 65 bytes absorbed; byte 0 of HBUF is new, the rest is the block compressed before. -/
theorem test_hupd_stale : let h := p4open.hash.absorb ((List.replicate 16 [0x61, 0x62, 0x63, 0x64]).flatten ++ [0x65])
    h.hcnt = 1 ∧ h.hlen = 65 ∧ be32 h.hbuf.toList 0 = 0x65626364 ∧ be32 h.hbuf.toList 60 = 0x61626364 ∧
      h.hs[0] = 0x5950de81 := by decide +kernel
/-- V2.6: HFIN of the empty stream, and of 56 bytes of 'a' (two compressions). -/
theorem test_hfin_empty : let t := after (exec .hfin (p4open.setOps { p4.ops with dst := 0x2000 }))
    t.memRead 0x2000 32 = hx 32 0x1ab21d8355cfa17f8e61194831e81a8f22bec8c728fefb747ed035eb5082aa2b ∧ t.hash.hact = false := by
  decide +kernel
theorem test_hfin_two_blocks : (p4open.hash.absorb (rep 0x61 56)).finish.digestBytes =
    hx 32 0xba00ebedaab54065a5fd4f9f56326016203166bcee3eed44ea868d59d67aa3c8 := by decide +kernel
/-- V2.6: HASH in place at the top of MEM; V8: an empty region at any address. -/
theorem test_hash_in_place : (after (exec .hash ((at3 0xFFE0 32 0xFFE0).memWrite 0xFFE0 (zeros 32)))).memRead 0xFFE0 32 =
    hx 32 0xe0bab8f4d8172ba245190d13c94117e93b82166c25b2b69883350c192c905140 := by decide +kernel
theorem test_hash_empty : (after (exec .hash (at3 0xFFFFFFFF 0 0x200))).memRead 0x200 32 =
    hx 32 0x1ab21d8355cfa17f8e61194831e81a8f22bec8c728fefb747ed035eb5082aa2b := by decide +kernel
/-- V3: a key of 16 bytes, and one of 65, which is hashed. -/
theorem test_hmac : (after (exec .hmac (p3 16))).memRead 0x400 32 =
    hx 32 0xa673f5905a6f786cccead2c394198d6716fe523f3c70da9adfdb8abb2da88345 := by decide +kernel
theorem test_hmac_long_key : (after (exec .hmac (p3 65))).memRead 0x400 32 =
    hx 32 0xc9bd297fdbc8e0226a319a26ca78cba39468ec57c6da689cfb7f7317cf182ff0 := by decide +kernel
/-- V4.2, V4.4. -/
theorem test_kexp : (after (exec .kexp p4)).cipher.rk[31] = 0x9124a012 ∧ (after (exec .kexp p4)).status = 0x00000200 := by
  decide +kernel
theorem test_kexp_range : let s := p4.setOps { p4.ops with keyp := 0xFFF1 }
    after (exec .kexp s) = { s with err := .range } := by decide
/-- V5.3. -/
theorem test_benc : let s := p4keyed.setOps { p4.ops with src := 0x500, dst := 0xFFF0 }
    (after (exec (.benc false) s)).memRead 0xFFF0 16 = hx 16 0x681edf34d206965e86b3e94f536e4246 := by decide +kernel
theorem test_benc_kx : (after (exec (.benc true) p4)).memRead 0x600 32 =
    hx 32 0x09325c4853832dcb9337a5984f671b9a00112233445566778899aabbccddeeff := by decide +kernel
theorem test_bdec_kx : let s := p4.memWrite 0x600 (hx 16 0x09325c4853832dcb9337a5984f671b9a)
    (after (exec (.bdec true) s)).memRead 0x600 16 = hx 16 0x00112233445566778899aabbccddeeff := by decide +kernel
/-- V6.2, and V6.6 with DST = SRC + 16. -/
theorem test_cbce : (after (exec (.cbce true true) p4)).memRead 0x600 48 = crypt ∧
    (after (exec (.cbce true true) p4)).cipher.cr = #v[0x5743993c, 0xacdfef24, 0x413162f2, 0x987fdb0b] := by decide +kernel
theorem test_cbce_overlap : (after (exec (.cbce true true) (p4.setOps { p4.ops with dst := 0x610 }))).memRead 0x610 48 =
    hx 48 0x4691e99a3261b6144f6aa68bea48dbbd2677f46b09c122cc975533105bd4a22a2677f46b09c122cc975533105bd4a22a := by
  decide +kernel
/-- P4's second command; V6.5, a wrong key. -/
theorem test_cbcd : (after (exec (.cbcd true false) (p4keyed.memWrite 0x600 crypt))).memRead 0x600 48 = plain := by
  decide +kernel
theorem test_cbcd_wrong_key :
    let s := (p4.memWrite 0x600 crypt).memWrite 0x500 (hx 16 0xfedcba98765432100123456789abcdef)
    (after (exec (.cbcd true true) s)).memRead 0x600 48 =
      hx 48 0x750b5fd19cdb752086c256cc77b0061da3a156d92799503af99ce4693a04ca1c5503c181346fb29eb28d6d6fbb83dfc6 := by
  decide +kernel

/-! ## Errors (V8) and the host's accesses (V9) -/

/-- STATUS after one failed command for each code, as V8 and P6 print it. -/
theorem test_status_codes :
    (after (step (cmdNext 0x0C State.reset))).status = 0x00000001 ∧
    (after (step (cmdNext 0x05 (at3 0xFFF0 0x20 0x200)))).status = 0x00000002 ∧
    (after (step (cmdNext 0x08 State.reset))).status = 0x00000003 ∧
    (after (step (cmdNext 0x03 State.reset))).status = 0x00000004 ∧
    (after (step (cmdNext 0x2A (at3 0x600 0x0F 0x600)))).status = 0x00000006 ∧
    (after (step (cmdNext 0x03 { at3 0 2 0 with hash := { p4open.hash with hlen := BitVec.ofNat 64 (2 ^ 61 - 2) } }))).status =
      0x00000107 := by decide
theorem test_error_order :
    checkWord 0x2A (at3 0 15 0) = .lenAlign ∧ checkWord 0x0A (at3 0 15 0) = .noKey ∧
      checkWord 0x05 (at3 0xFFFFFFF0 0x20 0) = .range ∧ checkWord 0x03 (at3 0xFFFF 2 0) = .noCtx ∧
      checkWord 0x4A p4open = .illegal ∧ checkWord 0x06 p4open = .ctxBusy := by decide
theorem test_len_ovf : let h := { p4open.hash with hlen := BitVec.ofNat 64 (2 ^ 61 - 2) }
    checkWord 0x03 { at3 0 2 0 with hash := h } = .lenOvf ∧ checkWord 0x03 { at3 0 1 0 with hash := h } = .ok := by decide
theorem test_status_busy : (after (step (cmdNext 0x05 p4open))).status = 0x00000105 := by decide
theorem test_read_reserved : (after (step (p4keyed.setInputs [.csrRead 0x05C 4]))).resp = .word 0 := by decide
theorem test_read_rk : (after (step (p4keyed.setInputs [.csrRead 0x17C 4]))).resp = .word 0x9124a012 := by decide +kernel
theorem test_write_ro : after (step (p4.setInputs [.csrWrite 0x100 4 0x12345678])) = p4.setResp .accepted := by decide
theorem test_write_hs : let t := after (step (p4open.setInputs [.csrWrite 0x020 4 0xDEADBEEF]))
    t.hash.hs[0] = 0xDEADBEEF ∧ t.hash.hact = true := by decide
theorem test_byte_write_to_cmd : after (step (p4.setInputs [.csrWrite 0x000 1 0x05])) = p4.setResp (.busError 0) := by decide
theorem test_reset : (after (step (p4keyed.setInputs [.reset]))).status = 0 := by decide

/-! ## Witnesses: for each statement with hypotheses, concrete inputs that meet them, clause by clause -/

/-- Every command answers a next state, so a hypothesis `exec i s = .next t` is met in every state. -/
theorem exec_answers (i : Instr) (s : State) : ∃ t, exec i s = .next t := by
  simp only [exec_eq, runCommand]; split <;> exact ⟨_, rfl⟩

/-- A state whose next input is `x`. -/
def inputNext (x : Input) (s : State) : State := s.setInputs [x]

theorem witness_IllegalExactlyUnderFourConditions :
    ((0xC : Word).toNat % 16 = 0xC ∧ (0x80000000 : Word).toNat / 64 ≠ 0 ∧ (0x40 : Word).toNat / 64 ≠ 0 ∧
      ((0x19 : Word).getLsbD 4 = true ∧ (0x19 : Word).toNat % 16 = 9) ∧
      ((0x27 : Word).getLsbD 5 = true ∧ (0x27 : Word).toNat % 16 = 7)) ∧
    (cmdNext 0x27 p4).nextIsCommand 0x27 [.csrRead 0 4] := ⟨by decide, rfl⟩

theorem witness_StepRunsDecodedCommand :
    (cmdNext 0x3A p4).nextIsCommand 0x3A [.csrRead 0 4] ∧ decode 0x3A = .ok (.cbce true true) := ⟨rfl, by decide⟩

/-- The first MEM byte that does not exist, and the first and last host addresses outside the window. -/
theorem witness_OnlyStrayHostAccessesStop :
    step (inputNext (.memRead 0x10000 1) p4) = .fault .hostMemRange ∧
    step (inputNext (.memWrite 0xFFFF [0, 0]) p4) = .fault .hostMemRange ∧
    step (inputNext (.csrRead 0x1000 4) p4) = .refused .outsideWindow ∧
    step (inputNext (.csrWrite 0x1FFF 4 0) { p4 with cfg := { p4.cfg with csrBase := 0x2000 } }) = .refused .outsideWindow :=
  ⟨rfl, rfl, rfl, rfl⟩

/-- One word and state for each of the eight clauses, in order. -/
theorem witness_CheckReportsFirstFailingTest :
    let ovf := { at3 0 2 0 with hash := { p4open.hash with hlen := BitVec.ofNat 64 (2 ^ 61 - 2) } }
    illegal 0x0000000F = true ∧
    (illegal 0x03 = false ∧ (0x03 : Word).toNat % 16 = 3 ∧ (at3 0xFFFF 2 0).hash.hact = false) ∧
    (illegal 0x05 = false ∧ (0x05 : Word).toNat % 16 = 5 ∧ p4open.hash.hact = true) ∧
    (illegal 0x0A = false ∧ (0x0A : Word).toNat % 16 = 10 ∧ (0x0A : Word).getLsbD 5 = false ∧
      (at3 0 15 0).cipher.kvalid = false) ∧
    (illegal 0x2A = false ∧ (0x2A : Word).toNat % 16 = 10 ∧ (0x2A : Word).getLsbD 5 = true ∧
      (at3 0 15 0).ops.len.toNat % 16 ≠ 0) ∧
    (ovf.hash.hact = true ∧ ovf.hash.hlen.toNat + ovf.ops.len.toNat > 2 ^ 61 - 1) ∧
    (illegal 0x02 = false ∧ (0x02 : Word).toNat % 16 = 2 ∧ ¬ (at3 0xFFC1 0 0).has (at3 0xFFC1 0 0).ops.src 64) ∧
    (illegal 0x02 = false ∧ (0x02 : Word).toNat % 16 = 2 ∧ (at3 0xFFC0 0 0).has (at3 0xFFC0 0 0).ops.src 64) := by decide
/-- The edge of MEM for each length a command uses. -/
theorem witness_CheckReports_range :
    (¬ State.reset.has 0xFFC1 64 ∧ State.reset.has 0xFFC0 64) ∧ (¬ State.reset.has 0xFFE1 32 ∧ State.reset.has 0xFFE0 32) ∧
    (¬ State.reset.has 0xFFF1 16 ∧ State.reset.has 0xFFF0 16) ∧ (¬ State.reset.has 0xFFFFFFF0 0x20 ∧
      State.reset.has 0xFFFFFFFF 0) := by decide

theorem witness_FailedCommandHasExactlyTwoEffects :
    (cmdNext 0x05 p4open).nextIsCommand 0x05 [.csrRead 0 4] ∧ checkWord 0x05 (cmdNext 0x05 p4open) ≠ .ok := ⟨rfl, by decide⟩

theorem witness_ErrDescribesLatestCommand :
    (∃ t, step (inputNext (.csrWrite 0 4 0x08) p4) = .next t) ∧
    (∃ t, step (inputNext (.csrWrite 4 4 0x08) p4) = .next t) ∧ (Input.csrWrite 4 4 0x08).isReset = false ∧
    (∀ w, Input.csrWrite 4 4 0x08 ≠ .csrWrite 0 4 w) := ⟨⟨_, rfl⟩, ⟨_, rfl⟩, rfl, by intro w h; cases h⟩

theorem witness_NopOnlyClearsErr : (cmdNext 0 p4open).nextIsCommand 0 [.csrRead 0 4] ∧ (0x20 : Word).toNat % 16 = 0 ∧
    (0x20 : Word) ≠ 0 := ⟨rfl, by decide⟩
theorem witness_HinitOpensFreshStream : p4open.cipher.kvalid = false ∧ (0x11 : Word).toNat % 16 = 1 ∧ (0x11 : Word) ≠ 1 := by
  decide
theorem witness_HcompCompressesOneBlock : (at3 0xFFC0 0 0).has 0xFFC0 64 ∧ ¬ (at3 0xFFC1 0 0).has 0xFFC1 64 ∧
    (0x80000002 : Word).toNat % 16 = 2 ∧ (0x80000002 : Word) ≠ 2 := by decide

/-- HUPD: a last byte that fits, no stream, one byte too many, a region out of range, LEN = 0, and a full buffer. -/
theorem witness_HupdAbsorbsRegion :
    (let s := { at3 0xFFFF 1 0 with hash := { p4open.hash with hlen := BitVec.ofNat 64 (2 ^ 61 - 2) } }
     s.hash.hact = true ∧ s.hash.hlen.toNat + s.ops.len.toNat ≤ 2 ^ 61 - 1 ∧ s.has s.ops.src s.ops.len.toNat) ∧
    (at3 0xFFFF 1 0).hash.hact = false ∧
    (let s := { at3 0xFFFF 2 0 with hash := { p4open.hash with hlen := BitVec.ofNat 64 (2 ^ 61 - 2) } }
     s.hash.hact = true ∧ ¬ s.hash.hlen.toNat + s.ops.len.toNat ≤ 2 ^ 61 - 1) ∧
    (let s := { at3 0xFFFF 2 0 with hash := p4open.hash }
     s.hash.hact = true ∧ s.hash.hlen.toNat + s.ops.len.toNat ≤ 2 ^ 61 - 1 ∧ ¬ s.has s.ops.src s.ops.len.toNat) ∧
    (let s := { at3 0xFFFFFFFF 0 0 with hash := p4open.hash }
     s.hash.hact = true ∧ s.hash.hlen.toNat + s.ops.len.toNat ≤ 2 ^ 61 - 1 ∧ s.ops.len = 0) ∧
    ({ p4open.hash with hcnt := 63 }.hcnt.val + [(0x65 : Byte)].length = 64) ∧
    (0x43 : Word).toNat % 16 = 3 ∧ (0x43 : Word) ≠ 3 := by decide

/-- No full chunk, and one: 63 pending bytes and none or one more. -/
theorem witness_AbsorbCompressesFullChunks : let h := { p4open.hash with hcnt := 63 }
    (h.hbuf.toList.take h.hcnt.val ++ []).length / 64 = 0 ∧ 0 < (h.hbuf.toList.take h.hcnt.val ++ [0x65]).length / 64 := by
  decide

theorem witness_HfinWritesDigestAndCloses :
    (let s := p4open.setOps { p4.ops with dst := 0xFFE0 }
     s.hash.hact = true ∧ s.has s.ops.dst 32) ∧ p4.hash.hact = false ∧
    (let s := p4open.setOps { p4.ops with dst := 0xFFE1 }
     s.hash.hact = true ∧ ¬ s.has s.ops.dst 32) ∧ (0x14 : Word).toNat % 16 = 4 ∧ (0x14 : Word) ≠ 4 := by decide
/-- The longest message. -/
theorem witness_DigestIsHashOfPaddedMessage : (zeros (2 ^ 61 - 1)).length ≤ 2 ^ 61 - 1 := by
  rw [zeros, List.length_replicate]
theorem witness_HashWritesHashOfRegion :
    (let s := at3 0xFFE0 32 0xFFE0
     s.hash.hact = false ∧ s.has s.ops.src s.ops.len.toNat ∧ s.has s.ops.dst 32) ∧ p4open.hash.hact = true ∧
    (let s := at3 0xFFE0 33 0xFFE0
     s.hash.hact = false ∧ ¬ (s.has s.ops.src s.ops.len.toNat ∧ s.has s.ops.dst 32)) ∧
    (0x25 : Word).toNat % 16 = 5 ∧ (0x25 : Word) ≠ 5 := by decide

/-- "abc" in MEM in three pieces, one of them empty at an address outside MEM; and the state in which HASH reads it whole. -/
theorem witness_SplitStreamGivesSameDigest :
    let s := p3 0
    let pieces : List StreamPiece := [⟨[], 0x100, 1⟩, ⟨[], 0x20000, 0⟩, ⟨[], 0x101, 2⟩]
    let m := streamMessage pieces s
    Mem.wf s.mem ∧ (∀ p ∈ pieces, s.has p.src p.len.toNat ∧ ∀ w ∈ p.writes, w.1 + w.2.length ≤ s.cfg.memBytes) ∧
      s.has 0xFFE0 32 ∧ m.length ≤ 2 ^ 61 - 1 ∧ check .hash s = .ok ∧ s.memRead s.ops.src.toNat s.ops.len.toNat = m :=
  ⟨by decide, by simp [State.has, p3, State.reset, Config.chosen], by decide, by decide, by decide, by decide⟩
/-- A MEM of 32 bytes, and a message of 48: the host writes each piece over the one before, up to the last byte of MEM. -/
theorem witness_SplitStream_longer_than_mem :
    let s := { State.reset with cfg := { memBytes := 32, csrBase := 0x2000 } }
    let pieces : List StreamPiece := [⟨[(0, plain.take 32)], 0, 32⟩, ⟨[(16, plain.drop 32)], 16, 16⟩]
    Mem.wf s.mem ∧ (∀ p ∈ pieces, s.has p.src p.len.toNat ∧ ∀ w ∈ p.writes, w.1 + w.2.length ≤ s.cfg.memBytes) ∧
      s.has 0 32 ∧ streamMessage pieces s = plain ∧ s.cfg.memBytes < plain.length :=
  ⟨by decide, by simp [State.has, plain, hx], by decide, by decide +kernel, by decide⟩

theorem witness_HmacWritesMacOfKeyAndData :
    (let s := p3 65
     s.hash.hact = false ∧ s.has s.ops.keyp s.ops.klen.toNat ∧ s.has s.ops.src s.ops.len.toNat ∧ s.has s.ops.dst 32) ∧
    p4open.hash.hact = true ∧
    (let s := (p3 16).setOps { (p3 16).ops with keyp := 0xFFF1 }
     s.hash.hact = false ∧ ¬ s.has s.ops.keyp s.ops.klen.toNat) ∧ (0x16 : Word).toNat % 16 = 6 ∧ (0x16 : Word) ≠ 6 := by
  decide

/-- Two states that differ in the cipher context, in DST and in RK, and agree on the key and the data. -/
theorem witness_HmacTagDependsOnKeyAndDataOnly :
    let s := p3 16
    let s' := ((p3 16).setCipher { CipherCtx.reset with cr := Vector.replicate 4 7 }).setOps { (p3 16).ops with dst := 0xFFE0 }
    Mem.wf s.mem ∧ Mem.wf s'.mem ∧ check .hmac s = .ok ∧ check .hmac s' = .ok ∧
      s.memRead s.ops.keyp.toNat s.ops.klen.toNat = s'.memRead s'.ops.keyp.toNat s'.ops.klen.toNat ∧
      s.memRead s.ops.src.toNat s.ops.len.toNat = s'.memRead s'.ops.src.toNat s'.ops.len.toNat := by decide

theorem witness_PackingIsBigEndian : 1 < [(0x61626380 : Word), 0x18].length := by decide
theorem witness_ExpansionFollowsRecurrence : 15 < 16 ∧ 16 ≤ 67 ∧ 67 < 68 ∧ 63 < 64 := by decide
theorem witness_RoundConstantsRotateByIndex : 15 ≤ 15 ∧ 16 ≤ 16 ∧ 63 ≤ 63 := by decide
theorem witness_CompressionRunsSixtyFourRounds : 15 ≤ 15 ∧ 63 < 64 := by decide
theorem witness_ScheduleFollowsRecurrence : 31 < 32 := by decide
theorem witness_TransformFollowsRecurrence : 3 < 4 := by decide
theorem witness_KexpExpandsKeyAtKeyp : p4.has 0xFFF0 16 ∧ ¬ p4.has 0xFFF1 16 ∧ (0x27 : Word).toNat % 16 = 7 ∧
    (0x27 : Word) ≠ 7 := by decide
theorem witness_TransformDirectionsAreInverse : keyK.length = 16 := by decide

/-- Keyed by the schedule and by KX; not keyed; keyed and out of range. -/
theorem witness_BlockCommandsTransformOneBlock :
    (p4keyed.cipher.kvalid = true ∧ p4keyed.has 0xFFF0 16 ∧ p4keyed.has p4.ops.keyp 16) ∧ p4.cipher.kvalid = false ∧
    ¬ p4keyed.has 0xFFF1 16 ∧ ((0x18 : Word).toNat % 16 = 8 ∧ (0x18 : Word).getLsbD 4 = true) ∧
    ((0x49 : Word).toNat % 16 = 9 ∧ (0x49 : Word).toNat / 64 ≠ 0) := by decide

/-- The same for the chained commands: keyed and whole blocks in range (none, and up to the end of MEM); not keyed; a
length that is no multiple of 16; a region out of range. -/
theorem witness_CbceRunsBlockByBlock :
    (p4keyed.cipher.kvalid = true ∧ p4.ops.len.toNat % 16 = 0 ∧ p4.has p4.ops.keyp 16 ∧ p4.has p4.ops.ivp 16 ∧
      p4.has 0xFFD0 48 ∧ p4.has 0xFFFFFFFF 0) ∧ p4.cipher.kvalid = false ∧ (at3 0 31 0).ops.len.toNat % 16 ≠ 0 ∧
    ¬ p4.has 0xFFD1 48 ∧ (0x4A : Word).toNat % 16 = 10 ∧ (0x4A : Word).toNat / 64 ≠ 0 := by decide
theorem witness_CbcdRunsBlockByBlock : check (.cbcd true true) p4 = .ok ∧ check (.cbcd true false) p4keyed = .ok ∧
    check (.cbcd false false) p4 = .noKey ∧ check (.cbcd true true) (at3 0 17 0) = .lenAlign ∧
    check (.cbcd true true) (at3 0xFFF8 16 0) = .range ∧ (0x4B : Word).toNat % 16 = 11 ∧ (0x4B : Word).toNat / 64 ≠ 0 := by
  decide

/-- In place, and with regions that touch. -/
theorem witness_ChainedCommandsMatchListForm :
    Mem.wf p4.mem ∧ p4.ops.src = p4.ops.dst ∧ disjoint 0x600 48 0x630 48 ∧ check (.cbce true true) p4 = .ok ∧
      check (.cbcd true true) (p4.setOps { p4.ops with dst := 0x630 }) = .ok := by decide
/-- Decrypting over the ciphertext, and to the buffer just behind it. -/
theorem witness_ChainedDecryptRecoversPlaintext :
    Mem.wf p4.mem ∧ check (.cbce true true) p4 = .ok ∧ p4.ops.src = p4.ops.dst ∧
      disjoint p4.ops.keyp.toNat 16 p4.ops.dst.toNat p4.ops.len.toNat ∧
      disjoint p4.ops.ivp.toNat 16 p4.ops.dst.toNat p4.ops.len.toNat ∧
      p4.has p4.ops.dst p4.ops.len.toNat ∧ p4.has 0x630 p4.ops.len.toNat ∧
      disjoint p4.ops.dst.toNat p4.ops.len.toNat 0x630 p4.ops.len.toNat := by decide
theorem witness_WrongIvAltersOnlyFirstBlock : ivB.length = 16 ∧ (rep 0xff 16).length = 16 ∧ (plain.take 16).length = 16 ∧
    (∀ q ∈ [(plain.drop 16).take 16, plain.drop 32], q.length = 16) := by decide
theorem witness_ContinuationEqualsOneCommand : p4.cfg.wf = true ∧ check (.cbce true true) p4 = .ok ∧
    check (.cbcd true false) p4keyed = .ok ∧ (0 : Word).toNat % 16 = 0 ∧ (48 : Word).toNat % 16 = 0 ∧
    (48 : Word).toNat ≤ p4.ops.len.toNat := by decide

/-! The frames and the rules of the whole machine: `exec_answers` meets `exec i s = .next t` in every state. -/

theorem witness_CommandsKeepOperandsAndCmd : ∃ t, exec (.cbcd true true) p4 = .next t := exec_answers _ _
/-- The bytes just before and just after the write region, and a command whose check fails. -/
theorem witness_MemoryOutsideWriteRegionKept : Mem.wf p4.mem ∧ (∃ t, exec .hmac p4 = .next t) ∧
    ¬ (0x600 ≤ 0x5FF ∧ 0x5FF < 0x600 + 32) ∧ ¬ (0x600 ≤ 0x620 ∧ 0x620 < 0x600 + 32) ∧ check (.benc false) p4 ≠ .ok :=
  ⟨by decide, exec_answers _ _, by decide, by decide, by decide⟩
theorem witness_HashCommandsKeepCipherContext : (∃ t, exec .hupd p4open = .next t) ∧ check .hupd p4open = .ok :=
  ⟨exec_answers _ _, by decide⟩
theorem witness_CipherCommandsKeepHashContext : (∃ t, exec (.cbce true false) p4keyed = .next t) ∧
    check (.cbce true false) p4keyed = .ok := ⟨exec_answers _ _, by decide⟩
theorem witness_ReadOnlyCommandsWriteNoMemory : (∃ t, exec .kexp p4 = .next t) ∧ check .kexp p4 = .ok :=
  ⟨exec_answers _ _, by decide⟩

/-- A state with an open stream, a schedule and written memory meets the invariant, and its next step takes HUPD. -/
theorem witness_StepKeepsInvariant :
    let s := cmdNext 0x03 { p4keyed with hash := p4open.hash }
    s.Inv ∧ ∃ t, step s = .next t := by
  refine ⟨⟨by decide, by decide, by decide, by decide, fun _ => ⟨keyK, by decide, rfl⟩, fun h => ?_⟩, _, rfl⟩
  cases h

theorem witness_CmdHoldsLastWordWritten :
    (∃ t, step (inputNext (.csrWrite 0 4 0xFFFFFFFF) p4) = .next t) ∧
    (∃ t, step (inputNext (.csrWrite 0 2 0x01) p4) = .next t) ∧ (∀ w, Input.csrWrite 0 2 0x01 ≠ .csrWrite 0 4 w) ∧
    (Input.csrWrite 0 2 0x01).isReset = false := ⟨⟨_, rfl⟩, ⟨_, rfl⟩, fun _ h => (by cases h), rfl⟩
theorem witness_HactSetByHinitClearedByHfin :
    (∃ t, exec .hinit p4 = .next t) ∧ ((∃ t, exec .hfin p4open = .next t) ∧ check .hfin p4open = .ok ∧
      check .hfin p4 ≠ .ok) ∧ (∃ t, exec .hash p4 = .next t) ∧ p4.hash.hact = false ∧ p4open.hash.hact = true ∧
    (∃ t, step (inputNext .reset p4open) = .next t) ∧ (∃ t, step (inputNext (.csrWrite 0x020 4 1) p4open) = .next t) :=
  ⟨exec_answers _ _, ⟨exec_answers _ _, by decide⟩, exec_answers _ _, rfl, rfl, ⟨_, rfl⟩, ⟨_, rfl⟩⟩

/-- A step that expands a key, by KEXP and by KX = 1; one whose check fails; one that is a reset. -/
theorem witness_KvalidSetOnlyByExpansion :
    (∃ t, step (inputNext (.csrWrite 0 4 0x07) p4) = .next t) ∧ decode 0x07 = .ok .kexp ∧ check .kexp p4 = .ok ∧
    decode 0x2A = .ok (.cbce false true) ∧ expandsKey (.cbce false true) = true ∧ check (.cbce false true) p4 = .ok ∧
    check .kexp (p4.setOps { p4.ops with keyp := 0xFFF1 }) ≠ .ok ∧ Input.reset.isReset = true ∧ p4.cipher.kvalid = false :=
  ⟨⟨_, rfl⟩, by decide⟩
theorem witness_RkWrittenOnlyByExpansion :
    (∃ t, step (inputNext (.csrWrite 0 4 0x28) p4) = .next t) ∧ decode 0x28 = .ok (.benc true) ∧
    expandsKey (.benc true) = true ∧ check (.benc true) p4 = .ok ∧ (Input.csrWrite 0 4 0x28).isReset = false ∧
    (∃ t, step (inputNext (.memWrite 0x500 (zeros 16)) p4keyed) = .next t) ∧ (Input.memWrite 0x500 (zeros 16)).isReset = false :=
  ⟨⟨_, rfl⟩, by decide, rfl, by decide, rfl, ⟨_, rfl⟩, rfl⟩

theorem witness_CsrOffsetsAreUnambiguous : 0x17C % 4 = 0 ∧ Csr.ofOffset 0x17C = some (.rk 31) := by decide
theorem witness_CsrReadHasNoSideEffect :
    (inputNext (.csrRead 0xFFC 4) p4).inputs = [.csrRead (p4.cfg.csrBase + 0xFFC) 4] ∧ 0xFFC < 4096 ∧ 0xFFC % 4 = 0 ∧
      (Csr.rk 31).offset = 0x17C := by decide
/-- The first and the last offset of each reserved range are no register's. -/
theorem witness_ReservedOffsetsReadZeroIgnoreWrites :
    Csr.ofOffset 0x05C = none ∧ Csr.ofOffset 0x0A0 = none ∧ Csr.ofOffset 0x0FC = none ∧ Csr.ofOffset 0x180 = none ∧
      Csr.ofOffset 0xFFC = none ∧ 0xFFC < 4096 ∧ 0xFFC % 4 = 0 ∧ (∀ r : Csr, r.offset ≠ 0x05C) :=
  ⟨by decide, by decide, by decide, by decide, by decide, by decide, by decide, fun r => by
    cases r <;> simp only [Csr.offset] <;> omega⟩
theorem witness_HostWriteSetsOneRegister :
    (inputNext (.csrWrite 0x04C 4 0x11111111) p4).inputs = [.csrWrite (p4.cfg.csrBase + (Csr.cr 3).offset) 4 0x11111111] ∧
    Csr.ivp ∈ [Csr.src, .dst, .len, .keyp, .klen, .ivp] := by decide
theorem witness_HostWriteToReadOnlyIgnored :
    (inputNext (.csrWrite 0x004 4 0xFFFFFFFF) p4).inputs = [.csrWrite (p4.cfg.csrBase + Csr.status.offset) 4 0xFFFFFFFF] ∧
    Csr.status ∈ [Csr.status, .hcnt, .hlenLo, .hlenHi] ∧ Csr.status.offset < 4096 ∧ Csr.status.offset % 4 = 0 := by decide
theorem witness_MalformedCsrAccessHasNoEffect :
    (inputNext (.csrWrite 0x000 1 5) p4).inputs = [.csrWrite (p4.cfg.csrBase + 0) 1 5] ∧ (1 ≠ 4 ∨ 0 % 4 ≠ 0) ∧
    (inputNext (.csrRead 0xFFF 4) p4).inputs = [.csrRead (p4.cfg.csrBase + 0xFFF) 4] ∧ (4 ≠ 4 ∨ 0xFFF % 4 ≠ 0) := by decide
/-- A read of the last byte of MEM and one of no bytes; a write of the last two bytes and one of none; and a write with a
read that starts before it. -/
theorem witness_HostReadSeesHostWrite :
    Mem.wf p4.mem ∧ (inputNext (.memRead 0xFFFF 1) p4).inputs = .memRead 0xFFFF 1 :: [] ∧ 0xFFFF + 1 ≤ p4.cfg.memBytes ∧
    (inputNext (.memRead 0x20000 0) p4).inputs = .memRead 0x20000 0 :: [] ∧
    (inputNext (.memWrite 0xFFFE [0xAB, 0xCD]) p4).inputs = .memWrite 0xFFFE [0xAB, 0xCD] :: [] ∧
    (inputNext (.memWrite 0x20000 []) p4).inputs = .memWrite 0x20000 [] :: [] ∧
    (let s := p4.setInputs [.memWrite 0xFFFE [0xAB, 0xCD], .memRead 0xFFF0 16]
     s.inputs = .memWrite 0xFFFE [0xAB, 0xCD] :: .memRead 0xFFF0 16 :: [] ∧ 0xFFFE + 2 ≤ s.cfg.memBytes ∧
      0xFFF0 + 16 ≤ s.cfg.memBytes) := by decide
theorem witness_ResetClearsEveryRegister : (inputNext .reset p4keyed).inputs = .reset :: [] ∧
    (inputNext .powerUp p4keyed).inputs = .powerUp :: [] ∧
    (inputNext (.resetDuring 0x05) p4keyed).inputs = .resetDuring 0x05 :: [] := ⟨rfl, rfl, rfl⟩
/-- A command that would have run, and an address it does not store to; one that its check would refuse. -/
theorem witness_ResetDuringCommandSparesOtherMemory :
    Mem.wf (inputNext (.resetDuring 0x05) p4).mem ∧ (inputNext (.resetDuring 0x05) p4).inputs = .resetDuring 0x05 :: [] ∧
    storesTo .hash p4.ops 0x620 = false ∧ storesTo .hash p4.ops 0x61F = true ∧ checkWord 0x05 p4open ≠ .ok := by decide

end Sys2Proof.Tests
end

section
/-! PROOFS of the family 00_scope.md: rotation (R11) and the big-endian packings (R12). -/

namespace Sys2Proof.Machine

/-! ## Rotation (R11) -/

theorem rotl_eq_rotateLeft (x : Word) (n : Int) : rotl x n = x.rotateLeft (n % 32).toNat := by
  have hm : (n % 32).toNat < 32 := by omega
  simp only [rotl, BitVec.rotateLeft_def, Nat.mod_eq_of_lt hm]
  split
  · next h => simp [h, BitVec.ushiftRight_eq_zero]
  · rfl

theorem rotl_add_32 (x : Word) (n : Int) : rotl x (n + 32) = rotl x n := by
  rw [rotl_eq_rotateLeft, rotl_eq_rotateLeft, Int.add_emod_right]

theorem rotateLeft_sub_eq_rotateRight (x : Word) {r : Nat} (hpos : 0 < r) (hr : r < 32) :
    x.rotateLeft (32 - r) = x.rotateRight r := by
  have hsub : 32 - (32 - r) = r := by omega
  rw [BitVec.rotateLeft_def, BitVec.rotateRight_def, Nat.mod_eq_of_lt hr,
    Nat.mod_eq_of_lt (by omega : 32 - r < 32), hsub, BitVec.or_comm]

/-- The amount 0 apart, a rotation right by `k % 32` is one left by `32 - k % 32`, which is `-k` modulo 32. -/
theorem rotl_neg_eq_rotateRight (x : Word) (k : Nat) : rotl x (-(k : Int)) = x.rotateRight (k % 32) := by
  rw [rotl_eq_rotateLeft]
  obtain h0 | hpos := Nat.eq_zero_or_pos (k % 32)
  · have hm : (-(k : Int) % 32).toNat = 0 := by omega
    simp [hm, h0, BitVec.rotateLeft_def, BitVec.rotateRight_def, BitVec.ushiftRight_eq_zero]
  · have hm : (-(k : Int) % 32).toNat = 32 - k % 32 := by omega
    rw [hm, rotateLeft_sub_eq_rotateRight x hpos (Nat.mod_lt _ (by decide))]

/-- Settles O24, from the reading of `rotl` as the library's rotations. -/
theorem rotlTakesAmountModulo32 : Obligations.RotlTakesAmountModulo32 :=
  fun x n => ⟨rotl_eq_rotateLeft x n, rotl_add_32 x n, rotl_neg_eq_rotateRight x⟩

/-! ## Packing (R12) -/

theorem toNat_append_eq_mul_add {m n : Nat} (x : BitVec m) (y : BitVec n) :
    (x ++ y).toNat = x.toNat * 2 ^ n + y.toNat := by
  rw [BitVec.toNat_append, ← Nat.shiftLeft_add_eq_or_of_lt y.isLt, Nat.shiftLeft_eq]

theorem toNat_be32 (b : List Byte) (i : Nat) :
    (be32 b i).toNat = (b.getD i 0).toNat * 2 ^ 24 + (b.getD (i + 1) 0).toNat * 2 ^ 16 +
      (b.getD (i + 2) 0).toNat * 2 ^ 8 + (b.getD (i + 3) 0).toNat := by
  simp only [be32, toNat_append_eq_mul_add]
  omega

theorem map_toNat_ser32 (x : Word) : (ser32 x).map BitVec.toNat =
    [x.toNat / 2 ^ 24, x.toNat / 2 ^ 16 % 256, x.toNat / 2 ^ 8 % 256, x.toNat % 256] := by
  have htop : x.toNat / 2 ^ 24 < 2 ^ 8 := by omega
  simpa [ser32, Nat.shiftRight_eq_div_pow] using htop

theorem map_toNat_ser64 (v : BitVec 64) : (ser64 v).map BitVec.toNat =
    (List.range 8).map (fun k => v.toNat / 2 ^ (8 * (7 - k)) % 256) := by
  simp [ser64, Nat.shiftRight_eq_div_pow, List.range_succ]

theorem getElem_words4 (b : List Byte) (i : Fin 4) : (words4 b)[i] = be32 b (4 * i.val) := by
  fin_cases i <;> rfl

theorem serw_cons (w : Word) (ws : List Word) : serw (w :: ws) = ser32 w ++ serw ws := rfl

/-- The four bytes of word `k` stand at byte `4 * k`. -/
theorem take_drop_serw (ws : List Word) (k : Nat) (hk : k < ws.length) :
    ((serw ws).drop (4 * k)).take 4 = ser32 (ws.getD k 0) := by
  induction ws generalizing k with
  | nil => simp at hk
  | cons w ws ih =>
    cases k with
    | zero => exact List.take_left' (length_ser32 w)
    | succ k =>
      have hdrop : (serw (w :: ws)).drop (4 * (k + 1)) = (serw ws).drop (4 * k) := by
        rw [serw_cons, Nat.mul_succ, Nat.add_comm, ← List.drop_drop, List.drop_left' (length_ser32 w)]
      rw [hdrop, List.getD_cons_succ]
      exact ih k (Nat.lt_of_succ_lt_succ hk)

/-- Settles O25, one lemma for each packing. -/
theorem packingIsBigEndian : Obligations.PackingIsBigEndian :=
  ⟨toNat_be32, map_toNat_ser32, map_toNat_ser64, getElem_words4, take_drop_serw⟩

end Sys2Proof.Machine
end

section
/-! PROOFS of the family 10_state.md: the CSR map and what the registers read (R32 to R45). -/

namespace Sys2Proof.Machine

/-! ## The CSR map (R32, R45) -/

/-- The aligned offsets R45 reserves; 0x180 and above are all that is left of the window. -/
def reservedOffset (o : Nat) : Prop := o = 0x05C ∨ (0x0A0 ≤ o ∧ o < 0x100) ∨ 0x180 ≤ o

theorem Csr.ofOffset_offset (r : Csr) : Csr.ofOffset r.offset = some r := by
  cases r with
  | hs i => revert i; decide
  | cr i => revert i; decide
  | hbuf i => revert i; decide
  | rk i => revert i; decide
  | _ => rfl

theorem Csr.ofOffset_of_reserved {o : Nat} (h : reservedOffset o) : Csr.ofOffset o = none := by
  unfold reservedOffset at h
  simp (disch := omega) only [Csr.ofOffset, if_neg, dif_neg]

/-- The arrays and the single registers leave no aligned offset below 0x180 but the reserved ones. -/
theorem exists_offset_or_reserved {o : Nat} (h4 : o % 4 = 0) : (∃ r : Csr, r.offset = o) ∨ reservedOffset o := by
  by_contra hcon
  obtain ⟨hnone, hres⟩ := not_or.mp hcon
  have hne (r : Csr) : o ≠ r.offset := fun h => hnone ⟨r, h.symm⟩
  have hhs : ¬ (0x020 ≤ o ∧ o < 0x040) := fun h =>
    hne (.hs ⟨(o - 0x020) / 4, by omega⟩) (by simp only [Csr.offset]; omega)
  have hcr : ¬ (0x040 ≤ o ∧ o < 0x050) := fun h =>
    hne (.cr ⟨(o - 0x040) / 4, by omega⟩) (by simp only [Csr.offset]; omega)
  have hhbuf : ¬ (0x060 ≤ o ∧ o < 0x0A0) := fun h =>
    hne (.hbuf ⟨(o - 0x060) / 4, by omega⟩) (by simp only [Csr.offset]; omega)
  have hrk : ¬ (0x100 ≤ o ∧ o < 0x180) := fun h =>
    hne (.rk ⟨(o - 0x100) / 4, by omega⟩) (by simp only [Csr.offset]; omega)
  have hsingle : ∀ r ∈ [Csr.cmd, .status, .src, .dst, .len, .keyp, .klen, .ivp, .hcnt, .hlenLo, .hlenHi],
      o ≠ r.offset := fun r _ => hne r
  simp only [List.forall_mem_cons, Csr.offset] at hsingle
  unfold reservedOffset at hres
  omega

theorem Csr.offset_of_ofOffset {o : Nat} {r : Csr} (h4 : o % 4 = 0) (h : Csr.ofOffset o = some r) : r.offset = o := by
  obtain ⟨r', rfl⟩ | hres := exists_offset_or_reserved h4
  · rw [Csr.ofOffset_offset] at h
    cases h
    rfl
  · rw [Csr.ofOffset_of_reserved hres] at h
    cases h

theorem forall_offset_ne_iff_reserved {o : Nat} (h4 : o % 4 = 0) : (∀ r : Csr, r.offset ≠ o) ↔ reservedOffset o := by
  constructor
  · intro h
    exact (exists_offset_or_reserved h4).resolve_left fun ⟨r, hr⟩ => h r hr
  · rintro hres r rfl
    have hnone := Csr.ofOffset_of_reserved hres
    rw [Csr.ofOffset_offset] at hnone
    cases hnone

/-- Settles O51: `offset` and `ofOffset` undo each other. -/
theorem csrOffsetsAreUnambiguous : Obligations.CsrOffsetsAreUnambiguous :=
  ⟨rfl, fun _ => rfl, fun _ => rfl, fun _ => rfl, fun _ => rfl,
    fun r => ⟨r.ofOffset_offset, r.offset_aligned⟩, fun _ _ => Csr.offset_of_ofOffset⟩

/-- Settles O54: at an offset that is no register's, `ofOffset` finds none, so a read gives 0 and a write is dropped. -/
theorem reservedOffsetsReadZeroIgnoreWrites : Obligations.ReservedOffsetsReadZeroIgnoreWrites := by
  intro o ho h4
  have hiff := forall_offset_ne_iff_reserved h4
  refine ⟨hiff.trans (by unfold reservedOffset; omega), fun hne s rest v => ?_⟩
  have hnone := Csr.ofOffset_of_reserved (hiff.mp hne)
  refine ⟨fun h => ?_, fun h => ?_⟩
  · rw [step_csrRead ho h4 h, csrValue, hnone]
    rfl
  · rw [step_csrWrite ho h4 h, csrWriteWord, hnone]
    rfl

/-! ## What the registers read (R33 to R43) -/

theorem toNat_status (s : State) :
    s.status.toNat = s.err.code.toNat + 256 * s.hash.hact.toNat + 512 * s.cipher.kvalid.toNat := by
  have hupper : (0 : BitVec 22).toNat = 0 := rfl
  simp only [State.status, toNat_append_eq_mul_add, BitVec.toNat_ofBool, hupper]
  omega

theorem toNat_eq_halves (v : BitVec 64) :
    v.toNat = (v.extractLsb' 32 32).toNat * 2 ^ 32 + (v.extractLsb' 0 32).toNat := by
  simp only [BitVec.extractLsb'_toNat, Nat.shiftRight_eq_div_pow]
  omega

theorem be32_toList {n : Nat} (v : Vector Byte n) (k : Nat) (hk : k + 3 < n) :
    be32 v.toList k = v[k] ++ v[k + 1] ++ v[k + 2] ++ v[k + 3] := by
  have hget (j : Nat) (hj : j < n) : v.toList.getD j 0 = v[j] := by
    rw [List.getD_eq_getElem _ _ (by simpa using hj), Vector.getElem_toList]
  rw [be32, hget k, hget (k + 1), hget (k + 2), hget (k + 3)]

/-- Settles O52: each register's value is a field of the state, put together by R12 and R34. -/
theorem statusAndStreamRegistersRead : Obligations.StatusAndStreamRegistersRead := by
  refine ⟨rfl, rfl, rfl, rfl, rfl, rfl, rfl, rfl, fun s => ⟨toNat_status s, ?_, toNat_eq_halves s.hash.hlen,
    fun i => be32_toList s.hash.hbuf (4 * i.val) (by omega), fun _ => rfl, fun _ => rfl, fun _ => rfl, rfl⟩⟩
  have := s.hash.hcnt.isLt
  simp only [Csr.read, BitVec.toNat_ofNat]
  omega

end Sys2Proof.Machine
end

section
/-! PROOFS of the family 10_state.md: what changes CMD, HACT, KVALID and RK (R33, R38, R43, R44). -/

namespace Sys2Proof.Machine

/-! ## Commands -/

theorem SameOutside.setErr (s : State) (e : Err) : SameOutside s (s.setErr e) := ⟨rfl, rfl, rfl, rfl, rfl, rfl, rfl⟩

theorem exec_sameOutside {i : Instr} {s t : State} (h : exec i s = .next t) : SameOutside s t := by
  obtain ⟨-, rfl⟩ | ⟨-, rfl⟩ := exec_cases h
  · exact (effectOf_sameOutside i s).trans (.setErr _ _)
  · exact .setErr s _

/-- Settles O40, from what no effect touches. -/
theorem commandsKeepOperandsAndCmd : Obligations.CommandsKeepOperandsAndCmd := by
  intro i s t h
  obtain ⟨hcfg, hcmd, hops, hpowerUps, hdraws, hinputs, hresp⟩ := exec_sameOutside h
  exact ⟨hops, hcmd, hcfg, hinputs, hresp, hpowerUps, hdraws⟩

theorem writeCmd_cmd {w : Word} {s t : State} (h : writeCmd w s = .next t) : t.cmd = w := by
  obtain ⟨i, -, -, rfl⟩ | ⟨-, rfl⟩ := writeCmd_cases h
  · rw [complete_cmd, (effectOf_sameOutside i _).cmd, State.setCmd_cmd]
  · rw [reportError_cmd, State.setCmd_cmd]

theorem check_eq_noCtx {i : Instr} {s : State} (hi : needsOpen i = true) (hclosed : s.hash.hact = false) :
    check i s = .noCtx := by
  simp [check, hi, hclosed]

theorem check_eq_ctxBusy {i : Instr} {s : State} (hi : needsClosed i = true) (hopen : s.hash.hact = true) :
    check i s = .ctxBusy := by
  simp [check, hi, hopen]

/-- No command that needs the key fails a check of the stream first. -/
theorem check_eq_noKey {i : Instr} {s : State} (hi : needsKey i = true) (hv : s.cipher.kvalid = false) :
    check i s = .noKey := by
  have hstream : needsOpen i = false ∧ needsClosed i = false := by
    cases i with
    | benc kx | bdec kx | cbce ivl kx | cbcd ivl kx => exact ⟨rfl, rfl⟩
    | _ => cases hi
  simp [check, hi, hv, hstream]

/-- HASH and HMAC ran only if no stream was open (R38). -/
theorem hact_eq_false_of_check_ok {i : Instr} {s : State} (hi : needsClosed i = true) (hc : check i s = .ok) :
    s.hash.hact = false := by
  by_contra hopen
  rw [check_eq_ctxBusy hi (by simpa using hopen)] at hc
  cases hc

theorem cbceBlocks_keeps (s : State) (n src dst : Nat) :
    (State.chainBlocks State.cbceBlock n src dst s).hash = s.hash ∧
      (State.chainBlocks State.cbceBlock n src dst s).cipher.rk = s.cipher.rk ∧
      (State.chainBlocks State.cbceBlock n src dst s).cipher.kvalid = s.cipher.kvalid :=
  chainBlocks_keeps s (fun src dst t => cbceBlock_keeps t src dst) n src dst

theorem cbcdBlocks_keeps (s : State) (n src dst : Nat) :
    (State.chainBlocks State.cbcdBlock n src dst s).hash = s.hash ∧
      (State.chainBlocks State.cbcdBlock n src dst s).cipher.rk = s.cipher.rk ∧
      (State.chainBlocks State.cbcdBlock n src dst s).cipher.kvalid = s.cipher.kvalid :=
  chainBlocks_keeps s (fun src dst t => cbcdBlock_keeps t src dst) n src dst

theorem ivStep_keeps_key (s : State) (ivl : Bool) :
    (s.ivStep ivl).cipher.rk = s.cipher.rk ∧ (s.ivStep ivl).cipher.kvalid = s.cipher.kvalid := by
  cases ivl <;> simp [State.ivStep_cipher]

/-- HASH and HMAC end with HACT = 0 (R136), as their check found it (R38). -/
theorem effectOf_hact {i : Instr} {s : State} (hinit : i ≠ .hinit) (hfin : i ≠ .hfin) (hc : check i s = .ok) :
    (effectOf i s).hash.hact = s.hash.hact := by
  cases i with
  | hinit => exact absurd rfl hinit
  | hfin => exact absurd rfl hfin
  | nop | hcomp => rfl
  | hupd => exact (s.hash.absorb_counts _).2.2
  | hash | hmac =>
    rw [hact_eq_false_of_check_ok rfl hc]
    simp only [effectOf, hashEffect, hmacEffect, writeDigest_hash]
    rfl
  | kexp | benc kx | bdec kx => simp [effectOf, bencEffect, bdecEffect]
  | cbce ivl kx => simp [effectOf, cbceEffect, cbceBlocks_keeps]
  | cbcd ivl kx => simp [effectOf, cbcdEffect, cbcdBlocks_keeps]

/-- The key part of the cipher context is that of the KX step alone, for every command (R43, R44, R165). -/
theorem effectOf_key (i : Instr) (s : State) :
    (effectOf i s).cipher.rk = (s.kxStep (expandsKey i)).cipher.rk ∧
      (effectOf i s).cipher.kvalid = (s.kxStep (expandsKey i)).cipher.kvalid := by
  cases i with
  | nop | hinit | hcomp | hupd | kexp => exact ⟨rfl, rfl⟩
  | hfin | hash | hmac => simp [effectOf, hfinEffect, hashEffect, hmacEffect, expandsKey, State.kxStep]
  | benc kx | bdec kx => simp [effectOf, bencEffect, bdecEffect, expandsKey]
  | cbce ivl kx => simp [effectOf, cbceEffect, cbceBlocks_keeps, ivStep_keeps_key, expandsKey]
  | cbcd ivl kx => simp [effectOf, cbcdEffect, cbcdBlocks_keeps, ivStep_keeps_key, expandsKey]

/-! ## Steps that run no command -/

/-- CMD, the fields of STATUS, and RK are the same: only a command or a reset changes them (R33, R34, R43). -/
structure SameControl (s t : State) : Prop where
  cmd : t.cmd = s.cmd
  err : t.err = s.err
  hact : t.hash.hact = s.hash.hact
  kvalid : t.cipher.kvalid = s.cipher.kvalid
  rk : t.cipher.rk = s.cipher.rk

theorem SameControl.refl (s : State) : SameControl s s := ⟨rfl, rfl, rfl, rfl, rfl⟩

theorem SameControl.trans {s t u : State} (h : SameControl s t) (k : SameControl t u) : SameControl s u :=
  ⟨k.cmd.trans h.cmd, k.err.trans h.err, k.hact.trans h.hact, k.kvalid.trans h.kvalid, k.rk.trans h.rk⟩

theorem SameControl.setInputs (s : State) (l : List Input) : SameControl s (s.setInputs l) := ⟨rfl, rfl, rfl, rfl, rfl⟩

theorem SameControl.setResp (s : State) (r : Response) : SameControl s (s.setResp r) := ⟨rfl, rfl, rfl, rfl, rfl⟩

theorem SameControl.memWrite (s : State) (a : Nat) (bs : List Byte) : SameControl s (s.memWrite a bs) :=
  ⟨rfl, rfl, rfl, rfl, rfl⟩

theorem SameControl.csrWrite (r : Csr) (v : Word) (s : State) : SameControl s (r.write v s) := by
  cases r <;> exact ⟨rfl, rfl, rfl, rfl, rfl⟩

/-- An aligned word write elsewhere than at CMD runs no command. -/
theorem csrWriteWord_sameControl {o : Nat} {v : Word} {s t : State} (h4 : o % 4 = 0) (h0 : o ≠ 0)
    (h : csrWriteWord o v s = .next t) : SameControl s t := by
  unfold csrWriteWord at h
  split at h
  · cases h
    exact .refl s
  · next hcmd => exact absurd (Csr.offset_of_ofOffset h4 hcmd).symm h0
  · next r _ _ =>
    cases h
    exact .csrWrite r v s

theorem eq_base_add_of_windowOffset {c : Config} {addr o : Nat} (h : windowOffset c addr = some o) :
    addr = c.csrBase + o := by
  unfold windowOffset at h
  split at h
  · cases h
    omega
  · cases h

theorem hostCsrWrite_sameControl {addr size : Nat} {v : Word} {s t : State}
    (hcmd : ¬ (addr = s.cfg.csrBase ∧ size = 4)) (h : hostCsrWrite addr size v s = .next t) : SameControl s t := by
  unfold hostCsrWrite at h
  split at h
  · cases h
  · next o ho =>
    split at h
    · next hok =>
      have haddr := eq_base_add_of_windowOffset ho
      obtain ⟨hsize, h4⟩ : size = 4 ∧ o % 4 = 0 := by simpa [csrAccessOk] using hok
      exact (SameControl.setResp s .accepted).trans (csrWriteWord_sameControl h4 (by omega) h)
    · cases h
      exact .setResp s _

theorem step_sameControl {s t : State} {x : Input} {rest : List Input} (h : s.inputs = x :: rest)
    (hcmd : ∀ w, x ≠ .csrWrite s.cfg.csrBase 4 w) (hreset : x.isReset = false) (hstep : step s = .next t) :
    SameControl s t := by
  rw [step_input h] at hstep
  refine (SameControl.setInputs s rest).trans ?_
  cases x with
  | csrRead addr size =>
    simp only [applyInput, hostCsrRead] at hstep
    split at hstep <;> cases hstep
    exact .setResp _ _
  | csrWrite addr size v =>
    refine hostCsrWrite_sameControl ?_ hstep
    rintro ⟨rfl, rfl⟩
    exact hcmd v rfl
  | memRead a n =>
    simp only [applyInput, hostMemRead] at hstep
    split at hstep <;> cases hstep
    exact .setResp _ _
  | memWrite a bs =>
    simp only [applyInput, hostMemWrite] at hstep
    split at hstep <;> cases hstep
    exact (SameControl.memWrite _ a bs).trans (.setResp _ _)
  | reset | resetDuring w | powerUp => cases hreset

/-- Both contexts take their reset values, whichever reset it is (R230, R231). -/
theorem step_contexts_of_isReset {s t : State} {x : Input} {rest : List Input} (h : s.inputs = x :: rest)
    (hreset : x.isReset = true) (hstep : step s = .next t) :
    t.hash = HashCtx.reset ∧ t.cipher = CipherCtx.reset := by
  rw [step_input h] at hstep
  cases x with
  | reset | resetDuring w | powerUp =>
    cases hstep
    exact ⟨rfl, rfl⟩
  | _ => cases hreset

/-! ## CMD and HACT (R33, R38) -/

/-- Settles O47: a write to CMD stores its word before it runs, and no other access reaches CMD. -/
theorem cmdHoldsLastWordWritten : Obligations.CmdHoldsLastWordWritten := by
  intro s t x rest h hstep
  refine ⟨?_, fun hcmd hreset => (step_sameControl h hcmd hreset hstep).cmd, rfl⟩
  rintro w rfl
  rw [step_writeCmd h] at hstep
  exact writeCmd_cmd hstep

theorem exec_hact {i : Instr} {s t : State} (hinit : i ≠ .hinit) (hfin : i ≠ .hfin) (h : exec i s = .next t) :
    t.hash.hact = s.hash.hact := by
  obtain ⟨hc, rfl⟩ | ⟨-, rfl⟩ := exec_cases h
  · exact effectOf_hact hinit hfin hc
  · rfl

theorem exec_hinit_hact {s t : State} (h : exec .hinit s = .next t) : t.hash.hact = true := by
  have hc : check .hinit s = .ok := rfl
  rw [exec_of_check_ok hc] at h
  cases h
  rfl

theorem exec_hfin_hact {s t : State} (h : exec .hfin s = .next t) :
    (check .hfin s = .ok → t.hash.hact = false) ∧ (check .hfin s ≠ .ok → t.hash.hact = s.hash.hact) := by
  obtain ⟨hc, rfl⟩ | ⟨hc, rfl⟩ := exec_cases h
  · refine ⟨fun _ => ?_, fun hne => absurd hc hne⟩
    rw [complete_hash, effectOf, hfinEffect, writeDigest_hash]
    rfl
  · exact ⟨fun hok => absurd hok hc, fun _ => rfl⟩

/-- Settles O48, one part for each command or input that R38 names. -/
theorem hactSetByHinitClearedByHfin : Obligations.HactSetByHinitClearedByHfin := by
  refine ⟨fun _ _ => exec_hinit_hact, fun _ _ => exec_hfin_hact, fun _ _ _ => exec_hact,
    fun s hclosed => ?_, fun s hopen => ?_, fun s t x rest h hcmd hstep => ?_⟩
  · exact ⟨exec_of_check_eq (check_eq_noCtx rfl hclosed) (by decide),
      exec_of_check_eq (check_eq_noCtx rfl hclosed) (by decide)⟩
  · exact ⟨exec_of_check_eq (check_eq_ctxBusy rfl hopen) (by decide),
      exec_of_check_eq (check_eq_ctxBusy rfl hopen) (by decide)⟩
  · cases hreset : x.isReset with
    | true =>
      rw [(step_contexts_of_isReset h hreset hstep).1]
      rfl
    | false => exact (step_sameControl h hcmd hreset hstep).hact

/-! ## KVALID and RK (R43, R44, R165) -/

/-- The input is a command word that expands a key and whose check passes. -/
def State.expandsOn (s : State) (x : Input) : Prop :=
  ∃ w i, x = .csrWrite s.cfg.csrBase 4 w ∧ decode w = .ok i ∧ expandsKey i = true ∧ check i s = .ok

/-- A write to CMD changes the key part of the cipher context by the KX step of the command it runs, if it runs one. -/
theorem writeCmd_key_cases {w : Word} {s t : State} (h : writeCmd w s = .next t) :
    (∃ i, decode w = .ok i ∧ expandsKey i = true ∧ check i s = .ok ∧
        t.cipher.rk = expandKey (s.memRead s.ops.keyp.toNat 16) ∧ t.cipher.kvalid = true) ∨
      ((∀ i, decode w = .ok i → expandsKey i = true → check i s ≠ .ok) ∧
        t.cipher.rk = s.cipher.rk ∧ t.cipher.kvalid = s.cipher.kvalid) := by
  obtain ⟨i, hd, hc, rfl⟩ | ⟨hw, rfl⟩ := writeCmd_cases h
  · obtain ⟨hrk, hkvalid⟩ := effectOf_key i (s.setCmd w)
    cases hexp : expandsKey i with
    | true =>
      rw [hexp, State.kxStep_cipher] at hrk hkvalid
      exact .inl ⟨i, hd, hexp, hc, hrk, hkvalid⟩
    | false =>
      rw [hexp, State.kxStep_cipher] at hrk hkvalid
      refine .inr ⟨fun j hj hexpj => ?_, hrk, hkvalid⟩
      cases hd.symm.trans hj
      rw [hexp] at hexpj
      cases hexpj
  · refine .inr ⟨fun i hd _ hc => hw ?_, rfl, rfl⟩
    rw [checkWord, hd]
    exact hc

/-- What a step that is no reset does to RK and KVALID. -/
theorem step_key_cases {s t : State} {x : Input} {rest : List Input} (h : s.inputs = x :: rest)
    (hreset : x.isReset = false) (hstep : step s = .next t) :
    (s.expandsOn x ∧ t.cipher.rk = expandKey (s.memRead s.ops.keyp.toNat 16) ∧ t.cipher.kvalid = true) ∨
      (¬ s.expandsOn x ∧ t.cipher.rk = s.cipher.rk ∧ t.cipher.kvalid = s.cipher.kvalid) := by
  by_cases hcmd : ∃ w, x = .csrWrite s.cfg.csrBase 4 w
  · obtain ⟨w, rfl⟩ := hcmd
    rw [step_writeCmd h] at hstep
    obtain ⟨i, hd, hexp, hc, hkey⟩ | ⟨hno, hkey⟩ := writeCmd_key_cases hstep
    · exact .inl ⟨⟨w, i, rfl, hd, hexp, hc⟩, hkey⟩
    · refine .inr ⟨?_, hkey⟩
      rintro ⟨w', i, hw, hd, hexp, hc⟩
      cases hw
      exact hno i hd hexp hc
  · have hkeep := step_sameControl h (not_exists.mp hcmd) hreset hstep
    exact .inr ⟨fun ⟨w, _, hw, _⟩ => hcmd ⟨w, hw⟩, hkeep.rk, hkeep.kvalid⟩

/-- An input that expands a key is a command word, so no reset. -/
theorem isReset_eq_false_of_expandsOn {s : State} {x : Input} (h : s.expandsOn x) : x.isReset = false := by
  obtain ⟨w, i, rfl, -⟩ := h
  rfl

/-- Settles O49: the step's cases for KVALID, and the check of the commands that need it. -/
theorem kvalidSetOnlyByExpansion : Obligations.KvalidSetOnlyByExpansion := by
  refine ⟨rfl, fun s t x rest h hstep => ⟨fun hreset => ?_, fun hexp => ?_, fun hreset hexp => ?_⟩,
    fun s ivl hv i hi => exec_of_check_eq (check_eq_noKey ?_ hv) (by decide)⟩
  · rw [(step_contexts_of_isReset h hreset hstep).2]
    rfl
  · obtain ⟨-, -, hkvalid⟩ | ⟨hno, -⟩ := step_key_cases h (isReset_eq_false_of_expandsOn hexp) hstep
    · exact hkvalid
    · exact absurd hexp hno
  · obtain ⟨hyes, -⟩ | ⟨-, -, hkvalid⟩ := step_key_cases h hreset hstep
    · exact absurd hyes hexp
    · exact hkvalid
  · have hall : ∀ j ∈ [Instr.benc false, .bdec false, .cbce ivl false, .cbcd ivl false], needsKey j = true := by
      simp [needsKey]
    exact hall i hi

/-- Settles O50: the step's cases for RK. -/
theorem rkWrittenOnlyByExpansion : Obligations.RkWrittenOnlyByExpansion := by
  intro s t x rest h hstep hreset
  obtain ⟨hyes, hrk, -⟩ | ⟨hno, hrk, -⟩ := step_key_cases h hreset hstep
  · exact ⟨fun _ => hrk, fun hexp => absurd hyes hexp⟩
  · exact ⟨fun hexp => absurd hexp hno, fun _ => hrk⟩

end Sys2Proof.Machine
end

section
/-! PROOFS of the family 20_memory.md: host reads and writes of MEM (R72, R195), the commands that only read it (R80), and
the host accesses that stop a step (log entries 6 and 7). -/

namespace Sys2Proof.Machine

/-! ## Host reads and writes of MEM (R72, R195) -/

/-- Byte `k` of a read is the byte at the address `k` further on. -/
theorem State.getElem?_memRead (s : State) (a : Nat) {n k : Nat} (hk : k < n) :
    (s.memRead a n)[k]? = some (s.memByte (a + k)) := by
  simp [State.memRead, hk]

/-- Every byte after a string is stored: a byte of the string, or the one that was there. -/
theorem State.some_memByte_memWrite {s : State} (hs : Mem.wf s.mem) (a : Nat) (bs : List Byte) (x : Nat) :
    some ((s.memWrite a bs).memByte x) =
      if a ≤ x ∧ x < a + bs.length then bs[x - a]? else some (s.memByte x) := by
  split
  · next hin =>
    obtain ⟨k, rfl⟩ := Nat.exists_eq_add_of_le hin.1
    have hk : k < bs.length := by omega
    rw [State.memByte_memWrite_at hs hk, Nat.add_sub_cancel_left, List.getElem?_eq_getElem hk]
  · next hout => rw [State.memByte_memWrite_of_not hs hout]

/-- Settles O58: the step of each access, and the bytes of MEM after a string is stored. -/
theorem hostReadSeesHostWrite : Obligations.HostReadSeesHostWrite := by
  intro s hs
  refine ⟨fun p n rest h hr => ?_, fun a bs rest h hr => ?_, fun a p n bs rest h hw hr => ?_⟩
  · exact ⟨_, step_memRead h hr, State.length_memRead _ p n, fun k hk => State.getElem?_memRead _ p hk⟩
  · refine ⟨_, step_memWrite h hr, rfl, fun k hk => ?_, fun x hx => ?_⟩
    · rw [List.getElem?_eq_getElem hk]
      exact congrArg some (State.memByte_memWrite_at (s := s.setInputs rest) hs hk).symm
    · exact State.memByte_memWrite_of_not (s := s.setInputs rest) hs hx
  · have hwrite := step_memWrite h hw
    have hread := step_memRead (s := ((s.setInputs (.memRead p n :: rest)).memWrite a bs).setResp .accepted) rfl hr
    refine ⟨_, _, (run_succ hwrite).trans (run_succ hread), rfl, State.length_memRead _ p n, fun k hk => ?_⟩
    rw [State.getElem?_memRead _ p hk]
    exact State.some_memByte_memWrite (s := s.setInputs (.memRead p n :: rest)) hs a bs (p + k)

/-! ## Commands that only read MEM (R80) -/

theorem effectOf_mem_of_readOnly {i : Instr} (hi : i ∈ [Instr.hinit, .hcomp, .hupd, .kexp, .nop]) (s : State) :
    (effectOf i s).mem = s.mem := by
  cases i with
  | hinit | hcomp | hupd | kexp | nop => rfl
  | _ => simp at hi

/-- HINIT and NOP fail no check (R201), and their effects read the registers only. -/
theorem exec_setMemory_of_memoryFree {i : Instr} (hi : i ∈ [Instr.hinit, .nop]) {s t : State} (m : List Host.Cell)
    (p : Nat) (h : exec i s = .next t) :
    exec i { s with mem := m, powerUps := p } = .next { t with mem := m, powerUps := p } := by
  cases i with
  | hinit | nop =>
    rw [exec_of_check_ok rfl] at h ⊢
    cases h
    rfl
  | _ => simp at hi

/-- Settles O44: the effects keep MEM, and those of HINIT and NOP do not read it. -/
theorem readOnlyCommandsWriteNoMemory : Obligations.ReadOnlyCommandsWriteNoMemory := by
  refine ⟨fun i hi s t h => ?_, fun i hi s t m p h => exec_setMemory_of_memoryFree hi m p h⟩
  obtain ⟨-, rfl⟩ | ⟨-, rfl⟩ := exec_cases h
  · exact effectOf_mem_of_readOnly hi s
  · rfl

/-! ## The host accesses that stop a step (log entries 6 and 7) -/

/-- A host access to a byte of MEM that does not exist (R70). -/
def Input.StrayInMem (c : Config) (x : Input) : Prop :=
  (∃ a n, x = .memRead a n ∧ n ≠ 0 ∧ c.memBytes < a + n) ∨
    (∃ a bs, x = .memWrite a bs ∧ bs ≠ [] ∧ c.memBytes < a + bs.length)

/-- A host access outside the CSR window (R32). -/
def Input.StrayFromWindow (c : Config) (x : Input) : Prop :=
  ∃ addr size, (x = .csrRead addr size ∨ ∃ v, x = .csrWrite addr size v) ∧
    (addr < c.csrBase ∨ c.csrBase + 4096 ≤ addr)

theorem hostRangeOk_eq_false_iff {a n : Nat} {s : State} :
    hostRangeOk a n s = false ↔ n ≠ 0 ∧ s.cfg.memBytes < a + n := by
  simp [hostRangeOk]

theorem windowOffset_eq_none_iff {c : Config} {addr : Nat} :
    windowOffset c addr = none ↔ addr < c.csrBase ∨ c.csrBase + 4096 ≤ addr := by
  unfold windowOffset windowBytes
  split
  · simp only [reduceCtorEq, false_iff]
    omega
  · simp only [true_iff]
    omega

theorem applyInput_of_strayInMem {x : Input} {s : State} (h : x.StrayInMem s.cfg) :
    applyInput x s = .fault .hostMemRange := by
  obtain ⟨a, n, rfl, hn, hlt⟩ | ⟨a, bs, rfl, hbs, hlt⟩ := h
  · rw [applyInput, hostMemRead, hostRangeOk_eq_false_iff.mpr ⟨hn, hlt⟩]
    rfl
  · rw [applyInput, hostMemWrite, hostRangeOk_eq_false_iff.mpr ⟨mt List.eq_nil_of_length_eq_zero hbs, hlt⟩]
    rfl

theorem applyInput_of_strayFromWindow {x : Input} {s : State} (h : x.StrayFromWindow s.cfg) :
    applyInput x s = .refused .outsideWindow := by
  obtain ⟨addr, size, rfl | ⟨v, rfl⟩, hout⟩ := h
  · rw [applyInput, hostCsrRead, windowOffset_eq_none_iff.mpr hout]
  · rw [applyInput, hostCsrWrite, windowOffset_eq_none_iff.mpr hout]

theorem csrWriteWord_next (o : Nat) (v : Word) (s : State) : ∃ t, csrWriteWord o v s = .next t := by
  unfold csrWriteWord
  split
  · exact ⟨_, rfl⟩
  · exact writeCmd_next v s
  · exact ⟨_, rfl⟩

/-- Every other input gives a next state. -/
theorem applyInput_next_or_stray (x : Input) (s : State) :
    (∃ t, applyInput x s = .next t) ∨ x.StrayInMem s.cfg ∨ x.StrayFromWindow s.cfg := by
  cases x with
  | csrRead addr size =>
    cases ho : windowOffset s.cfg addr with
    | none => exact .inr (.inr ⟨addr, size, .inl rfl, windowOffset_eq_none_iff.mp ho⟩)
    | some o =>
      rw [applyInput, hostCsrRead, ho]
      exact .inl ⟨_, rfl⟩
  | csrWrite addr size v =>
    cases ho : windowOffset s.cfg addr with
    | none => exact .inr (.inr ⟨addr, size, .inr ⟨v, rfl⟩, windowOffset_eq_none_iff.mp ho⟩)
    | some o =>
      rw [applyInput, hostCsrWrite, ho]
      dsimp only
      split
      · exact .inl (csrWriteWord_next o v _)
      · exact .inl ⟨_, rfl⟩
  | memRead a n =>
    cases hr : hostRangeOk a n s with
    | false => exact .inr (.inl (.inl ⟨a, n, rfl, hostRangeOk_eq_false_iff.mp hr⟩))
    | true =>
      rw [applyInput, hostMemRead, hr]
      exact .inl ⟨_, rfl⟩
  | memWrite a bs =>
    cases hr : hostRangeOk a bs.length s with
    | false =>
      obtain ⟨hne, hlt⟩ := hostRangeOk_eq_false_iff.mp hr
      exact .inr (.inl (.inr ⟨a, bs, rfl, mt List.length_eq_zero_iff.mpr hne, hlt⟩))
    | true =>
      rw [applyInput, hostMemWrite, hr]
      exact .inl ⟨_, rfl⟩
  | reset | resetDuring w | powerUp => exact .inl ⟨_, rfl⟩

theorem applyInput_eq_fault_iff {x : Input} {s : State} {f : Fault} :
    applyInput x s = .fault f ↔ f = .hostMemRange ∧ x.StrayInMem s.cfg := by
  constructor
  · intro h
    obtain ⟨t, ht⟩ | hmem | hwin := applyInput_next_or_stray x s
    · cases ht.symm.trans h
    · cases (applyInput_of_strayInMem hmem).symm.trans h
      exact ⟨rfl, hmem⟩
    · cases (applyInput_of_strayFromWindow hwin).symm.trans h
  · rintro ⟨rfl, hmem⟩
    exact applyInput_of_strayInMem hmem

theorem applyInput_eq_refused_iff {x : Input} {s : State} {r : Refusal} :
    applyInput x s = .refused r ↔ r = .outsideWindow ∧ x.StrayFromWindow s.cfg := by
  constructor
  · intro h
    obtain ⟨t, ht⟩ | hmem | hwin := applyInput_next_or_stray x s
    · cases ht.symm.trans h
    · cases (applyInput_of_strayInMem hmem).symm.trans h
    · cases (applyInput_of_strayFromWindow hwin).symm.trans h
      exact ⟨rfl, hwin⟩
  · rintro ⟨rfl, hwin⟩
    exact applyInput_of_strayFromWindow hwin

/-- Settles O9: with no input left the engine idles, and of the inputs only the stray accesses stop. -/
theorem onlyStrayHostAccessesStop : Obligations.OnlyStrayHostAccessesStop := by
  intro s
  cases h : s.inputs with
  | nil => simp [step_idle h]
  | cons x rest =>
    rw [step_input h]
    refine ⟨fun f => applyInput_eq_fault_iff.trans (and_congr_right fun _ => ?_),
      fun r => applyInput_eq_refused_iff.trans (and_congr_right fun _ => ?_)⟩
    · constructor
      · rintro (⟨a, n, rfl, hout⟩ | ⟨a, bs, rfl, hout⟩)
        · exact ⟨rest, .inl ⟨a, n, rfl, hout⟩⟩
        · exact ⟨rest, .inr ⟨a, bs, rfl, hout⟩⟩
      · rintro ⟨_, ⟨a, n, ⟨⟩, hout⟩ | ⟨a, bs, ⟨⟩, hout⟩⟩
        · exact .inl ⟨a, n, rfl, hout⟩
        · exact .inr ⟨a, bs, rfl, hout⟩
    · constructor
      · rintro ⟨addr, size, rfl | ⟨v, rfl⟩, hout⟩
        · exact ⟨rest, addr, size, .inl rfl, hout⟩
        · exact ⟨rest, addr, size, .inr ⟨v, rfl⟩, hout⟩
      · rintro ⟨_, addr, size, ⟨⟨⟩⟩ | ⟨v, ⟨⟩⟩, hout⟩
        · exact ⟨addr, size, .inl rfl, hout⟩
        · exact ⟨addr, size, .inr ⟨v, rfl⟩, hout⟩

end Sys2Proof.Machine
end

section
/-! PROOFS of the family 20_memory.md: every step keeps the invariant (R40, R41, R43, R44, R70, R136). -/

namespace Sys2Proof.Machine

/-! ## The hash context (R40, R41, R136) -/

/-- An empty stream meets the invariant, open or closed. -/
theorem HashCtx.inv_of_empty {h : HashCtx} (hlen : h.hlen = 0) (hcnt : h.hcnt = 0)
    (hbuf : h.hbuf = Vector.replicate 64 0) : h.Inv :=
  ⟨by simp [hlen], by simp [hlen, hcnt], fun _ => ⟨hlen, hbuf⟩⟩

theorem HashCtx.inv_finish (h : HashCtx) : h.finish.Inv := HashCtx.inv_of_empty rfl rfl rfl

/-- HLEN does not wrap, since HLEN_MAX is below 2^64 (R41, R133). -/
theorem HashCtx.inv_absorb {h : HashCtx} {m : List Byte} (hinv : h.Inv) (hopen : h.hact = true)
    (hmax : h.hlen.toNat + m.length ≤ hlenMax) : (h.absorb m).Inv := by
  obtain ⟨-, hrem, -⟩ := hinv
  obtain ⟨hcnt, hlen, hact⟩ := h.absorb_counts m
  have hsum : (h.absorb m).hlen.toNat = h.hlen.toNat + m.length := by
    unfold hlenMax at hmax
    rw [hlen, BitVec.toNat_add, BitVec.toNat_ofNat]
    omega
  refine ⟨hsum ▸ hmax, ?_, fun hclosed => ?_⟩
  · rw [hcnt, hsum]
    omega
  · rw [hact, hopen] at hclosed
    cases hclosed

/-- A HUPD that runs found the stream open and stays below HLEN_MAX (R133). -/
theorem open_and_le_hlenMax_of_check_hupd {s : State} (hc : check .hupd s = .ok) :
    s.hash.hact = true ∧ s.hash.hlen.toNat + s.ops.len.toNat ≤ hlenMax := by
  rw [check_hupd] at hc
  split_ifs at hc with hclosed hover
  exact ⟨by simpa using hclosed, by omega⟩

theorem effectOf_hash_inv {i : Instr} {s : State} (h : s.hash.Inv) (hc : check i s = .ok) :
    (effectOf i s).hash.Inv := by
  cases i with
  | nop | hcomp => exact h
  | hinit => exact HashCtx.inv_of_empty rfl rfl rfl
  | hupd =>
    obtain ⟨hopen, hmax⟩ := open_and_le_hlenMax_of_check_hupd hc
    exact HashCtx.inv_absorb h hopen (by simpa using hmax)
  | hfin | hash | hmac =>
    simp only [effectOf, hfinEffect, hashEffect, hmacEffect, writeDigest_hash]
    exact HashCtx.inv_finish _
  | kexp | benc kx | bdec kx =>
    simpa only [effectOf, bencEffect, bdecEffect, State.loadKey_hash, State.transformBlock_hash, State.kxStep_hash] using h
  | cbce ivl kx =>
    simpa only [effectOf, cbceEffect, cbceBlocks_keeps, State.ivStep_hash, State.kxStep_hash] using h
  | cbcd ivl kx =>
    simpa only [effectOf, cbcdEffect, cbcdBlocks_keeps, State.ivStep_hash, State.kxStep_hash] using h

/-! ## The cipher context (R43, R44) -/

theorem CipherCtx.Inv.congr {c d : CipherCtx} (h : c.Inv) (hrk : d.rk = c.rk) (hkvalid : d.kvalid = c.kvalid) :
    d.Inv := by
  rwa [CipherCtx.Inv, hrk, hkvalid]

theorem CipherCtx.inv_reset : CipherCtx.reset.Inv := ⟨fun h => (nomatch h), fun _ => rfl⟩

/-- The schedule the KX step loads is that of the 16 bytes it reads (R166). -/
theorem State.kxStep_cipher_inv {s : State} (h : s.cipher.Inv) (kx : Bool) : (s.kxStep kx).cipher.Inv := by
  cases kx with
  | false => exact h
  | true =>
    rw [State.kxStep_cipher]
    exact ⟨fun _ => ⟨_, s.length_memRead s.ops.keyp.toNat 16, rfl⟩, fun hv => (nomatch hv)⟩

theorem effectOf_cipher_inv {s : State} (h : s.cipher.Inv) (i : Instr) : (effectOf i s).cipher.Inv := by
  obtain ⟨hrk, hkvalid⟩ := effectOf_key i s
  exact (State.kxStep_cipher_inv h (expandsKey i)).congr hrk hkvalid

/-! ## MEM (R70) -/

/-- MEM is in its canonical form and lists only addresses that exist. -/
structure State.MemOk (s : State) : Prop where
  wf : Mem.wf s.mem
  below : Mem.below s.mem s.cfg.memBytes

theorem State.MemOk.congr {s t : State} (h : s.MemOk) (hmem : t.mem = s.mem) (hcfg : t.cfg = s.cfg) : t.MemOk :=
  ⟨hmem ▸ h.wf, hmem ▸ hcfg ▸ h.below⟩

theorem State.MemOk.memWrite {s : State} (h : s.MemOk) {a n : Nat} {bs : List Byte} (hlen : bs.length = n)
    (hr : n = 0 ∨ a + n ≤ s.cfg.memBytes) : (s.memWrite a bs).MemOk := by
  subst hlen
  exact ⟨Mem.wf_writeBytes h.wf a bs, Mem.below_writeBytes h.below a bs hr⟩

theorem State.forgetMem_memOk (s : State) : s.forgetMem.MemOk := ⟨List.Pairwise.nil, fun _ hc => (nomatch hc)⟩

theorem writeDigest_memOk {s : State} (h : s.MemOk) (hr : s.has s.ops.dst 32) (c : HashCtx) : (writeDigest c s).MemOk :=
  State.MemOk.memWrite (s := s.setHash c) (h.congr rfl rfl) c.length_digestBytes hr

theorem State.transformBlock_memOk {s : State} (h : s.MemOk) (hr : s.has s.ops.dst 16) (d : Dir) :
    (s.transformBlock d).MemOk :=
  h.memWrite (length_blockF _ _ d) hr

theorem State.kxStep_memOk {s : State} (h : s.MemOk) (kx : Bool) : (s.kxStep kx).MemOk :=
  h.congr (s.kxStep_mem kx) (s.kxStep_cfg kx)

theorem State.ivStep_memOk {s : State} (h : s.MemOk) (ivl : Bool) : (s.ivStep ivl).MemOk :=
  h.congr (s.ivStep_mem ivl) (s.ivStep_cfg ivl)

theorem State.cbceBlock_memOk {s : State} (h : s.MemOk) (src : Nat) {dst : Nat} (hr : dst + 16 ≤ s.cfg.memBytes) :
    (s.cbceBlock src dst).MemOk :=
  (h.memWrite (length_blockF _ _ _) (.inr hr)).congr (State.setChain_mem _ _) (State.setChain_cfg _ _)

theorem State.cbcdBlock_memOk {s : State} (h : s.MemOk) (src : Nat) {dst : Nat} (hr : dst + 16 ≤ s.cfg.memBytes) :
    (s.cbcdBlock src dst).MemOk :=
  (h.memWrite (n := 16) (by simp) (.inr hr)).congr (State.setChain_mem _ _) (State.setChain_cfg _ _)

/-- The loop keeps MEM's form when its output bytes exist and each block keeps it. -/
theorem chainBlocks_memOk {block : Nat → Nat → State → State}
    (hcfg : ∀ src dst t, (block src dst t).cfg = t.cfg)
    (hblock : ∀ src dst t, t.MemOk → dst + 16 ≤ t.cfg.memBytes → (block src dst t).MemOk) (n src dst : Nat) {s : State}
    (h : s.MemOk) (hr : n = 0 ∨ dst + 16 * n ≤ s.cfg.memBytes) : (State.chainBlocks block n src dst s).MemOk := by
  induction n generalizing src dst s with
  | zero => exact h
  | succ k ih =>
    refine ih (src + 16) (dst + 16) (hblock src dst s h (by omega)) ?_
    rw [hcfg]
    omega

/-- A command that runs has the region it writes in range (R203). -/
theorem has_dst_of_check_ok {i : Instr} {s : State} {n : Nat} (hc : check i s = .ok)
    (hw : Region.writes s.ops.dst n ∈ regions i s.ops) : s.has s.ops.dst n :=
  of_decide_eq_true (regions_inRange hc _ hw)

/-- The KX and IVL steps keep MEM, and the LEN / 16 blocks lie in the LEN bytes at DST (R180, R181). -/
theorem chainCommand_memOk {block : Nat → Nat → State → State}
    (hcfg : ∀ src dst t, (block src dst t).cfg = t.cfg)
    (hblock : ∀ src dst t, t.MemOk → dst + 16 ≤ t.cfg.memBytes → (block src dst t).MemOk) (ivl kx : Bool) {s : State}
    (h : s.MemOk) (hr : s.has s.ops.dst s.ops.len.toNat) :
    (((s.kxStep kx).ivStep ivl).chainBlocks block (s.ops.len.toNat / 16) s.ops.src.toNat s.ops.dst.toNat).MemOk := by
  refine chainBlocks_memOk hcfg hblock _ _ _ (State.ivStep_memOk (State.kxStep_memOk h kx) ivl) ?_
  rw [State.ivStep_cfg, State.kxStep_cfg]
  unfold State.has at hr
  omega

theorem effectOf_memOk {i : Instr} {s : State} (h : s.MemOk) (hc : check i s = .ok) : (effectOf i s).MemOk := by
  cases i with
  | nop | hinit | hcomp | hupd | kexp => exact h.congr rfl rfl
  | hfin | hash | hmac => exact writeDigest_memOk h (has_dst_of_check_ok hc (by simp [regions])) _
  | benc kx | bdec kx =>
    refine State.transformBlock_memOk (State.kxStep_memOk h kx) ?_ _
    rw [State.has, State.kxStep_ops, State.kxStep_cfg]
    exact has_dst_of_check_ok hc (by simp [regions])
  | cbce ivl kx =>
    exact chainCommand_memOk (fun src dst t => t.cbceBlock_cfg src dst) (fun src _ _ ht => State.cbceBlock_memOk ht src)
      ivl kx h (has_dst_of_check_ok hc (by simp [regions]))
  | cbcd ivl kx =>
    exact chainCommand_memOk (fun src dst t => t.cbcdBlock_cfg src dst) (fun src _ _ ht => State.cbcdBlock_memOk ht src)
      ivl kx h (has_dst_of_check_ok hc (by simp [regions]))

/-! ## A reset while a command runs (R231) -/

theorem State.scramble_cfg (s : State) (r : Region) : (s.scramble r).cfg = s.cfg := by
  unfold State.scramble
  split <;> rfl

theorem State.scramble_memOk {s : State} (h : s.MemOk) {r : Region} (hr : r.inRange s.cfg.memBytes = true) :
    (s.scramble r).MemOk := by
  unfold State.scramble
  split
  · exact h
  · exact (h.memWrite (length_freeBytes _ _) (of_decide_eq_true hr)).congr rfl rfl

theorem foldl_scramble_memOk {s : State} (h : s.MemOk) {rs : List Region}
    (hr : ∀ r ∈ rs, r.inRange s.cfg.memBytes = true) :
    (rs.foldl State.scramble s).MemOk ∧ (rs.foldl State.scramble s).cfg = s.cfg := by
  induction rs generalizing s with
  | nil => exact ⟨h, rfl⟩
  | cons r rs ih =>
    obtain ⟨hhead, htail⟩ := List.forall_mem_cons.mp hr
    have hcfg := s.scramble_cfg r
    obtain ⟨hmem, hfold⟩ := ih (State.scramble_memOk h hhead) (hcfg ▸ htail)
    exact ⟨hmem, hfold.trans hcfg⟩

theorem cutRegions_inRange {w : Word} {s : State} : ∀ r ∈ cutRegions w s, r.inRange s.cfg.memBytes = true := by
  intro r hr
  unfold cutRegions at hr
  split at hr
  · cases hr
  · split at hr
    · next hc => exact regions_inRange hc r hr
    · cases hr

/-! ## The whole state -/

theorem State.inv_iff {s : State} :
    s.Inv ↔ s.cfg.wf = true ∧ s.MemOk ∧ s.hash.Inv ∧ s.cipher.Inv :=
  ⟨fun ⟨hcfg, hwf, hbelow, hctx⟩ => ⟨hcfg, ⟨hwf, hbelow⟩, hctx⟩,
    fun ⟨hcfg, ⟨hwf, hbelow⟩, hctx⟩ => ⟨hcfg, hwf, hbelow, hctx⟩⟩

/-- The invariant speaks of no other field. -/
theorem State.Inv.congr {s t : State} (h : s.Inv) (hcfg : t.cfg = s.cfg) (hmem : t.mem = s.mem) (hhash : t.hash = s.hash)
    (hcipher : t.cipher = s.cipher) : t.Inv := by
  rwa [State.Inv, hcfg, hmem, hhash, hcipher]

theorem State.MemOk.inv_resetRegisters {s : State} (h : s.MemOk) (hcfg : s.cfg.wf = true) : s.resetRegisters.Inv :=
  State.inv_iff.mpr ⟨hcfg, h.congr rfl rfl, HashCtx.inv_of_empty rfl rfl rfl, CipherCtx.inv_reset⟩

theorem effectOf_inv {i : Instr} {s : State} (h : s.Inv) (hc : check i s = .ok) : (effectOf i s).Inv := by
  obtain ⟨hcfg, hmem, hhash, hcipher⟩ := State.inv_iff.mp h
  exact State.inv_iff.mpr ⟨(effectOf_sameOutside i s).cfg ▸ hcfg, effectOf_memOk hmem hc, effectOf_hash_inv hhash hc,
    effectOf_cipher_inv hcipher i⟩

theorem writeCmd_inv {w : Word} {s t : State} (h : s.Inv) (hw : writeCmd w s = .next t) : t.Inv := by
  obtain ⟨i, -, hc, rfl⟩ | ⟨-, rfl⟩ := writeCmd_cases hw
  · exact (effectOf_inv (s := s.setCmd w) (h.congr rfl rfl rfl rfl) hc).congr rfl rfl rfl rfl
  · exact h.congr rfl rfl rfl rfl

/-- HS and CR are under no rule of the invariant, so a host write to them is free (R192). -/
theorem Csr.write_inv {s : State} (h : s.Inv) (r : Csr) (v : Word) : (r.write v s).Inv := by
  obtain ⟨hcfg, hwf, hbelow, hhash, hcipher⟩ := h
  cases r with
  | cr i => exact ⟨hcfg, hwf, hbelow, hhash, hcipher.congr rfl rfl⟩
  | _ => exact ⟨hcfg, hwf, hbelow, hhash, hcipher⟩

theorem csrWriteWord_inv {o : Nat} {v : Word} {s t : State} (h : s.Inv) (hw : csrWriteWord o v s = .next t) : t.Inv := by
  unfold csrWriteWord at hw
  split at hw
  · cases hw
    exact h
  · exact writeCmd_inv h hw
  · next r _ _ =>
    cases hw
    exact Csr.write_inv h r v

theorem hostCsrWrite_inv {addr size : Nat} {v : Word} {s t : State} (h : s.Inv)
    (hw : hostCsrWrite addr size v s = .next t) : t.Inv := by
  unfold hostCsrWrite at hw
  split at hw
  · cases hw
  · split at hw
    · exact csrWriteWord_inv (s := s.setResp .accepted) (h.congr rfl rfl rfl rfl) hw
    · cases hw
      exact h.congr rfl rfl rfl rfl

theorem hostMemWrite_inv {a : Nat} {bs : List Byte} {s t : State} (h : s.Inv) (hw : hostMemWrite a bs s = .next t) :
    t.Inv := by
  obtain ⟨hcfg, hmem, hctx⟩ := State.inv_iff.mp h
  unfold hostMemWrite at hw
  split at hw <;> cases hw
  next hr => exact State.inv_iff.mpr ⟨hcfg, (hmem.memWrite rfl (of_decide_eq_true hr)).congr rfl rfl, hctx⟩

theorem resetDuring_inv {s : State} (h : s.Inv) (w : Word) : (resetDuring w s).Inv := by
  obtain ⟨hcfg, hmem, -⟩ := State.inv_iff.mp h
  obtain ⟨hmem', hcfg'⟩ := foldl_scramble_memOk hmem (cutRegions_inRange (w := w))
  exact (hmem'.inv_resetRegisters (hcfg' ▸ hcfg)).congr rfl rfl rfl rfl

theorem applyInput_inv {x : Input} {s t : State} (h : s.Inv) (hx : applyInput x s = .next t) : t.Inv := by
  obtain ⟨hcfg, hmem, -⟩ := State.inv_iff.mp h
  cases x with
  | csrRead addr size =>
    simp only [applyInput, hostCsrRead] at hx
    split at hx <;> cases hx
    exact h.congr rfl rfl rfl rfl
  | csrWrite addr size v => exact hostCsrWrite_inv h hx
  | memRead a n =>
    simp only [applyInput, hostMemRead] at hx
    split at hx <;> cases hx
    exact h.congr rfl rfl rfl rfl
  | memWrite a bs => exact hostMemWrite_inv h hx
  | reset =>
    cases hx
    exact hmem.inv_resetRegisters hcfg
  | resetDuring w =>
    cases hx
    exact resetDuring_inv h w
  | powerUp =>
    cases hx
    exact s.forgetMem_memOk.inv_resetRegisters hcfg

/-- Settles O45, by what each input does to each part of the invariant. -/
theorem stepKeepsInvariant : Obligations.StepKeepsInvariant := by
  intro s t h hstep
  cases hin : s.inputs with
  | nil =>
    rw [step_idle hin] at hstep
    cases hstep
    exact h
  | cons x rest =>
    rw [step_input hin] at hstep
    exact applyInput_inv (s := s.setInputs rest) (h.congr rfl rfl rfl rfl) hstep

end Sys2Proof.Machine
end

section
/-! PROOFS of the family 30_encoding.md: the decoder and the encoder (R90 to R95, R100). -/

namespace Sys2Proof

/-! ## Decoding undoes encoding (R95, R100) -/

theorem CmdFields.eq_of_toNat_op {f g : CmdFields} (hop : f.op.toNat = g.op.toNat) (hivl : f.ivl = g.ivl)
    (hkx : f.kx = g.kx) (hrsvd : f.rsvd = g.rsvd) : f = g := by
  obtain ⟨fop, fivl, fkx, frsvd⟩ := f
  obtain ⟨gop, givl, gkx, grsvd⟩ := g
  simp only [CmdFields.mk.injEq]
  exact ⟨BitVec.eq_of_toNat_eq hop, hivl, hkx, hrsvd⟩

/-- Each row of R91 gives the command whose fields it has read. -/
theorem ofWord_eq_fields_of_decode {w : Word} {i : Instr} (h : decode w = .ok i) : CmdFields.ofWord w = i.fields := by
  simp only [decode] at h
  split at h
  · cases h
  · next hrsvd =>
    have hrsvd := not_not.mp hrsvd
    split at h
    case h_1 hop | h_2 hop | h_3 hop | h_4 hop | h_5 hop | h_6 hop | h_7 hop | h_8 hop =>
      obtain ⟨hkx, hivl, rfl⟩ := withoutOptions_eq_ok.mp h
      exact CmdFields.eq_of_toNat_op hop hivl hkx hrsvd
    case h_9 hop | h_10 hop =>
      obtain ⟨hivl, rfl⟩ := withoutIvl_eq_ok.mp h
      exact CmdFields.eq_of_toNat_op hop hivl rfl hrsvd
    case h_11 hop | h_12 hop =>
      cases h
      exact CmdFields.eq_of_toNat_op hop rfl rfl hrsvd
    case h_13 => cases h

theorem decode_encode (i : Instr) : decode (encode i) = .ok i := by
  cases i with
  | benc kx | bdec kx => cases kx <;> rfl
  | cbce ivl kx | cbcd ivl kx => cases ivl <;> cases kx <;> rfl
  | _ => rfl

/-- Settles O2: a word that decodes has the command's fields, and the fields of a word determine it. -/
theorem decodeExactlyInvertsEncode : Obligations.DecodeExactlyInvertsEncode := by
  intro w i
  constructor
  · intro h
    calc
      w = (CmdFields.ofWord w).toWord := (CmdFields.toWord_ofWord w).symm
      _ = encode i := congrArg CmdFields.toWord (ofWord_eq_fields_of_decode h)
  · rintro rfl
    exact decode_encode i

/-- Settles O1: each word of the first part is the encoding of its command. -/
theorem sampleWordsDecode : Obligations.SampleWordsDecode :=
  ⟨decode_encode .nop, decode_encode .hinit, decode_encode .hash, decode_encode .kexp, decode_encode (.benc true),
    decode_encode (.bdec false), decode_encode (.cbce false true), decode_encode (.cbce true false),
    decode_encode (.cbcd true true), by decide⟩

/-! ## The twenty legal words (R95, R100) -/

theorem Instr.mem_all (i : Instr) : i ∈ Instr.all := by
  cases i with
  | benc kx | bdec kx => revert kx; decide
  | cbce ivl kx | cbcd ivl kx => revert ivl kx; decide
  | _ => decide

theorem exists_decode_ok_iff {w : Word} : (∃ i, decode w = .ok i) ↔ w ∈ Instr.all.map encode := by
  simp only [decodeExactlyInvertsEncode w, List.mem_map, Instr.mem_all, true_and, eq_comm]

/-- The decoder is total (R95). -/
theorem exists_decode_error_iff {w : Word} : (∃ e, decode w = .error e) ↔ ¬ ∃ i, decode w = .ok i := by
  cases decode w <;> simp

/-- Settles O4: the list is that of the encodings of R100. -/
theorem eachWordIsLegalOrIllegal : Obligations.EachWordIsLegalOrIllegal :=
  fun _ => ⟨exists_decode_ok_iff, exists_decode_error_iff.trans (not_congr exists_decode_ok_iff)⟩

/-! ## The ILLEGAL words (R94) -/

/-- Field values that meet none of R94's conditions are those of a command. -/
theorem CmdFields.exists_fields_eq_of_wellFormed {f : CmdFields} (h : f.wellFormed = true) :
    ∃ i : Instr, i.fields = f := by
  have hfinite : ∀ (op : BitVec 4) (ivl kx : Bool), (CmdFields.mk op ivl kx 0).wellFormed = true →
      ∃ i ∈ Instr.all, i.fields = ⟨op, ivl, kx, 0⟩ := by decide
  obtain ⟨op, ivl, kx, rsvd⟩ := f
  obtain rfl : rsvd = 0 := by
    simp only [CmdFields.wellFormed, Bool.and_eq_true] at h
    obtain ⟨⟨⟨-, hrsvd⟩, -⟩, -⟩ := h
    exact of_decide_eq_true hrsvd
  obtain ⟨i, -, hi⟩ := hfinite op ivl kx h
  exact ⟨i, hi⟩

/-- The decoder and the predicate of R94 agree. -/
theorem exists_decode_error_iff_illegal {w : Word} : (∃ e, decode w = .error e) ↔ illegal w = true := by
  have hok : (∃ i, decode w = .ok i) ↔ (CmdFields.ofWord w).wellFormed = true := by
    constructor
    · rintro ⟨i, h⟩
      rw [ofWord_eq_fields_of_decode h]
      exact i.wellFormed_eq_true
    · intro h
      obtain ⟨i, hi⟩ := CmdFields.exists_fields_eq_of_wellFormed h
      refine ⟨i, (decodeExactlyInvertsEncode w i).mpr ?_⟩
      rw [encode, hi, CmdFields.toWord_ofWord]
  rw [exists_decode_error_iff, hok, illegal, Bool.not_eq_true, Bool.not_eq_true']

section Conditions
variable (w : Word)

theorem op_ofWord_eq_iff (k : BitVec 4) : (CmdFields.ofWord w).op = k ↔ w.toNat % 16 = k.toNat := by
  rw [← CmdFields.op_ofWord, BitVec.toNat_inj]

theorem opOk_ofWord_eq_false_iff : (CmdFields.ofWord w).opOk = false ↔
    (w.toNat % 16 = 0xC ∨ w.toNat % 16 = 0xD ∨ w.toNat % 16 = 0xE ∨ w.toNat % 16 = 0xF) := by
  rw [CmdFields.opOk, CmdFields.op_ofWord, decide_eq_false_iff_not]
  omega

theorem rsvdOk_ofWord_eq_false_iff : (CmdFields.ofWord w).rsvdOk = false ↔ w.toNat / 64 ≠ 0 := by
  rw [CmdFields.rsvdOk, decide_eq_false_iff_not, ← BitVec.toNat_inj, CmdFields.rsvd_ofWord]
  rfl

theorem ivlOk_ofWord_eq_false_iff : (CmdFields.ofWord w).ivlOk = false ↔
    (w.getLsbD 4 = true ∧ ¬ (w.toNat % 16 = 0xA ∨ w.toNat % 16 = 0xB)) := by
  have hivl : (CmdFields.ofWord w).ivl = w.getLsbD 4 := rfl
  simp [CmdFields.ivlOk, op_ofWord_eq_iff, hivl, and_assoc]

theorem kxOk_ofWord_eq_false_iff : (CmdFields.ofWord w).kxOk = false ↔
    (w.getLsbD 5 = true ∧
      ¬ (w.toNat % 16 = 0x8 ∨ w.toNat % 16 = 0x9 ∨ w.toNat % 16 = 0xA ∨ w.toNat % 16 = 0xB)) := by
  have hkx : (CmdFields.ofWord w).kx = w.getLsbD 5 := rfl
  simp [CmdFields.kxOk, op_ofWord_eq_iff, hkx, and_assoc]

theorem illegal_iff : illegal w = true ↔ (CmdFields.ofWord w).opOk = false ∨ (CmdFields.ofWord w).rsvdOk = false ∨
    (CmdFields.ofWord w).ivlOk = false ∨ (CmdFields.ofWord w).kxOk = false := by
  simp only [illegal, CmdFields.wellFormed, Bool.not_eq_true', Bool.and_eq_false_iff, or_assoc]

end Conditions

/-! ## The opcode table (R91) -/

theorem Laws.EncodesLegal.statement (i : Instr) : Statement i := by
  cases i with
  | nop => exact nop
  | hinit => exact hinit
  | hcomp => exact hcomp
  | hupd => exact hupd
  | hfin => exact hfin
  | hash => exact hash
  | hmac => exact hmac
  | kexp => exact kexp
  | benc kx => exact benc kx
  | bdec kx => exact bdec kx
  | cbce ivl kx => exact cbce ivl kx
  | cbcd ivl kx => exact cbcd ivl kx

/-- The option bits of a word, the other fields 0 (R92, R93). -/
theorem and_0x30_eq_toWord (w : Word) : w &&& 0x30 = CmdFields.toWord ⟨0, w.getLsbD 4, w.getLsbD 5, 0⟩ := by
  have hbits : (0x30 : Word) = BitVec.twoPow 32 4 ||| BitVec.twoPow 32 5 := rfl
  rw [hbits, BitVec.and_or_distrib_left, BitVec.and_twoPow, BitVec.and_twoPow]
  cases w.getLsbD 4 <;> cases w.getLsbD 5 <;> rfl

/-- A row leaves at most the option bits of a word open. -/
theorem eq_pattern_or_optionBits {r : OpcodeRow} (hr : r ∈ opcodeRows) {w : Word} (h : r.matches w = true) :
    w = r.pattern ||| ((w &&& 0x30) &&& ~~~r.mask) := by
  have hopen : ∀ r ∈ opcodeRows, ~~~r.mask = 0x30 &&& ~~~r.mask := by decide
  calc
    w = (w &&& r.mask) ||| (w &&& ~~~r.mask) := by
      rw [← BitVec.and_or_distrib_left, BitVec.or_not_self, BitVec.and_allOnes]
    _ = r.pattern ||| ((w &&& 0x30) &&& ~~~r.mask) := by
      rw [of_decide_eq_true h, BitVec.and_assoc, ← hopen r hr]

/-- The bits a row leaves open are options of its command, so any choice of them gives a legal word. -/
theorem illegal_pattern_or_options (ivl kx : Bool) : ∀ r ∈ opcodeRows,
    illegal (r.pattern ||| (CmdFields.toWord ⟨0, ivl, kx, 0⟩ &&& ~~~r.mask)) = false := by
  cases ivl <;> cases kx <;> decide

theorem illegal_eq_false_of_matches {r : OpcodeRow} (hr : r ∈ opcodeRows) {w : Word} (h : r.matches w = true) :
    illegal w = false := by
  rw [eq_pattern_or_optionBits hr h, and_0x30_eq_toWord]
  exact illegal_pattern_or_options _ _ r hr

/-- Settles O5: a command's word belongs to the row of its mnemonic, and a row holds only words of commands. -/
theorem opcodeRowsAgreeWithDecoder : Obligations.OpcodeRowsAgreeWithDecoder := by
  intro w
  cases hd : decode w with
  | ok i =>
    obtain rfl := (decodeExactlyInvertsEncode w i).mp hd
    obtain ⟨-, -, hrows⟩ := Laws.EncodesLegal.statement i
    exact hrows
  | error e =>
    have hill : illegal w = true := exists_decode_error_iff_illegal.mp ⟨e, hd⟩
    have hnone : opcodeRows.filter (fun r => r.matches w) = [] :=
      List.filter_eq_nil_iff.mpr fun r hr hm => absurd hill (by simp [illegal_eq_false_of_matches hr hm])
    rw [hnone]
    rfl

end Sys2Proof
end

section
/-! PROOFS of the family 30_encoding.md: the step that runs a command word, and what a command leaves unchanged (R94, R96,
R97, R202). -/

namespace Sys2Proof.Machine

/-! ## The step (R94, R97) -/

theorem writeCmd_of_decode_error {w : Word} {e : DecodeError} (h : decode w = .error e) (s : State) :
    writeCmd w s = .next (reportError .illegal (s.setCmd w)) := by
  rw [writeCmd, h]

/-- Settles O3: the four conditions as numbers, and the word's write to CMD. -/
theorem illegalExactlyUnderFourConditions : Obligations.IllegalExactlyUnderFourConditions := by
  intro w op bad
  have hbad : illegal w = true ↔ bad := by
    rw [illegal_iff, opOk_ofWord_eq_false_iff, rsvdOk_ofWord_eq_false_iff, ivlOk_ofWord_eq_false_iff,
      kxOk_ofWord_eq_false_iff]
  have herror : (∃ e, decode w = .error e) ↔ bad := exists_decode_error_iff_illegal.trans hbad
  refine ⟨hbad, herror, rfl, fun s rest h hnext => ?_⟩
  obtain ⟨e, he⟩ := herror.mpr h
  rw [step_writeCmd hnext, writeCmd_of_decode_error he]
  rfl

/-- Settles O6, from what a write to CMD does with a word that decodes. -/
theorem stepRunsDecodedCommand : Obligations.StepRunsDecodedCommand := by
  intro s w rest i hnext hd
  rw [step_writeCmd hnext, writeCmd_of_decode hd]
  rfl

theorem tableWord_toNat (w : Word) : tableWord 32 w.toNat = w := by
  rw [tableWord, Nat.mod_eq_of_lt w.isLt, BitVec.ofNat_toNat, BitVec.setWidth_eq]

theorem State.withFetchWord_nextIsCommand (s : State) (w : Word) :
    (s.withFetchWord 32 w.toNat).nextIsCommand w s.inputs := by
  rw [State.nextIsCommand, State.withFetchWord, tableWord_toNat]
  rfl

/-- Settles O7: the placed word is the next write to CMD, and it decodes to its command. -/
theorem fetchWordRunsNext : Obligations.FetchWordRunsNext :=
  fun s i => stepRunsDecodedCommand _ _ _ i (s.withFetchWord_nextIsCommand (encode i)) (decode_encode i)

/-- Settles O8, whether the check passes or fails. -/
theorem everyCommandEndsWithItsCode : Obligations.EveryCommandEndsWithItsCode := by
  intro i s
  by_cases hc : check i s = .ok
  · exact ⟨_, exec_of_check_ok hc, hc.symm⟩
  · exact ⟨_, exec_of_check_fails hc, rfl⟩

/-! ## MEM (R96, R139) -/

section Memory
variable {s : State} {x : Nat}

theorem writeDigest_memByte (hs : Mem.wf s.mem) (hx : ¬ (s.ops.dst.toNat ≤ x ∧ x < s.ops.dst.toNat + 32)) (h : HashCtx) :
    (writeDigest h s).memByte x = s.memByte x := by
  exact State.memByte_memWrite_of_not (s := s.setHash h) hs (by rwa [h.length_digestBytes])

theorem State.transformBlock_memByte (hs : Mem.wf s.mem) (hx : ¬ (s.ops.dst.toNat ≤ x ∧ x < s.ops.dst.toNat + 16))
    (d : Dir) : (s.transformBlock d).memByte x = s.memByte x := by
  exact State.memByte_memWrite_of_not hs (by rwa [length_blockF])

theorem blockCommand_memByte (hs : Mem.wf s.mem) (hx : ¬ (s.ops.dst.toNat ≤ x ∧ x < s.ops.dst.toNat + 16)) (kx : Bool)
    (d : Dir) : ((s.kxStep kx).transformBlock d).memByte x = s.memByte x := by
  rw [State.transformBlock_memByte (by rwa [State.kxStep_mem]) (by rwa [State.kxStep_ops])]
  exact State.memByte_congr (s.kxStep_mem kx) (s.kxStep_powerUps kx) x

/-- The KX and IVL steps keep MEM, and the LEN / 16 blocks lie in the LEN bytes at DST (R180, R181). -/
theorem chainCommand_memByte {block : Nat → Nat → State → State}
    (hblock : ∀ src dst t, Mem.wf t.mem → Mem.wf (block src dst t).mem ∧
      ∀ x, ¬ (dst ≤ x ∧ x < dst + 16) → (block src dst t).memByte x = t.memByte x) (hs : Mem.wf s.mem)
    (hx : ¬ (s.ops.dst.toNat ≤ x ∧ x < s.ops.dst.toNat + s.ops.len.toNat)) (ivl kx : Bool) :
    (((s.kxStep kx).ivStep ivl).chainBlocks block (s.ops.len.toNat / 16) s.ops.src.toNat s.ops.dst.toNat).memByte x =
      s.memByte x := by
  have hmem : ((s.kxStep kx).ivStep ivl).mem = s.mem := by rw [State.ivStep_mem, State.kxStep_mem]
  have hpower : ((s.kxStep kx).ivStep ivl).powerUps = s.powerUps := by rw [State.ivStep_powerUps, State.kxStep_powerUps]
  obtain ⟨-, hkeep⟩ := chainBlocks_memory ((s.kxStep kx).ivStep ivl) hblock (s.ops.len.toNat / 16) s.ops.src.toNat
    s.ops.dst.toNat (hmem ▸ hs)
  exact (hkeep x (by omega)).trans (State.memByte_congr hmem hpower x)

end Memory

/-- Settles O41: one fact for each kind of effect, and a failed check keeps MEM. -/
theorem memoryOutsideWriteRegionKept : Obligations.MemoryOutsideWriteRegionKept := by
  intro i s t a d hs hexec h
  obtain ⟨hc, rfl⟩ | ⟨-, rfl⟩ := exec_cases hexec
  · have hout := h.resolve_right (not_not.mpr hc)
    refine (State.memByte_congr (complete_mem _) (complete_powerUps _) a).trans ?_
    cases i with
    | nop | hinit | hcomp | hupd | kexp => rfl
    | hfin | hash | hmac => exact writeDigest_memByte hs hout _
    | benc kx | bdec kx => exact blockCommand_memByte hs hout kx _
    | cbce ivl kx => exact chainCommand_memByte (fun src dst t => cbceBlock_memory t src dst) hs hout ivl kx
    | cbcd ivl kx => exact chainCommand_memByte (fun src dst t => cbcdBlock_memory t src dst) hs hout ivl kx
  · rfl

/-! ## The two contexts (R96) -/

/-- What neither STATUS.ERR nor the command's effect touches, the command keeps. -/
theorem exec_keeps {α : Type} (f : State → α) (herr : ∀ s e, f (s.setErr e) = f s) {i : Instr} {s t : State}
    (heffect : f (effectOf i s) = f s) (h : exec i s = .next t) : f t = f s := by
  obtain ⟨-, rfl⟩ | ⟨-, rfl⟩ := exec_cases h
  · exact (herr _ _).trans heffect
  · exact herr s _

theorem effectOf_cipher_of_hashCommand {i : Instr} (hi : i ∈ [Instr.nop, .hinit, .hcomp, .hupd, .hfin, .hash, .hmac])
    (s : State) : (effectOf i s).cipher = s.cipher := by
  cases i with
  | nop | hinit | hcomp | hupd => rfl
  | hfin | hash | hmac => exact writeDigest_cipher s _
  | _ => simp at hi

/-- Settles O42, from the contexts after each effect. -/
theorem hashCommandsKeepCipherContext : Obligations.HashCommandsKeepCipherContext := by
  refine fun s t => ⟨fun i hi h => ?_, fun h => ?_, fun h => ?_, fun h => ?_⟩
  · exact exec_keeps State.cipher (fun _ _ => rfl) (effectOf_cipher_of_hashCommand hi s) h
  · exact exec_keeps State.hash (fun _ _ => rfl) rfl h
  · obtain ⟨-, rfl⟩ | ⟨-, rfl⟩ := exec_cases h <;> exact ⟨rfl, rfl, rfl, rfl⟩
  · exact exec_hact (by decide) (by decide) h

theorem effectOf_hash_of_cipherCommand {i : Instr} {ivl kx : Bool}
    (hi : i ∈ [Instr.kexp, .benc kx, .bdec kx, .cbce ivl kx, .cbcd ivl kx]) (s : State) :
    (effectOf i s).hash = s.hash := by
  cases i with
  | kexp => exact s.loadKey_hash
  | benc kx | bdec kx => simp only [effectOf, bencEffect, bdecEffect, State.transformBlock_hash, State.kxStep_hash]
  | cbce ivl kx => simp only [effectOf, cbceEffect, cbceBlocks_keeps, State.ivStep_hash, State.kxStep_hash]
  | cbcd ivl kx => simp only [effectOf, cbcdEffect, cbcdBlocks_keeps, State.ivStep_hash, State.kxStep_hash]
  | _ => simp at hi

/-- Without KX the KX step is the identity (R93). -/
theorem effectOf_key_of_not_expandsKey {i : Instr} (hi : expandsKey i = false) (s : State) :
    (effectOf i s).cipher.rk = s.cipher.rk ∧ (effectOf i s).cipher.kvalid = s.cipher.kvalid := by
  have hkey := effectOf_key i s
  rwa [hi] at hkey

theorem State.kxStep_cr (s : State) (kx : Bool) : (s.kxStep kx).cipher.cr = s.cipher.cr := by
  cases kx <;> rfl

theorem effectOf_cr_of_unchained {i : Instr} {kx : Bool} (hi : i ∈ [Instr.kexp, .benc kx, .bdec kx]) (s : State) :
    (effectOf i s).cipher.cr = s.cipher.cr := by
  cases i with
  | kexp => exact s.kxStep_cr true
  | benc kx | bdec kx => simp only [effectOf, bencEffect, bdecEffect, State.transformBlock_cipher, State.kxStep_cr]
  | _ => simp at hi

/-- Settles O43, from the contexts after each effect. -/
theorem cipherCommandsKeepHashContext : Obligations.CipherCommandsKeepHashContext := by
  refine fun s t ivl kx => ⟨fun i hi h => ?_, fun i hi h => ?_, fun i hi h => ?_⟩
  · exact exec_keeps State.hash (fun _ _ => rfl) (effectOf_hash_of_cipherCommand hi s) h
  · have hall : ∀ j ∈ [Instr.benc false, .bdec false, .cbce ivl false, .cbcd ivl false], expandsKey j = false := by
      simp [expandsKey]
    obtain ⟨hrk, hkvalid⟩ := effectOf_key_of_not_expandsKey (hall i hi) s
    exact ⟨exec_keeps (fun u => u.cipher.rk) (fun _ _ => rfl) hrk h,
      exec_keeps (fun u => u.cipher.kvalid) (fun _ _ => rfl) hkvalid h⟩
  · exact exec_keeps (fun u => u.cipher.cr) (fun _ _ => rfl) (effectOf_cr_of_unchained hi s) h

end Sys2Proof.Machine
end

section
/-! PROOFS of the family 40_hash_compression.md: the round constants (R113), the message expansion (R112), the rounds of
CF (R114 to R117) and the command HCOMP (R118). -/

namespace Sys2Proof.Machine

/-! ## Round constants (R113) -/

theorem roundConst_of_le {j : Nat} (hj : j ≤ 15) : roundConst j = tLo.rotateLeft j := by
  have hmod : ((j : Int) % 32).toNat = j := by omega
  rw [roundConst, if_pos hj, rotl_eq_rotateLeft, hmod]

/-- For `j` below 32 the amount `j - 32` is negative, and R11 takes it modulo 32. -/
theorem roundConst_of_ge {j : Nat} (hj : 16 ≤ j) : roundConst j = tHi.rotateLeft (j % 32) := by
  have hmod : (((j : Int) - 32) % 32).toNat = j % 32 := by omega
  rw [roundConst, if_neg (by omega), rotl_eq_rotateLeft, hmod]

/-- Settles O27: the two ranges, and the example's values. -/
theorem roundConstantsRotateByIndex : Obligations.RoundConstantsRotateByIndex :=
  ⟨fun _ => roundConst_of_le, fun _ hj _ => roundConst_of_ge hj, by decide⟩

/-! ## Message expansion (R112) -/

@[simp] theorem length_extendW (n : Nat) (ws : List Word) : (extendW n ws).length = n + ws.length := by
  induction n generalizing ws with
  | zero => simp [extendW]
  | succ k ih => rw [extendW, ih, List.length_cons]; omega

/-- `extendW` adds its first word first; the last word it adds stands in front. -/
theorem extendW_succ (n : Nat) (ws : List Word) : extendW (n + 1) ws = nextW (extendW n ws) :: extendW n ws := by
  induction n generalizing ws with
  | zero => rfl
  | succ k ih => rw [extendW, ih]; rfl

/-- The words added later stand in front of the earlier ones and leave them as they are. -/
theorem drop_extendW (k n : Nat) (ws : List Word) : (extendW (n + k) ws).drop k = extendW n ws := by
  induction k with
  | zero => rfl
  | succ k ih => rw [← Nat.add_assoc, extendW_succ, List.drop_succ_cons, ih]

@[simp] theorem length_blockWords (b : List Byte) : (blockWords b).length = 16 := by simp [blockWords]

@[simp] theorem length_expandW (b : List Byte) : (expandW b).length = 68 := by simp [expandW]

@[simp] theorem length_expandW1 (w : List Word) : (expandW1 w).length = w.length - 4 := by simp [expandW1]

/-- After `m` of the 52 added words, index `j` of the newest-first list is W[15 + m - j]. -/
theorem getD_extendW_blockWords (b : List Byte) {m j : Nat} (hm : m ≤ 52) (hj : j < 16 + m) :
    (extendW m (blockWords b).reverse).getD j 0 = (expandW b).getD (15 + m - j) 0 := by
  have hsplit : m + (52 - m) = 52 := by omega
  have hindex : 52 - m + j = 52 + 16 - 1 - (15 + m - j) := by omega
  rw [← drop_extendW (52 - m), hsplit, List.getD_eq_getElem?_getD, List.getElem?_drop, List.getD_eq_getElem?_getD,
    expandW, List.getElem?_reverse (by simp; omega), length_extendW, List.length_reverse, length_blockWords, hindex]

theorem getD_expandW_of_lt (b : List Byte) {i : Nat} (hi : i < 16) : (expandW b).getD i 0 = be32 b (4 * i) := by
  have hback : 15 - (15 - i) = i := by omega
  calc
    (expandW b).getD i 0 = (blockWords b).reverse.getD (15 - i) 0 := by
      have h := getD_extendW_blockWords b (m := 0) (j := 15 - i) (by omega) (by omega)
      rw [Nat.add_zero, hback] at h
      exact h.symm
    _ = be32 b (4 * i) := by
      rw [List.getD_eq_getElem _ _ (by simp; omega), List.getElem_reverse]
      simp [blockWords, hback]

/-- W[16 + m] is `nextW` of the words before it. -/
theorem getD_expandW_add (b : List Byte) {m : Nat} (hm : m < 52) :
    (expandW b).getD (16 + m) 0 = nextW (extendW m (blockWords b).reverse) := by
  have h := getD_extendW_blockWords b (m := m + 1) (j := 0) hm (by omega)
  rw [extendW_succ, List.getD_cons_zero] at h
  rw [h]
  congr 1
  omega

theorem getD_expandW_of_ge (b : List Byte) {i : Nat} (h16 : 16 ≤ i) (h68 : i < 68) :
    (expandW b).getD i 0 =
      p1 ((expandW b).getD (i - 16) 0 ^^^ (expandW b).getD (i - 9) 0 ^^^ rotl ((expandW b).getD (i - 3) 0) 15) ^^^
        rotl ((expandW b).getD (i - 13) 0) 7 ^^^ (expandW b).getD (i - 6) 0 := by
  obtain ⟨m, rfl⟩ := Nat.exists_eq_add_of_le h16
  have hprev {k : Nat} (hk : k < 16) :
      (extendW m (blockWords b).reverse).getD k 0 = (expandW b).getD (16 + m - (k + 1)) 0 := by
    rw [getD_extendW_blockWords b (by omega) (by omega)]
    congr 1
    omega
  rw [getD_expandW_add b (by omega), nextW, hprev (by decide), hprev (by decide), hprev (by decide), hprev (by decide),
    hprev (by decide)]

theorem getD_expandW1 {w : List Word} {i : Nat} (hi : i + 4 < w.length) :
    (expandW1 w).getD i 0 = w.getD i 0 ^^^ w.getD (i + 4) 0 := by
  rw [List.getD_eq_getElem _ _ (by simp; omega), List.getD_eq_getElem _ _ (by omega), List.getD_eq_getElem _ _ hi]
  simp [expandW1, Nat.add_comm]

/-- Settles O26: `extendW` adds each word by the recurrence, to a list it keeps; the example is computed. -/
theorem expansionFollowsRecurrence : Obligations.ExpansionFollowsRecurrence :=
  ⟨by decide +kernel, fun b => ⟨length_expandW b, by simp, fun _ => getD_expandW_of_lt b,
    fun _ => getD_expandW_of_ge b, fun _ hi => getD_expandW1 (by simp; omega)⟩⟩

/-! ## The rounds of CF (R114 to R117) -/

theorem hashRounds_append (xs ys : List (Word × Word)) (j : Nat) (s : Work) :
    hashRounds j (xs ++ ys) s = hashRounds (j + xs.length) ys (hashRounds j xs s) := by
  induction xs generalizing j s with
  | nil => rfl
  | cons x xs ih =>
    rw [List.cons_append, hashRounds, ih, hashRounds, List.length_cons, Nat.add_assoc, Nat.add_comm 1]

/-- The pairs (W[j], W1[j]) of a block, one for each round. -/
def roundPairs (b : List Byte) : List (Word × Word) := (expandW b).zip (expandW1 (expandW b))

@[simp] theorem length_roundPairs (b : List Byte) : (roundPairs b).length = 64 := by simp [roundPairs]

theorem take_succ_roundPairs (b : List Byte) {j : Nat} (hj : j < 64) : (roundPairs b).take (j + 1) =
    (roundPairs b).take j ++ [((expandW b).getD j 0, (expandW1 (expandW b)).getD j 0)] := by
  rw [List.take_succ_eq_append_getElem (by simpa using hj), List.getD_eq_getElem _ _ (by simp; omega),
    List.getD_eq_getElem _ _ (by simpa using hj)]
  simp [roundPairs]

/-- The working words of CF(V, B) before round `j`. -/
def workBefore (v : Vector Word 8) (b : List Byte) (j : Nat) : Work :=
  hashRounds 0 ((roundPairs b).take j) (Work.ofState v)

theorem workBefore_succ (v : Vector Word 8) (b : List Byte) {j : Nat} (hj : j < 64) : workBefore v b (j + 1) =
    hashRound j ((expandW b).getD j 0) ((expandW1 (expandW b)).getD j 0) (workBefore v b j) := by
  have hlen : 0 + ((roundPairs b).take j).length = j := by simp; omega
  rw [workBefore, take_succ_roundPairs b hj, hashRounds_append, hlen]
  rfl

theorem cf_eq_feedForward (v : Vector Word 8) (b : List Byte) : cf v b = (workBefore v b 64).feedForward v := by
  rw [workBefore, List.take_of_length_le (by simp)]
  rfl

/-- Settles O28 with the working words before each round; the rules write `hashRound` and `feedForward` out. -/
theorem compressionRunsSixtyFourRounds : Obligations.CompressionRunsSixtyFourRounds :=
  fun v b => ⟨workBefore v b, rfl, fun _ hj => workBefore_succ v b hj, cf_eq_feedForward v b⟩

/-! ## HCOMP (R118) -/

theorem checkWord_of_decode_error {w : Word} {e : DecodeError} (h : decode w = .error e) (s : State) :
    checkWord w s = .illegal := by
  rw [checkWord, h]

/-- A word with the opcode of the one legal word `k` is ILLEGAL unless it is `k` (R94). -/
theorem checkWord_eq_illegal_of_ne {k w : Word}
    (hrow : ∀ i ∈ Instr.all, (encode i).toNat % 16 = k.toNat → encode i = k) (hop : w.toNat % 16 = k.toNat)
    (hne : w ≠ k) (s : State) : checkWord w s = .illegal := by
  have hnone : ¬ ∃ i, decode w = .ok i := by
    rintro ⟨i, hi⟩
    obtain rfl := (decodeExactlyInvertsEncode w i).mp hi
    exact hne (hrow i i.mem_all hop)
  obtain ⟨e, he⟩ := exists_decode_error_iff.mpr hnone
  exact checkWord_of_decode_error he s

/-- Settles O15: the check and the effect of HCOMP; the two values of CF are computed. -/
theorem hcompCompressesOneBlock : Obligations.HcompCompressesOneBlock := by
  refine ⟨fun s h => ?_, fun s h => ?_, rfl, fun w s hop hne => ?_, by decide +kernel, by decide +kernel⟩
  · exact exec_of_check_ok (by rw [check_hcomp, if_pos h])
  · exact exec_of_check_eq (by rw [check_hcomp, if_neg h]) (by decide)
  · exact checkWord_eq_illegal_of_ne (by decide) hop hne s

end Sys2Proof.Machine
end

section
/-! PROOFS of the family 41_hash_stream.md: ABSORB and the padding (R130, R134, R136), the commands HINIT, HUPD, HFIN
and HASH (R132, R133, R135, R137), and a message streamed in pieces (R138). -/

namespace Sys2Proof.Machine

/-! ## ABSORB (R134) -/

theorem piecesOf_succ (k n : Nat) (b : List Byte) :
    piecesOf k (n + 1) b = piecesOf k n b ++ [(b.drop (k * n)).take k] := by
  simp [piecesOf, List.range_succ]

theorem take_drop_append {i k : Nat} {a : List Byte} (h : i + k ≤ a.length) (b : List Byte) :
    ((a ++ b).drop i).take k = (a.drop i).take k := by
  rw [List.drop_append_of_le_length (by omega), List.take_append_of_le_length (by rw [List.length_drop]; omega)]

/-- The pieces a string starts with do not depend on what follows them. -/
theorem piecesOf_append {k n : Nat} {a : List Byte} (h : k * n ≤ a.length) (b : List Byte) :
    piecesOf k n (a ++ b) = piecesOf k n a := by
  refine List.map_congr_left fun i hi => ?_
  have hk : k * i + k ≤ k * n := by
    rw [← Nat.mul_succ]
    exact Nat.mul_le_mul_left k (List.mem_range.mp hi)
  exact take_drop_append (by omega) b

/-- The pending bytes of a context (R39, R40). -/
def HashCtx.pending (h : HashCtx) : List Byte := h.hbuf.toList.take h.hcnt.val

@[simp] theorem HashCtx.length_pending (h : HashCtx) : h.pending.length = h.hcnt.val := by
  simp [HashCtx.pending]

/-- What HBUF held before its pending bytes: the last of the full blocks of `all`, or the buffer `buf` if there is none
(R39). -/
def lastBlock (buf all : List Byte) : List Byte :=
  if all.length < 64 then buf else (all.drop (64 * (all.length / 64 - 1))).take 64

theorem length_lastBlock {buf : List Byte} (hbuf : buf.length = 64) (all : List Byte) :
    (lastBlock buf all).length = 64 := by
  unfold lastBlock
  split
  · exact hbuf
  · simp; omega

/-- The context `t` that `all`, the pending bytes of `h` and those after them, leave from `h` (R134). -/
structure HashCtx.AfterBytes (h : HashCtx) (all : List Byte) (t : HashCtx) : Prop where
  hs : t.hs = (piecesOf 64 (all.length / 64) all).foldl cf h.hs
  hcnt : t.hcnt.val = all.length % 64
  hbuf : t.hbuf.toList =
    all.drop (64 * (all.length / 64)) ++ (lastBlock h.hbuf.toList all).drop (all.length % 64)

theorem HashCtx.afterBytes_pending (h : HashCtx) : h.AfterBytes h.pending h := by
  have hlt : h.pending.length < 64 := by simp
  have hq : h.pending.length / 64 = 0 := Nat.div_eq_of_lt hlt
  refine ⟨by rw [hq]; rfl, by rw [Nat.mod_eq_of_lt hlt, HashCtx.length_pending], ?_⟩
  rw [hq, lastBlock, if_pos hlt, Nat.mod_eq_of_lt hlt, HashCtx.length_pending]
  exact (List.take_append_drop h.hcnt.val h.hbuf.toList).symm

/-- Storing the byte behind the pending ones. -/
theorem HashCtx.AfterBytes.toList_set {h t : HashCtx} {all : List Byte} (ht : h.AfterBytes all t) (b : Byte) :
    (t.hbuf.set t.hcnt.val b t.hcnt.isLt).toList =
      (all ++ [b]).drop (64 * (all.length / 64)) ++ (lastBlock h.hbuf.toList all).drop (all.length % 64 + 1) := by
  have hlen : (all.drop (64 * (all.length / 64))).length = all.length % 64 := by rw [List.length_drop]; omega
  have hlast : all.length % 64 < (lastBlock h.hbuf.toList all).length := by
    rw [length_lastBlock (by simp)]; omega
  rw [Vector.toList_set, ht.hbuf, ht.hcnt, List.set_append_right _ _ (by omega), hlen, Nat.sub_self,
    List.drop_eq_getElem_cons hlast, List.set_cons_zero, List.drop_append_of_le_length (by omega), List.append_assoc]
  rfl

theorem HashCtx.absorbByte_of_lt {h : HashCtx} (hc : h.hcnt.val + 1 < 64) (b : Byte) :
    h.absorbByte b = { h with hbuf := h.hbuf.set h.hcnt.val b h.hcnt.isLt, hcnt := ⟨h.hcnt.val + 1, hc⟩ } :=
  dif_pos hc

theorem HashCtx.absorbByte_of_not_lt {h : HashCtx} (hc : ¬ h.hcnt.val + 1 < 64) (b : Byte) :
    h.absorbByte b = { h with
      hs := cf h.hs (h.hbuf.set h.hcnt.val b h.hcnt.isLt).toList
      hbuf := h.hbuf.set h.hcnt.val b h.hcnt.isLt
      hcnt := 0 } :=
  dif_neg hc

/-- A byte that fills no block leaves the full blocks as they are. -/
theorem lastBlock_append_of_lt (buf : List Byte) {all : List Byte} (hc : all.length % 64 + 1 < 64) (b : Byte) :
    lastBlock buf (all ++ [b]) = lastBlock buf all := by
  unfold lastBlock
  rw [List.length_append, List.length_singleton]
  by_cases h : all.length < 64
  · rw [if_pos (by omega), if_pos h]
  · have hq : (all.length + 1) / 64 = all.length / 64 := by omega
    rw [if_neg (by omega), if_neg h, hq, take_drop_append (by omega)]

theorem HashCtx.AfterBytes.absorbByte {h t : HashCtx} {all : List Byte} (ht : h.AfterBytes all t) (b : Byte) :
    h.AfterBytes (all ++ [b]) (t.absorbByte b) := by
  have hset := ht.toList_set b
  have hpieces := piecesOf_append (k := 64) (n := all.length / 64) (a := all) (by omega) [b]
  by_cases hc : t.hcnt.val + 1 < 64
  · have hmod : all.length % 64 + 1 < 64 := ht.hcnt ▸ hc
    have hq : (all ++ [b]).length / 64 = all.length / 64 := by simp; omega
    have hr : (all ++ [b]).length % 64 = all.length % 64 + 1 := by simp; omega
    rw [HashCtx.absorbByte_of_lt hc]
    refine ⟨?_, ?_, ?_⟩
    · rw [hq, hpieces]
      exact ht.hs
    · rw [hr, ← ht.hcnt]
    · rw [hq, hr, lastBlock_append_of_lt _ hmod]
      exact hset
  · have hmod : all.length % 64 = 63 := by have := ht.hcnt; omega
    have hq : (all ++ [b]).length / 64 = all.length / 64 + 1 := by simp; omega
    have hr : (all ++ [b]).length % 64 = 0 := by simp; omega
    have hblock : (t.hbuf.set t.hcnt.val b t.hcnt.isLt).toList =
        ((all ++ [b]).drop (64 * (all.length / 64))).take 64 := by
      rw [hset, hmod, List.drop_of_length_le (length_lastBlock (by simp) all).le, List.append_nil,
        List.take_of_length_le (by simp; omega)]
    rw [HashCtx.absorbByte_of_not_lt hc]
    refine ⟨?_, ?_, ?_⟩
    · rw [hq, piecesOf_succ, hpieces, List.foldl_append, ← ht.hs, ← hblock]
      rfl
    · rw [hr]
      rfl
    · rw [hr, hq, List.drop_of_length_le (by simp; omega), lastBlock, if_neg (by simp; omega), hq, Nat.add_sub_cancel]
      exact hblock

theorem HashCtx.AfterBytes.absorbBytes {h t : HashCtx} {all : List Byte} (ht : h.AfterBytes all t) (m : List Byte) :
    h.AfterBytes (all ++ m) (t.absorbBytes m) := by
  induction m generalizing all t with
  | nil => rwa [List.append_nil]
  | cons b m ih =>
    rw [List.append_cons]
    exact ih (ht.absorbByte b)

/-- ABSORB of `m`: the pending bytes and then `m`. But for HLEN it is its loop. -/
theorem HashCtx.afterBytes_absorb (h : HashCtx) (m : List Byte) : h.AfterBytes (h.pending ++ m) (h.absorb m) :=
  let ⟨hs, hcnt, hbuf⟩ := h.afterBytes_pending.absorbBytes m
  ⟨hs, hcnt, hbuf⟩

theorem HashCtx.AfterBytes.pending_eq {h t : HashCtx} {all : List Byte} (ht : h.AfterBytes all t) :
    t.pending = all.drop (64 * (all.length / 64)) := by
  rw [HashCtx.pending, ht.hbuf, List.take_left' (by rw [ht.hcnt, List.length_drop]; omega)]

theorem HashCtx.AfterBytes.drop_hbuf {h t : HashCtx} {all : List Byte} (ht : h.AfterBytes all t) :
    t.hbuf.toList.drop t.hcnt.val = (lastBlock h.hbuf.toList all).drop t.hcnt.val := by
  rw [ht.hbuf, List.drop_left' (by rw [ht.hcnt, List.length_drop]; omega), ht.hcnt]

/-- Settles O17: the bytes one by one keep `AfterBytes`. -/
theorem absorbCompressesFullChunks : Obligations.AbsorbCompressesFullChunks := by
  intro h m all q t
  have ht : h.AfterBytes all t := h.afterBytes_absorb m
  obtain ⟨-, hlen, hact⟩ := h.absorb_counts m
  refine ⟨ht.hs, ht.hcnt, ht.pending_eq, fun hq => ?_, fun hq => ?_, hlen, hact⟩
  · rw [ht.drop_hbuf, lastBlock, if_pos (by omega)]
  · rw [ht.drop_hbuf, lastBlock, if_neg (by omega)]

/-! ## The padding (R130, R136, R138) -/

theorem HashCtx.finalState_eq (h : HashCtx) : h.finalState =
    if h.hcnt.val ≤ 55 then cf h.hs (withLength (padBlock h.pending) (lengthField h.hlen.toNat))
    else cf (cf h.hs (padBlock h.pending)) (zeros 56 ++ lengthField h.hlen.toNat) := rfl

theorem hashState_eq (m : List Byte) : hashState m =
    let v := (piecesOf 64 (m.length / 64) m).foldl cf hashIv
    let last := padBlock (m.drop (64 * (m.length / 64)))
    if m.length % 64 ≤ 55 then cf v (withLength last (lengthField m.length))
    else cf (cf v last) (zeros 56 ++ lengthField m.length) := by
  rw [hashState, pad, List.foldl_append]
  dsimp only
  split <;> rfl

/-- HLEN does not wrap below HLEN_MAX (R41). -/
theorem HashCtx.toNat_hlen_absorb {h : HashCtx} {m : List Byte} (hmax : h.hlen.toNat + m.length ≤ hlenMax) :
    (h.absorb m).hlen.toNat = h.hlen.toNat + m.length := by
  unfold hlenMax at hmax
  rw [(h.absorb_counts m).2.1, BitVec.toNat_add, BitVec.toNat_ofNat]
  omega

/-- The start of a hash, with the stream open or closed (R132, R150). -/
structure HashCtx.Fresh (h : HashCtx) : Prop where
  hs : h.hs = hashIv
  hcnt : h.hcnt = 0
  hlen : h.hlen = 0

theorem HashCtx.fresh_start (h : HashCtx) : h.start.Fresh := ⟨rfl, rfl, rfl⟩

/-- FINISH ends the hash of the bytes absorbed: with its one or two blocks they make up PAD (R138). -/
theorem HashCtx.Fresh.finalState_absorb {h : HashCtx} (hh : h.Fresh) {m : List Byte} (hmax : m.length ≤ hlenMax) :
    (h.absorb m).finalState = hashState m := by
  have hlen : (h.absorb m).hlen.toNat = m.length := by
    rw [HashCtx.toNat_hlen_absorb (by simpa [hh.hlen] using hmax), hh.hlen]
    exact Nat.zero_add _
  have ht : h.AfterBytes m (h.absorb m) := by
    have := h.afterBytes_absorb m
    rwa [HashCtx.pending, hh.hcnt] at this
  rw [HashCtx.finalState_eq, hashState_eq, hlen, ht.hcnt, ht.hs, hh.hs, ht.pending_eq]

/-- The hash context that DIGEST(M) leaves (R150). -/
theorem HashCtx.digest_eq (h : HashCtx) {m : List Byte} (hmax : m.length ≤ hlenMax) : h.digest m =
    { hs := hashState m, hbuf := Vector.replicate 64 0, hcnt := 0, hlen := 0, hact := false } := by
  rw [HashCtx.digest, HashCtx.finish, h.fresh_start.finalState_absorb hmax]

theorem HashCtx.Fresh.digestBytes_finish_absorb {h : HashCtx} (hh : h.Fresh) {m : List Byte}
    (hmax : m.length ≤ hlenMax) : (h.absorb m).finish.digestBytes = hashOf m := by
  rw [HashCtx.digestBytes, HashCtx.finish, hh.finalState_absorb hmax, hashOf]

/-! ## HINIT (R132) -/

/-- Settles O14: HINIT fails no check, and its effect starts a stream. -/
theorem hinitOpensFreshStream : Obligations.HinitOpensFreshStream := by
  refine ⟨fun s => ⟨complete (hinitEffect s), exec_of_check_ok rfl, rfl, rfl, rfl, fun hkey => ?_⟩, rfl,
    fun w s hop hne => ?_⟩
  · have hk : (complete (hinitEffect s)).cipher.kvalid = false := hkey
    rw [Csr.read, State.status, hk]
    exact (by decide : (0 : BitVec 22) ++ BitVec.ofBool false ++ BitVec.ofBool true ++ Err.ok.code = 0x00000100)
  · exact checkWord_eq_illegal_of_ne (by decide) hop hne s

/-! ## HUPD (R133) -/

theorem check_hupd_of_open {s : State} (hopen : s.hash.hact = true) : check .hupd s =
    if s.hash.hlen.toNat + s.ops.len.toNat ≤ hlenMax then
      if s.has s.ops.src s.ops.len.toNat then .ok else .range
    else .lenOvf := by
  rw [check_hupd, if_neg (by simp [hopen])]
  simp only [gt_iff_lt, ← not_le, ite_not]

theorem check_hupd_eq_ok {s : State} (hopen : s.hash.hact = true)
    (hmax : s.hash.hlen.toNat + s.ops.len.toNat ≤ hlenMax) (hhas : s.has s.ops.src s.ops.len.toNat) :
    check .hupd s = .ok := by
  rw [check_hupd_of_open hopen, if_pos hmax, if_pos hhas]

theorem HashCtx.absorb_nil (h : HashCtx) : h.absorb [] = h := by
  rw [HashCtx.absorb]
  exact congrArg (fun l => { h with hlen := l }) (BitVec.add_zero _)

theorem hupdEffect_of_len_eq_zero {s : State} (hzero : s.ops.len = 0) : hupdEffect s = s := by
  rw [hupdEffect, hzero]
  exact congrArg s.setHash s.hash.absorb_nil

/-- Settles O16: the check of HUPD case by case; no bytes leave the context as it is. -/
theorem hupdAbsorbsRegion : Obligations.HupdAbsorbsRegion := by
  refine ⟨rfl, fun w s hop hne => checkWord_eq_illegal_of_ne (by decide) hop hne s, by decide +kernel, fun s => ?_⟩
  intro m fits
  refine ⟨fun hopen hmax hhas => ?_, fun hclosed => ?_, fun hopen hover => ?_, fun hopen hmax hhas => ?_,
    fun hopen hmax hzero => ?_, fun hfull => ?_⟩
  · exact exec_of_check_ok (check_hupd_eq_ok hopen hmax hhas)
  · exact exec_of_check_eq (check_eq_noCtx rfl hclosed) (by decide)
  · exact exec_of_check_eq ((check_hupd_of_open hopen).trans (if_neg hover)) (by decide)
  · exact exec_of_check_eq ((check_hupd_of_open hopen).trans ((if_pos hmax).trans (if_neg hhas))) (by decide)
  · have hhas : s.has s.ops.src s.ops.len.toNat := .inl (by rw [hzero]; rfl)
    rw [exec_of_check_ok (check_hupd_eq_ok hopen hmax hhas), effectOf, hupdEffect_of_len_eq_zero hzero]
    rfl
  · rw [← Fin.val_inj, (s.hash.absorb_counts m).1, hfull]
    rfl

/-! ## HFIN and HASH (R135, R137) -/

theorem complete_writeDigest (h : HashCtx) (s : State) : complete (writeDigest h s) =
    { s with hash := h, mem := Mem.writeBytes s.mem s.ops.dst.toNat (serw h.hs.toList), err := .ok } := rfl

theorem memRead_complete_writeDigest {s : State} (hs : Mem.wf s.mem) (h : HashCtx) :
    (complete (writeDigest h s)).memRead s.ops.dst.toNat 32 = h.digestBytes := by
  have hsame := State.memRead_memWrite_same (s := s.setHash h) hs s.ops.dst.toNat h.digestBytes
  rw [HashCtx.length_digestBytes] at hsame
  exact (State.memRead_congr (by rw [complete_mem, writeDigest]) (by rw [complete_powerUps, writeDigest]) _ _).trans
    hsame

theorem check_hfin_eq_ok {s : State} (hopen : s.hash.hact = true) (hhas : s.has s.ops.dst 32) :
    check .hfin s = .ok := by
  rw [check_hfin, if_neg (by simp [hopen]), if_pos hhas]

/-- Settles O18: the check of HFIN, and the digest of the padded remainder; the two digests are computed. -/
theorem hfinWritesDigestAndCloses : Obligations.HfinWritesDigestAndCloses := by
  refine ⟨rfl, fun w s hop hne => checkWord_eq_illegal_of_ne (by decide) hop hne s, by decide +kernel,
    by decide +kernel, fun s => ?_⟩
  intro r blk l v
  refine ⟨fun hopen hhas => ?_, fun hclosed => ?_, fun hopen hhas => ?_⟩
  · have hblk : padBlock s.hash.pending = blk := by rw [padBlock, HashCtx.length_pending]; rfl
    have hv : s.hash.finalState = v := by rw [HashCtx.finalState_eq, hblk]; rfl
    rw [exec_of_check_ok (check_hfin_eq_ok hopen hhas), effectOf, hfinEffect, complete_writeDigest, HashCtx.finish, hv]
  · exact exec_of_check_eq (check_eq_noCtx rfl hclosed) (by decide)
  · exact exec_of_check_eq (by rw [check_hfin, if_neg (by simp [hopen]), if_neg hhas]) (by decide)

/-- A region is shorter than HLEN_MAX (R137). -/
theorem hashEffect_eq (s : State) : hashEffect s =
    writeDigest { hs := hashState (s.memRead s.ops.src.toNat s.ops.len.toNat)
                  hbuf := Vector.replicate 64 0, hcnt := 0, hlen := 0, hact := false } s := by
  have hmax : (s.memRead s.ops.src.toNat s.ops.len.toNat).length ≤ hlenMax := by
    rw [State.length_memRead, hlenMax]; omega
  rw [hashEffect, HashCtx.digest_eq _ hmax]

/-- Settles O20: the check of HASH, and DIGEST of the bytes at SRC; the two hashes are computed. -/
theorem hashWritesHashOfRegion : Obligations.HashWritesHashOfRegion := by
  refine ⟨rfl, fun w s hop hne => checkWord_eq_illegal_of_ne (by decide) hop hne s, by decide +kernel,
    by decide +kernel, fun s => ?_⟩
  intro m ok
  refine ⟨fun hclosed hok => ?_, fun hopen => ?_, fun hclosed hok => ?_⟩
  · rw [exec_of_check_ok (by rw [check_hash, if_neg (by simp [hclosed]), if_pos hok]), effectOf, hashEffect_eq,
      complete_writeDigest, hashOf]
  · exact exec_of_check_eq (check_eq_ctxBusy rfl hopen) (by decide)
  · exact exec_of_check_eq (by rw [check_hash, if_neg (by simp [hclosed]), if_neg hok]) (by decide)

/-- HASH writes the hash of the bytes at SRC, as a read of MEM finds it. -/
theorem exec_hash_memRead {s t : State} (hs : Mem.wf s.mem) (hc : check .hash s = .ok) (h : exec .hash s = .next t) :
    t.memRead s.ops.dst.toNat 32 = hashOf (s.memRead s.ops.src.toNat s.ops.len.toNat) := by
  rw [exec_of_check_ok hc, effectOf, hashEffect_eq] at h
  cases h
  exact memRead_complete_writeDigest hs _

/-! ## A message in pieces (R138) -/

/-- The state after a host write whose access has been taken and accepted. -/
def State.accept (s : State) (rest : List Input) : State := (s.setInputs rest).setResp .accepted

/-- A host write to a register other than CMD (R192). -/
theorem step_wr {s : State} {r : Csr} {v : Word} {rest : List Input} (hr : r ≠ .cmd)
    (h : s.inputs = Input.wr s.cfg r v :: rest) : step s = .next (r.write v (s.accept rest)) := by
  obtain ⟨h4, hlt⟩ := r.offset_aligned
  rw [step_csrWrite hlt h4 h, csrWriteWord, Csr.ofOffset_offset]
  cases r with
  | cmd => exact absurd rfl hr
  | _ => rfl

/-- The host's write of a command's word to CMD (R99, R97). -/
theorem step_command {s : State} {i : Instr} {rest : List Input} (h : s.inputs = Input.command s.cfg i :: rest) :
    step s = exec i (s.issued (encode i) rest) :=
  stepRunsDecodedCommand s (encode i) rest i h (decode_encode i)

/-- The state HINIT leaves of `s`, with the inputs `rest` left (R132). -/
def State.opened (s : State) (rest : List Input) : State := complete (hinitEffect (s.issued (encode .hinit) rest))

theorem step_hinit {s : State} {rest : List Input} (h : s.inputs = Input.command s.cfg .hinit :: rest) :
    step s = .next (s.opened rest) :=
  (step_command h).trans (exec_of_check_ok rfl)

/-- The bytes `m` have been absorbed since `s`, and the inputs `rest` are left. -/
structure Streamed (s : State) (m : List Byte) (rest : List Input) (t : State) : Prop where
  inputs : t.inputs = rest
  cfg : t.cfg = s.cfg
  powerUps : t.powerUps = s.powerUps
  hash : t.hash = s.hash.absorb m

/-- What a piece asks of the state before it: its host writes and its region exist (R70, R73). -/
def StreamPiece.Fits (p : StreamPiece) (c : Config) : Prop :=
  (p.len.toNat = 0 ∨ p.src.toNat + p.len.toNat ≤ c.memBytes) ∧ ∀ w ∈ p.writes, w.1 + w.2.length ≤ c.memBytes

theorem step_hupd {s : State} {rest : List Input} (hi : s.inputs = Input.command s.cfg .hupd :: rest)
    (hopen : s.hash.hact = true) (hmax : s.hash.hlen.toNat + s.ops.len.toNat ≤ hlenMax)
    (hhas : s.has s.ops.src s.ops.len.toNat) :
    ∃ t : State, step s = .next t ∧ Streamed s (s.memRead s.ops.src.toNat s.ops.len.toNat) rest t ∧ t.mem = s.mem := by
  have hc : check .hupd (s.issued (encode .hupd) rest) = .ok :=
    check_hupd_eq_ok (s := s.issued (encode .hupd) rest) hopen hmax hhas
  refine ⟨_, (step_command hi).trans (exec_of_check_ok hc), ⟨rfl, rfl, rfl, ?_⟩, rfl⟩
  exact congrArg s.hash.absorb (State.memRead_congr rfl rfl _ _)

/-- The state after the host's writes of SRC and LEN, with the inputs `rest` left (R192). -/
def State.pointed (s : State) (src len : Word) (rest : List Input) : State :=
  { s with ops := { s.ops with src := src, len := len }, inputs := rest, resp := .accepted }

theorem run_srcLen {s : State} {src len : Word} {rest : List Input} (k : Nat)
    (hi : s.inputs = Input.wr s.cfg .src src :: Input.wr s.cfg .len len :: rest) :
    Host.Core.run Sys2Proof.core (k + 2) s = Host.Core.run Sys2Proof.core k (s.pointed src len rest) := by
  have hsrc : step s = .next (s.pointed src s.ops.len (Input.wr s.cfg .len len :: rest)) :=
    step_wr (r := .src) (by decide) hi
  have hlen : step (s.pointed src s.ops.len (Input.wr s.cfg .len len :: rest)) = .next (s.pointed src len rest) :=
    step_wr (r := .len) (by decide) rfl
  exact (run_succ hsrc).trans (run_succ hlen)

/-- The steps of SRC, LEN and HUPD. -/
theorem run_hupd {s : State} {src len : Word} {rest : List Input} (k : Nat)
    (hi : s.inputs = [Input.wr s.cfg .src src, Input.wr s.cfg .len len, Input.command s.cfg .hupd] ++ rest)
    (hopen : s.hash.hact = true) (hmax : s.hash.hlen.toNat + len.toNat ≤ hlenMax) (hhas : s.has src len.toNat) :
    ∃ t : State, Host.Core.run Sys2Proof.core (k + 3) s = Host.Core.run Sys2Proof.core k t ∧
      Streamed s (s.memRead src.toNat len.toNat) rest t ∧ t.mem = s.mem := by
  obtain ⟨t, hupd, ht, hmem⟩ :=
    step_hupd (s := s.pointed src len (Input.command s.cfg .hupd :: rest)) (rest := rest) rfl hopen hmax hhas
  refine ⟨t, (run_srcLen (k + 1) hi).trans (run_succ hupd), ⟨ht.inputs, ht.cfg, ht.powerUps, ?_⟩, hmem⟩
  exact ht.hash.trans (congrArg s.hash.absorb (State.memRead_congr rfl rfl _ _))

/-- The steps of one piece: its bytes are those at SRC after its writes. -/
theorem run_piece {s : State} {p : StreamPiece} {rest : List Input} (k : Nat)
    (hi : s.inputs = p.inputs s.cfg ++ rest) (hopen : s.hash.hact = true)
    (hmax : s.hash.hlen.toNat + p.len.toNat ≤ hlenMax) (hfits : p.Fits s.cfg) :
    ∃ t : State, Host.Core.run Sys2Proof.core ((p.inputs s.cfg).length + k) s = Host.Core.run Sys2Proof.core k t ∧
      Streamed s (p.bytes s) rest t ∧ t.mem = (p.written s).mem := by
  obtain ⟨hhas, hwrites⟩ := hfits
  rw [StreamPiece.inputs, List.append_assoc] at hi
  obtain ⟨u, hrun, hu⟩ := run_memWrites p.writes _ (k + 3) hi hwrites
  have hmem : u.mem = (p.written s).mem := by rw [hu]; rfl
  have hpowerUps : u.powerUps = s.powerUps := by rw [hu]
  have hhash : u.hash = s.hash := by rw [hu]
  have hcfg : u.cfg = s.cfg := by rw [hu]
  obtain ⟨t, hrun', ⟨hin, hcfg', hpowerUps', hhash'⟩, hmem'⟩ :=
    run_hupd (s := u) (src := p.src) (len := p.len) (rest := rest) k (by rw [hcfg, hu])
      (by rwa [hhash]) (by rwa [hhash]) (by rwa [State.has, hcfg])
  have hbytes : u.memRead p.src.toNat p.len.toNat = p.bytes s :=
    State.memRead_congr hmem (hpowerUps.trans (p.written_powerUps s).symm) _ _
  refine ⟨t, ?_, ⟨hin, hcfg'.trans hcfg, hpowerUps'.trans hpowerUps, ?_⟩, hmem'.trans hmem⟩
  · rw [← hrun', ← hrun, StreamPiece.inputs]
    congr 1
    simp; omega
  · rw [hhash', hhash, hbytes]

/-- The steps of the pieces one after the other. -/
theorem run_pieces {pieces : List StreamPiece} {s : State} {rest : List Input} (k : Nat)
    (hi : s.inputs = pieces.flatMap (StreamPiece.inputs s.cfg) ++ rest) (hs : Mem.wf s.mem) (hopen : s.hash.hact = true)
    (hmax : s.hash.hlen.toNat + (streamMessage pieces s).length ≤ hlenMax) (hfits : ∀ p ∈ pieces, p.Fits s.cfg) :
    ∃ t : State, Host.Core.run Sys2Proof.core ((pieces.flatMap (StreamPiece.inputs s.cfg)).length + k) s =
        Host.Core.run Sys2Proof.core k t ∧
      Streamed s (streamMessage pieces s) rest t ∧ Mem.wf t.mem := by
  induction pieces generalizing s with
  | nil =>
    refine ⟨s, by simp, ⟨hi, rfl, rfl, ?_⟩, hs⟩
    rw [streamMessage, HashCtx.absorb_nil]
  | cons p ps ih =>
    rw [streamMessage, List.length_append, StreamPiece.length_bytes] at hmax
    rw [List.flatMap_cons, List.append_assoc] at hi
    obtain ⟨u, hrun, hu, hmem⟩ := run_piece ((ps.flatMap (StreamPiece.inputs s.cfg)).length + k) hi hopen (by omega)
      (hfits p (by simp))
    have hmsg : streamMessage ps u = streamMessage ps (p.written s) :=
      streamMessage_congr ps hmem (hu.powerUps.trans (p.written_powerUps s).symm)
    have hhlen : u.hash.hlen.toNat = s.hash.hlen.toNat + p.len.toNat := by
      rw [hu.hash, HashCtx.toNat_hlen_absorb (by rw [StreamPiece.length_bytes]; omega), StreamPiece.length_bytes]
    obtain ⟨t, hrun', ht, hwf⟩ := ih (s := u) (by rw [hu.inputs, hu.cfg]) (hmem ▸ p.written_wf hs)
      (by rw [hu.hash, (s.hash.absorb_counts _).2.2, hopen]) (by rw [hmsg, hhlen]; omega)
      (fun q hq => by rw [hu.cfg]; exact hfits q (by simp [hq]))
    refine ⟨t, ?_, ⟨ht.inputs, ht.cfg.trans hu.cfg, ht.powerUps.trans hu.powerUps, ?_⟩, hwf⟩
    · rw [hu.cfg] at hrun'
      rw [List.flatMap_cons, List.length_append, Nat.add_assoc, hrun, hrun']
    · rw [ht.hash, hu.hash, hmsg, streamMessage, HashCtx.absorb_append]

theorem step_hfin {s : State} {rest : List Input} (hi : s.inputs = Input.command s.cfg .hfin :: rest)
    (hs : Mem.wf s.mem) (hopen : s.hash.hact = true) (hhas : s.has s.ops.dst 32) :
    ∃ t : State, step s = .next t ∧ t.memRead s.ops.dst.toNat 32 = s.hash.finish.digestBytes ∧ t.err = .ok := by
  have hc : check .hfin (s.issued (encode .hfin) rest) = .ok :=
    check_hfin_eq_ok (s := s.issued (encode .hfin) rest) hopen hhas
  exact ⟨_, (step_command hi).trans (exec_of_check_ok hc),
    memRead_complete_writeDigest (s := s.issued (encode .hfin) rest) hs _, complete_err _⟩

/-- The steps of DST and HFIN, the last of the program. -/
theorem run_hfin {s : State} {dst : Word} (hi : s.inputs = [Input.wr s.cfg .dst dst, Input.command s.cfg .hfin])
    (hs : Mem.wf s.mem) (hopen : s.hash.hact = true) (hhas : s.has dst 32) :
    ∃ t : State, Host.Core.run Sys2Proof.core 2 s = .next t ∧
      t.memRead dst.toNat 32 = s.hash.finish.digestBytes ∧ t.err = .ok := by
  have hdst := step_wr (r := .dst) (by decide) hi
  obtain ⟨t, hfin, ht⟩ := step_hfin (s := Csr.dst.write dst (s.accept [Input.command s.cfg .hfin])) (rest := []) rfl hs
    hopen hhas
  exact ⟨t, (run_succ hdst).trans (run_succ hfin), ht⟩

/-- Settles O21: HINIT starts the stream, the pieces absorb the message, and HFIN and HASH both write its hash. -/
theorem splitStreamGivesSameDigest : Obligations.SplitStreamGivesSameDigest := by
  intro s pieces dst m prog hs hpieces hdst hmax
  let loaded := { s with inputs := prog }
  let u := loaded.opened
    (pieces.flatMap (StreamPiece.inputs s.cfg) ++ [Input.wr s.cfg .dst dst, Input.command s.cfg .hfin])
  have hinit : step loaded = .next u := step_hinit (List.append_assoc ..)
  have hmsg : streamMessage pieces u = m := streamMessage_congr pieces rfl rfl
  have hfresh : u.hash.Fresh := ⟨rfl, rfl, rfl⟩
  obtain ⟨v, hrun, hv, hwf⟩ := run_pieces (s := u) (pieces := pieces) 2 rfl hs rfl
    (by rw [hmsg, hfresh.hlen]; simpa [hlenMax] using hmax) hpieces
  have hopen : v.hash.hact = true := by rw [hv.hash, (u.hash.absorb_counts _).2.2]; rfl
  obtain ⟨t, hfin, hread, herr⟩ := run_hfin (s := v) (dst := dst) (by rw [hv.inputs, hv.cfg]; rfl) hwf hopen
    (by rw [State.has, hv.cfg]; exact hdst)
  have hdigest : t.memRead dst.toNat 32 = hashOf m := by
    rw [hread, hv.hash, hmsg, hfresh.digestBytes_finish_absorb hmax]
  have hlen : prog.length = (pieces.flatMap (StreamPiece.inputs s.cfg)).length + 2 + 1 := by
    simp [prog, streamProgram]
  refine ⟨t, ?_, hdigest, herr, fun x y hx hc hm hxy => ?_⟩
  · rw [hlen]
    exact (run_succ hinit).trans (hrun.trans hfin)
  · rw [exec_hash_memRead hx hc hxy, hm, hdigest]

end Sys2Proof.Machine
end

section
/-! PROOFS of the family 42_hmac.md: DIGEST (R150), the key (R151) and HMAC (R152, R153). -/

namespace Sys2Proof.Machine

/-! ## DIGEST (R150) -/

theorem HashCtx.digestBytes_digest (h : HashCtx) {m : List Byte} (hmax : m.length ≤ hlenMax) :
    (h.digest m).digestBytes = hashOf m :=
  h.fresh_start.digestBytes_finish_absorb hmax

/-- Settles O19: DIGEST absorbs the message from a fresh start. -/
theorem digestIsHashOfPaddedMessage : Obligations.DigestIsHashOfPaddedMessage :=
  fun h _ hmax => ⟨h.digest_eq hmax, h.digestBytes_digest hmax⟩

/-! ## The key and the tag (R151, R152) -/

theorem HashCtx.key0_eq (h : HashCtx) {k : List Byte} (hk : k.length ≤ hlenMax) : h.key0 k = macKey k := by
  rw [HashCtx.key0, macKey, h.digestBytes_digest hk]

theorem length_padKey_le (k0 : List Byte) (pad : Byte) : (padKey k0 pad).length ≤ 64 := by
  rw [padKey, length_xorBytes, length_rep]
  exact Nat.min_le_right _ _

/-- A padded key in front of a message: one block more to hash. -/
theorem length_padKey_append_le (k0 : List Byte) (pad : Byte) {m : List Byte} (hm : 64 + m.length ≤ hlenMax) :
    (padKey k0 pad ++ m).length ≤ hlenMax := by
  rw [List.length_append]
  exact (Nat.add_le_add_right (length_padKey_le k0 pad) _).trans hm

theorem HashCtx.digestBytes_macInner (h : HashCtx) {k d : List Byte} (hk : k.length ≤ hlenMax)
    (hd : 64 + d.length ≤ hlenMax) : (h.macInner k d).digestBytes = macInnerOf k d := by
  rw [HashCtx.macInner, HashCtx.digestBytes_digest _ (length_padKey_append_le _ _ hd), h.key0_eq hk, padKey,
    macInnerOf]

/-- The hash context that HMAC leaves: the outer hash is the last DIGEST. -/
theorem HashCtx.mac_eq (h : HashCtx) {k d : List Byte} (hk : k.length ≤ hlenMax) (hd : 64 + d.length ≤ hlenMax) :
    h.mac k d =
      { hs := hashState (macOuterMessage k d), hbuf := Vector.replicate 64 0, hcnt := 0, hlen := 0, hact := false } := by
  have houter : padKey (h.key0 k) opadByte ++ (h.macInner k d).digestBytes = macOuterMessage k d := by
    rw [h.key0_eq hk, h.digestBytes_macInner hk hd, padKey, macOuterMessage]
  have hmax : (macOuterMessage k d).length ≤ hlenMax :=
    length_padKey_append_le _ _ (by rw [macInnerOf, length_hashOf]; decide)
  rw [HashCtx.mac, houter, HashCtx.digest_eq _ hmax]

/-! ## HMAC (R152, R153) -/

/-- Key and data are regions of MEM, so shorter than HLEN_MAX by more than a block. -/
theorem hmacEffect_eq (s : State) : hmacEffect s =
    writeDigest { hs := hashState (macOuterMessage (s.memRead s.ops.keyp.toNat s.ops.klen.toNat)
                    (s.memRead s.ops.src.toNat s.ops.len.toNat))
                  hbuf := Vector.replicate 64 0, hcnt := 0, hlen := 0, hact := false } s := by
  have hk : (s.memRead s.ops.keyp.toNat s.ops.klen.toNat).length ≤ hlenMax := by
    rw [State.length_memRead, hlenMax]; omega
  have hd : 64 + (s.memRead s.ops.src.toNat s.ops.len.toNat).length ≤ hlenMax := by
    rw [State.length_memRead, hlenMax]; omega
  rw [hmacEffect, HashCtx.mac_eq _ hk hd]

/-- Settles O22: the check of HMAC, and the two nested DIGESTs; the tag of the example is computed. -/
theorem hmacWritesMacOfKeyAndData : Obligations.HmacWritesMacOfKeyAndData := by
  refine ⟨rfl, fun w s hop hne => checkWord_eq_illegal_of_ne (by decide) hop hne s, by decide +kernel, fun s => ?_⟩
  intro k d ok
  refine ⟨fun hclosed hok => ?_, fun hopen => ?_, fun hclosed hok => ?_⟩
  · rw [exec_of_check_ok (by rw [check_hmac, if_neg (by simp [hclosed]), if_pos hok]), effectOf, hmacEffect_eq,
      complete_writeDigest, macOf, hashOf]
  · exact exec_of_check_eq (check_eq_ctxBusy rfl hopen) (by decide)
  · exact exec_of_check_eq (by rw [check_hmac, if_neg (by simp [hclosed]), if_neg hok]) (by decide)

/-- HMAC writes the mac of the bytes at KEYP and SRC, as a read of MEM finds it. -/
theorem exec_hmac_memRead {s t : State} (hs : Mem.wf s.mem) (hc : check .hmac s = .ok) (h : exec .hmac s = .next t) :
    t.memRead s.ops.dst.toNat 32 =
      macOf (s.memRead s.ops.keyp.toNat s.ops.klen.toNat) (s.memRead s.ops.src.toNat s.ops.len.toNat) := by
  rw [exec_of_check_ok hc, effectOf, hmacEffect_eq] at h
  cases h
  exact memRead_complete_writeDigest hs _

/-- Settles O23: both states write the mac of the same bytes. -/
theorem hmacTagDependsOnKeyAndDataOnly : Obligations.HmacTagDependsOnKeyAndDataOnly := by
  intro s t s' t' hs hs' hc hc' hkey hdata h h'
  rw [exec_hmac_memRead hs hc h, exec_hmac_memRead hs' hc' h', hkey, hdata]

end Sys2Proof.Machine
end

section
/-! PROOFS of the family 43_cipher_key_schedule.md: KEXP (R163) and the recurrence of the key schedule (R164). -/

namespace Sys2Proof.Machine

/-! ## KEXP (R163) -/

/-- Settles O29: the check and the effect of KEXP; the round keys of the example are computed. -/
theorem kexpExpandsKeyAtKeyp : Obligations.KexpExpandsKeyAtKeyp := by
  refine ⟨fun s h => ?_, fun s h => ?_, rfl, fun w s hop hne => ?_, by decide +kernel⟩
  · exact exec_of_check_ok (by rw [check_kexp, if_pos h])
  · exact exec_of_check_eq (by rw [check_kexp, if_neg h]) (by decide)
  · exact checkWord_eq_illegal_of_ne (by decide) hop hne s

/-! ## The windows of a recurrence (R52, R164) -/

/-- The window X[i..i+3] of the recurrence that starts from the window `x` and takes `k j` in its step `j`. -/
def Window.after (t : Word → Word) (x : Window) (k : Nat → Word) : Nat → Window
  | 0 => x
  | i + 1 => (x.after t k i).next t (k i)

/-- The first step taken before the others. -/
theorem Window.after_succ (t : Word → Word) (x : Window) (k : Nat → Word) (i : Nat) :
    x.after t k (i + 1) = (x.next t (k 0)).after t (fun j => k (j + 1)) i := by
  induction i with
  | zero => rfl
  | succ i ih => rw [Window.after, ih, Window.after]

/-- X[i], the oldest word of its window. -/
def Window.word (t : Word → Word) (x : Window) (k : Nat → Word) (i : Nat) : Word := (x.after t k i).x0

/-- Each step moves the window on by one, so X[i+1..i+3] stand in the window of X[i]. -/
theorem Window.word_add_four (t : Word → Word) (x : Window) (k : Nat → Word) (i : Nat) :
    x.word t k (i + 4) =
      x.word t k i ^^^ t (x.word t k (i + 1) ^^^ x.word t k (i + 2) ^^^ x.word t k (i + 3) ^^^ k i) := rfl

/-! ## The key schedule (R164) -/

/-- `keyWords` adds the word X[i+4] in its step `i`. -/
theorem getElem?_keyWords (x : Window) (k : Nat → Word) {n i : Nat} (hi : i < n) :
    (keyWords x ((List.range n).map k))[i]? = some (x.word tKey k (i + 4)) := by
  induction n generalizing x k i with
  | zero => exact absurd hi (Nat.not_lt_zero i)
  | succ n ih =>
    rw [List.range_succ_eq_map, List.map_cons, List.map_map, keyWords]
    cases i with
    | zero => rfl
    | succ i =>
      rw [List.getElem?_cons_succ, Window.word, Nat.add_right_comm, Window.after_succ]
      exact ih (x.next tKey (k 0)) (fun j => k (j + 1)) (Nat.lt_of_succ_lt_succ hi)

/-- K[i], the key words and after them the round keys. -/
def keyWord (key : List Byte) : Nat → Word := (keyWindow key).word tKey ck

theorem keyWord_of_lt (key : List Byte) (i : Fin 4) : keyWord key i.val = be32 key (4 * i.val) ^^^ fk[i] :=
  match i with
  | 0 | 1 | 2 | 3 => rfl

theorem getElem_expandKey (key : List Byte) (i : Fin 32) : (expandKey key)[i] = keyWord key (i.val + 4) := by
  obtain ⟨_, h⟩ := List.getElem?_eq_some_iff.mp (getElem?_keyWords (keyWindow key) ck i.isLt)
  exact h

/-- Settles O30: each round key is the new word of its window; the words of the example are computed. -/
theorem scheduleFollowsRecurrence : Obligations.ScheduleFollowsRecurrence :=
  ⟨by decide +kernel, fun key => ⟨keyWord key, keyWord_of_lt key,
    fun i _ => (keyWindow key).word_add_four tKey ck i, getElem_expandKey key⟩⟩

end Sys2Proof.Machine
end

section
/-! PROOFS of the family 44_cipher_block.md: the recurrence of the block transform (R172), its two directions (R175), and
the commands BENC and BDEC (R173, R174). -/

namespace Sys2Proof.Machine

/-! ## Words and bytes (R12) -/

theorem be32_ser32 (x : Word) : be32 (ser32 x) 0 = x := by
  apply BitVec.eq_of_toNat_eq
  have hbytes := map_toNat_ser32 x
  simp only [ser32, List.map_cons, List.map_nil, List.cons.injEq, and_true] at hbytes
  obtain ⟨h0, h1, h2, h3⟩ := hbytes
  simp only [toNat_be32, ser32, List.getD_cons_zero, List.getD_cons_succ, Nat.zero_add, h0, h1, h2, h3]
  omega

theorem ser32_append (b0 b1 b2 b3 : Byte) : ser32 (b0 ++ b1 ++ b2 ++ b3) = [b0, b1, b2, b3] := by
  apply List.map_injective_iff.mpr (fun _ _ => BitVec.eq_of_toNat_eq)
  simp only [map_toNat_ser32, toNat_append_eq_mul_add, List.map_cons, List.map_nil, List.cons.injEq, and_true]
  omega

/-- A 16-byte string is its four words written out. -/
theorem serw_be32 {b : List Byte} (hb : b.length = 16) : serw [be32 b 0, be32 b 4, be32 b 8, be32 b 12] = b := by
  match b, hb with
  | [_, _, _, _, _, _, _, _, _, _, _, _, _, _, _, _], _ =>
    simp only [serw, List.flatMap_cons, List.flatMap_nil, be32, ser32_append, List.getD_cons_zero, List.getD_cons_succ,
      List.cons_append, List.nil_append]

/-! ## The recurrence (R172) -/

/-- The words of the recurrence fill its windows. -/
theorem Window.after_eq (t : Word → Word) (x : Window) (k : Nat → Word) (i : Nat) : x.after t k i =
    ⟨x.word t k i, x.word t k (i + 1), x.word t k (i + 2), x.word t k (i + 3)⟩ := rfl

/-- Consuming a list of keys is running the recurrence as far as the list goes. -/
theorem Window.foldl_next (t : Word → Word) (x : Window) (ks : List Word) :
    ks.foldl (Window.next t) x = x.after t (fun i => ks.getD i 0) ks.length := by
  induction ks generalizing x with
  | nil => rfl
  | cons k ks ih => rw [List.foldl_cons, ih, List.length_cons, Window.after_succ]; rfl

theorem Dir.length_keys (d : Dir) (rk : Vector Word 32) : (d.keys rk).length = 32 := by
  cases d <;> simp [Dir.keys]

theorem Dir.getD_keys_enc (rk : Vector Word 32) (i : Fin 32) : (Dir.enc.keys rk).getD i.val 0 = rk[i] := by
  simp [Dir.keys]

theorem Dir.getD_keys_dec (rk : Vector Word 32) (i : Fin 32) :
    (Dir.dec.keys rk).getD i.val 0 = rk[31 - i.val]'(by omega) := by
  simp [Dir.keys]

/-- X[i], the block's words and after them the new words, the keys taken in the order of the direction. -/
def blockWord (b : List Byte) (rk : Vector Word 32) (d : Dir) : Nat → Word :=
  (blockWindow b).word tData (fun i => (d.keys rk).getD i 0)

theorem blockWord_of_lt (b : List Byte) (rk : Vector Word 32) (d : Dir) {i : Nat} (hi : i < 4) :
    blockWord b rk d i = be32 b (4 * i) :=
  match i with
  | 0 | 1 | 2 | 3 => rfl

theorem blockF_eq_serw_blockWord (b : List Byte) (rk : Vector Word 32) (d : Dir) : blockF b rk d =
    serw [blockWord b rk d 35, blockWord b rk d 34, blockWord b rk d 33, blockWord b rk d 32] := by
  rw [blockF, Window.foldl_next, d.length_keys, Window.after_eq, Window.out]
  rfl

/-- Settles O31 with the words of the windows that `blockF` runs through. -/
theorem transformFollowsRecurrence : Obligations.TransformFollowsRecurrence := by
  refine fun b rk d => ⟨blockWord b rk d, fun i hi => blockWord_of_lt b rk d hi, fun i => ?_,
    blockF_eq_serw_blockWord b rk d⟩
  rw [blockWord, Window.word_add_four]
  cases d with
  | enc => rw [Dir.getD_keys_enc]
  | dec => rw [Dir.getD_keys_dec]

/-! ## The two directions (R175) -/

/-- The window read backwards: the order in which `Window.out` writes its words. -/
def Window.flip (x : Window) : Window := ⟨x.x3, x.x2, x.x1, x.x0⟩

/-- Run on the reversed window, a step takes its own new word away again. -/
theorem Window.next_flip_next (t : Word → Word) (x : Window) (k : Word) :
    ((x.next t k).flip).next t k = x.flip := by
  have hback : (x.x0 ^^^ t (x.x1 ^^^ x.x2 ^^^ x.x3 ^^^ k)) ^^^ t (x.x3 ^^^ x.x2 ^^^ x.x1 ^^^ k) = x.x0 := by
    rw [show x.x3 ^^^ x.x2 ^^^ x.x1 = x.x1 ^^^ x.x2 ^^^ x.x3 by ac_rfl, BitVec.xor_assoc, BitVec.xor_self,
      BitVec.xor_zero]
  simp only [Window.next, Window.flip, hback]

/-- The keys in reverse order undo the run on the reversed window. -/
theorem Window.foldl_next_flip (t : Word → Word) (x : Window) (ks : List Word) :
    ks.reverse.foldl (Window.next t) (ks.foldl (Window.next t) x).flip = x.flip := by
  induction ks generalizing x with
  | nil => rfl
  | cons k ks ih => rw [List.foldl_cons, List.reverse_cons, List.foldl_append, ih]; exact x.next_flip_next t k

theorem blockWindow_out (x : Window) : blockWindow x.out = x.flip :=
  calc blockWindow x.out = ⟨be32 (ser32 x.x3) 0, be32 (ser32 x.x2) 0, be32 (ser32 x.x1) 0, be32 (ser32 x.x0) 0⟩ := rfl
    _ = x.flip := by simp only [be32_ser32, Window.flip]

theorem out_flip_blockWindow {b : List Byte} (hb : b.length = 16) : (blockWindow b).flip.out = b := serw_be32 hb

theorem Dir.keys_dec (rk : Vector Word 32) : Dir.dec.keys rk = (Dir.enc.keys rk).reverse := rfl

theorem Dir.keys_enc (rk : Vector Word 32) : Dir.enc.keys rk = (Dir.dec.keys rk).reverse :=
  rk.toList.reverse_reverse.symm

/-- A transform with the keys of the other direction undoes a transform. -/
theorem blockF_blockF_of_keys_reverse {d e : Dir} {rk : Vector Word 32} (hkeys : e.keys rk = (d.keys rk).reverse)
    {b : List Byte} (hb : b.length = 16) : blockF (blockF b rk d) rk e = b := by
  rw [blockF, blockF, blockWindow_out, hkeys, Window.foldl_next_flip, out_flip_blockWindow hb]

/-- Settles O32: the keys of each direction are those of the other reversed. -/
theorem transformDirectionsAreInverse : Obligations.TransformDirectionsAreInverse := fun rk _ hx =>
  ⟨blockF_blockF_of_keys_reverse (Dir.keys_dec rk) hx, blockF_blockF_of_keys_reverse (Dir.keys_enc rk) hx⟩

/-! ## BENC and BDEC (R173, R174) -/

/-- IVL or a reserved bit makes a word with the opcode of BENC or BDEC ILLEGAL (R94). -/
theorem checkWord_eq_illegal_of_block {w : Word} (hop : w.toNat % 16 = 8 ∨ w.toNat % 16 = 9)
    (hbits : w.getLsbD 4 = true ∨ w.toNat / 64 ≠ 0) (s : State) : checkWord w s = .illegal := by
  have hill : illegal w = true := by
    rw [illegal_iff, rsvdOk_ofWord_eq_false_iff, ivlOk_ofWord_eq_false_iff]
    rcases hbits with hivl | hrsvd
    · exact .inr (.inr (.inl ⟨hivl, by omega⟩))
    · exact .inr (.inl hrsvd)
  obtain ⟨e, he⟩ := exists_decode_error_iff_illegal.mpr hill
  exact checkWord_of_decode_error he s

/-- The KX step of a command that passes its key check: KVALID is set already where no key is expanded. -/
theorem State.kxStep_of_keyed {s : State} {kx : Bool} (hkeyed : kx = true ∨ s.cipher.kvalid = true) :
    s.kxStep kx = s.setCipher { rk := if kx then expandKey (s.memRead s.ops.keyp.toNat 16) else s.cipher.rk,
                                kvalid := true, cr := s.cipher.cr } := by
  cases kx with
  | true => rfl
  | false =>
    have hkvalid : s.cipher.kvalid = true := by simpa using hkeyed
    exact congrArg (fun v => s.setCipher { s.cipher with kvalid := v }) hkvalid

theorem complete_transformBlock_kxStep {s : State} {kx : Bool} (hkeyed : kx = true ∨ s.cipher.kvalid = true) (d : Dir) :
    let rk := if kx then expandKey (s.memRead s.ops.keyp.toNat 16) else s.cipher.rk
    complete ((s.kxStep kx).transformBlock d) = { s with
      cipher := { rk := rk, kvalid := true, cr := s.cipher.cr }
      mem := Mem.writeBytes s.mem s.ops.dst.toNat (blockF (s.memRead s.ops.src.toNat 16) rk d)
      err := .ok } := by
  rw [State.kxStep_of_keyed hkeyed]
  rfl

/-- Settles O33: the check of the two commands and their effect; the blocks of the examples are computed. -/
theorem blockCommandsTransformOneBlock : Obligations.BlockCommandsTransformOneBlock := by
  refine ⟨by decide, fun w s hop hbits => checkWord_eq_illegal_of_block hop hbits s, by decide +kernel, fun s kx => ?_⟩
  intro rk keyed inRange out
  refine ⟨fun hkeyed hin => ?_, fun i hi => ?_⟩
  · have hok {i : Instr} (hi : i = .benc kx ∨ i = .bdec kx) : check i s = .ok := by
      rw [check_block hi, if_neg (not_not_intro hkeyed), if_pos hin]
    rw [exec_of_check_ok (hok (.inl rfl)), exec_of_check_ok (hok (.inr rfl))]
    exact ⟨congrArg _ (complete_transformBlock_kxStep hkeyed .enc), congrArg _ (complete_transformBlock_kxStep hkeyed .dec)⟩
  · have hcheck := check_block (by simpa using hi) s
    refine ⟨fun hkeyed => ?_, fun hkeyed hin => ?_⟩
    · exact exec_of_check_eq (hcheck.trans (if_pos hkeyed)) (by decide)
    · exact exec_of_check_eq (hcheck.trans (by rw [if_neg (not_not_intro hkeyed), if_neg hin])) (by decide)

end Sys2Proof.Machine
end

section
/-! PROOFS of the family 45_chain_mode.md: CBCE and CBCD block by block (R180, R181), the chained transform they write, and
what follows from the chain value (R185, R186). -/

namespace Sys2Proof.Machine

/-! ## The two directions of the chained mode (R180, R181) -/

/-- CBCE and CBCD. -/
def Dir.chained (d : Dir) (ivl kx : Bool) : Instr :=
  match d with
  | .enc => .cbce ivl kx
  | .dec => .cbcd ivl kx

theorem Dir.chained_cases (d : Dir) (ivl kx : Bool) :
    d.chained ivl kx = .cbce ivl kx ∨ d.chained ivl kx = .cbcd ivl kx := by
  cases d <;> simp [Dir.chained]

/-- One block of the command. -/
def Dir.chainBlock (d : Dir) : Nat → Nat → State → State :=
  match d with
  | .enc => State.cbceBlock
  | .dec => State.cbcdBlock

/-- The block written for the block `x` read, with the chain value `cr`. -/
def Dir.chainOut (d : Dir) (rk : Vector Word 32) (cr x : List Byte) : List Byte :=
  match d with
  | .enc => blockF (xorBytes x cr) rk .enc
  | .dec => xorBytes (blockF x rk .dec) cr

/-- The next chain value: the ciphertext block (R183). -/
def Dir.chainNext (d : Dir) (rk : Vector Word 32) (cr x : List Byte) : List Byte :=
  match d with
  | .enc => blockF (xorBytes x cr) rk .enc
  | .dec => x

/-- The chained transform of a list of blocks. -/
def Dir.cbc (d : Dir) : Vector Word 32 → List Byte → List (List Byte) → List (List Byte) :=
  match d with
  | .enc => cbcEncrypt
  | .dec => cbcDecrypt

@[simp] theorem Dir.cbc_nil (d : Dir) (rk : Vector Word 32) (cr : List Byte) : d.cbc rk cr [] = [] := by
  cases d <;> rfl

theorem Dir.cbc_cons (d : Dir) (rk : Vector Word 32) (cr x : List Byte) (xs : List (List Byte)) :
    d.cbc rk cr (x :: xs) = d.chainOut rk cr x :: d.cbc rk (d.chainNext rk cr x) xs := by
  cases d <;> rfl

theorem Dir.length_chainOut (d : Dir) (rk : Vector Word 32) {cr : List Byte} (hcr : cr.length = 16) (x : List Byte) :
    (d.chainOut rk cr x).length = 16 := by
  cases d <;> simp [Dir.chainOut, hcr]

theorem Dir.length_chainNext (d : Dir) (rk : Vector Word 32) (cr : List Byte) {x : List Byte} (hx : x.length = 16) :
    (d.chainNext rk cr x).length = 16 := by
  cases d <;> simp [Dir.chainNext, hx]

/-- What one block does to the state. -/
theorem Dir.chainBlock_eq (d : Dir) (src dst : Nat) (s : State) : d.chainBlock src dst s = { s with
    mem := Mem.writeBytes s.mem dst (d.chainOut s.cipher.rk s.chainBytes (s.memRead src 16))
    cipher := { s.cipher with cr := words4 (d.chainNext s.cipher.rk s.chainBytes (s.memRead src 16)) } } := by
  cases d <;> rfl

theorem Dir.chainBlock_keeps (d : Dir) (src dst : Nat) (s : State) : (d.chainBlock src dst s).hash = s.hash ∧
    (d.chainBlock src dst s).cipher.rk = s.cipher.rk ∧ (d.chainBlock src dst s).cipher.kvalid = s.cipher.kvalid := by
  rw [d.chainBlock_eq]
  exact ⟨rfl, rfl, rfl⟩

theorem Dir.chainBlock_memory (d : Dir) (src dst : Nat) (s : State) (hs : Mem.wf s.mem) :
    Mem.wf (d.chainBlock src dst s).mem ∧
      ∀ x, ¬ (dst ≤ x ∧ x < dst + 16) → (d.chainBlock src dst s).memByte x = s.memByte x :=
  match d with
  | .enc => cbceBlock_memory s src dst hs
  | .dec => cbcdBlock_memory s src dst hs

/-! ## The loop over blocks (R180, R181) -/

/-- The last blocks of a loop go on from the state the first ones leave. -/
theorem chainBlocks_add (block : Nat → Nat → State → State) (m n src dst : Nat) (s : State) :
    State.chainBlocks block (m + n) src dst s =
      State.chainBlocks block n (src + 16 * m) (dst + 16 * m) (State.chainBlocks block m src dst s) := by
  induction m generalizing src dst s with
  | zero => rw [Nat.zero_add]; rfl
  | succ m ih =>
    rw [Nat.succ_add, State.chainBlocks, State.chainBlocks, ih]
    congr 1 <;> omega

theorem chainBlocks_succ (block : Nat → Nat → State → State) (n src dst : Nat) (s : State) :
    State.chainBlocks block (n + 1) src dst s =
      block (src + 16 * n) (dst + 16 * n) (State.chainBlocks block n src dst s) := chainBlocks_add block n 1 src dst s

/-- The schedule a chained command runs with (R166). -/
def State.chainKey (s : State) (kx : Bool) : Vector Word 32 :=
  if kx then expandKey (s.memRead s.ops.keyp.toNat 16) else s.cipher.rk

/-- The state after the KX step, the IVL step and `b` blocks. -/
def Dir.chainAfter (d : Dir) (ivl kx : Bool) (s : State) (b : Nat) : State :=
  ((s.kxStep kx).ivStep ivl).chainBlocks d.chainBlock b s.ops.src.toNat s.ops.dst.toNat

theorem exec_chained_of_check_ok {d : Dir} {ivl kx : Bool} {s : State} (hc : check (d.chained ivl kx) s = .ok) :
    exec (d.chained ivl kx) s = .next (complete (d.chainAfter ivl kx s (s.ops.len.toNat / 16))) := by
  rw [exec_of_check_ok hc]
  cases d <;> rfl

/-- The KX and IVL steps of a command that passes its key check. -/
theorem State.ivStep_kxStep_of_keyed {s : State} {kx : Bool} (hkeyed : kx = true ∨ s.cipher.kvalid = true) (ivl : Bool) :
    (s.kxStep kx).ivStep ivl = { s with cipher :=
      { rk := s.chainKey kx
        kvalid := true
        cr := if ivl then words4 (s.memRead s.ops.ivp.toNat 16) else s.cipher.cr } } := by
  rw [State.kxStep_of_keyed hkeyed]
  cases ivl <;> rfl

/-- The key part of the cipher context is that of the KX step (R180, R181). -/
theorem Dir.chainAfter_key (d : Dir) (ivl kx : Bool) (s : State) (b : Nat) :
    (d.chainAfter ivl kx s b).cipher.rk = (s.kxStep kx).cipher.rk ∧
      (d.chainAfter ivl kx s b).cipher.kvalid = (s.kxStep kx).cipher.kvalid := by
  obtain ⟨-, hrk, hkvalid⟩ := chainBlocks_keeps ((s.kxStep kx).ivStep ivl)
    (fun src dst t => d.chainBlock_keeps src dst t) b s.ops.src.toNat s.ops.dst.toNat
  obtain ⟨hrkIv, hkvalidIv⟩ := ivStep_keeps_key (s.kxStep kx) ivl
  exact ⟨hrk.trans hrkIv, hkvalid.trans hkvalidIv⟩

theorem Dir.chainAfter_rk (d : Dir) (ivl kx : Bool) (s : State) (b : Nat) :
    (d.chainAfter ivl kx s b).cipher.rk = s.chainKey kx := by
  rw [(d.chainAfter_key ivl kx s b).1]
  cases kx <;> rfl

theorem Dir.chainAfter_kvalid (d : Dir) (ivl : Bool) {kx : Bool} {s : State}
    (hkeyed : kx = true ∨ s.cipher.kvalid = true) (b : Nat) : (d.chainAfter ivl kx s b).cipher.kvalid = true := by
  rw [(d.chainAfter_key ivl kx s b).2, State.kxStep_of_keyed hkeyed]
  rfl

/-! ## The check and the run of the two commands (R180, R181) -/

/-- The regions of a chained command are in range. -/
abbrev State.chainInRange (s : State) (ivl kx : Bool) : Prop :=
  (kx = true → s.has s.ops.keyp 16) ∧ (ivl = true → s.has s.ops.ivp 16) ∧ s.has s.ops.src s.ops.len.toNat ∧
    s.has s.ops.dst s.ops.len.toNat

section Run
variable (d : Dir) {s : State} {ivl kx : Bool}

/-- The check passes exactly when no error of R180 applies. -/
theorem check_chained_eq_ok_iff : check (d.chained ivl kx) s = .ok ↔
    (kx = true ∨ s.cipher.kvalid = true) ∧ s.ops.len.toNat % 16 = 0 ∧ s.chainInRange ivl kx := by
  rw [check_chain (d.chained_cases ivl kx)]
  split
  next hkeyed => exact ⟨fun h => (nomatch h), fun h => absurd h.1 hkeyed⟩
  next hkeyed =>
    split
    next hlen => exact ⟨fun h => (nomatch h), fun h => absurd h.2.1 hlen⟩
    next hlen =>
      split
      next hin => exact ⟨fun _ => ⟨not_not.mp hkeyed, not_not.mp hlen, hin⟩, fun _ => rfl⟩
      next hin => exact ⟨fun h => (nomatch h), fun h => absurd h.2.2 hin⟩

/-- The states between the blocks are those of `Dir.chainAfter`. -/
theorem exec_chained_runs (hkeyed : kx = true ∨ s.cipher.kvalid = true) (hlen : s.ops.len.toNat % 16 = 0)
    (hin : s.chainInRange ivl kx) : ∃ S : Nat → State,
      S 0 = { s with cipher := { rk := s.chainKey kx, kvalid := true,
                                 cr := if ivl then words4 (s.memRead s.ops.ivp.toNat 16) else s.cipher.cr } } ∧
      (∀ b, b < s.ops.len.toNat / 16 →
        let x := (S b).memRead (s.ops.src.toNat + 16 * b) 16
        S (b + 1) = { S b with
          mem := Mem.writeBytes (S b).mem (s.ops.dst.toNat + 16 * b) (d.chainOut (s.chainKey kx) (S b).chainBytes x)
          cipher := { (S b).cipher with cr := words4 (d.chainNext (s.chainKey kx) (S b).chainBytes x) } }) ∧
      exec (d.chained ivl kx) s = .next { S (s.ops.len.toNat / 16) with err := .ok } := by
  refine ⟨d.chainAfter ivl kx s, State.ivStep_kxStep_of_keyed hkeyed ivl, fun b _ => ?_,
    exec_chained_of_check_ok ((check_chained_eq_ok_iff d).mpr ⟨hkeyed, hlen, hin⟩)⟩
  rw [← d.chainAfter_rk ivl kx s b]
  exact (chainBlocks_succ d.chainBlock b _ _ _).trans (d.chainBlock_eq _ _ _)

/-- The errors of both commands in order. -/
theorem exec_chained_fails :
    (¬ (kx = true ∨ s.cipher.kvalid = true) → exec (d.chained ivl kx) s = .next { s with err := .noKey }) ∧
    (kx = true ∨ s.cipher.kvalid = true → s.ops.len.toNat % 16 ≠ 0 →
      exec (d.chained ivl kx) s = .next { s with err := .lenAlign }) ∧
    (kx = true ∨ s.cipher.kvalid = true → s.ops.len.toNat % 16 = 0 → ¬ s.chainInRange ivl kx →
      exec (d.chained ivl kx) s = .next { s with err := .range }) := by
  have hcheck := check_chain (d.chained_cases ivl kx) s
  refine ⟨fun hkeyed => ?_, fun hkeyed hlen => ?_, fun hkeyed hlen hin => ?_⟩
  · exact exec_of_check_eq (hcheck.trans (if_pos hkeyed)) (by decide)
  · refine exec_of_check_eq (hcheck.trans ?_) (by decide)
    rw [if_neg (not_not_intro hkeyed), if_pos hlen]
  · refine exec_of_check_eq (hcheck.trans ?_) (by decide)
    rw [if_neg (not_not_intro hkeyed), if_neg (not_not_intro hlen), if_neg hin]

end Run

/-- A reserved bit makes a word ILLEGAL (R94). -/
theorem checkWord_eq_illegal_of_reserved {w : Word} (hrsvd : w.toNat / 64 ≠ 0) (s : State) : checkWord w s = .illegal := by
  have hill : illegal w = true := (illegal_iff w).mpr (.inr (.inl ((rsvdOk_ofWord_eq_false_iff w).mpr hrsvd)))
  obtain ⟨e, he⟩ := exists_decode_error_iff_illegal.mpr hill
  exact checkWord_of_decode_error he s

/-- Settles O34: the run and the errors of the enciphering direction; the blocks of the example are computed. -/
theorem cbceRunsBlockByBlock : Obligations.CbceRunsBlockByBlock :=
  ⟨by decide, fun _ s _ hrsvd => checkWord_eq_illegal_of_reserved hrsvd s, by decide +kernel,
    fun _ _ _ => ⟨exec_chained_runs .enc, exec_chained_fails .enc⟩⟩

/-- Settles O35: the run and the errors of the deciphering direction; the block of the example is computed. -/
theorem cbcdRunsBlockByBlock : Obligations.CbcdRunsBlockByBlock :=
  ⟨by decide, fun _ s _ hrsvd => checkWord_eq_illegal_of_reserved hrsvd s, by decide +kernel,
    fun _ _ _ => ⟨exec_chained_runs .dec, exec_chained_fails .dec⟩⟩

/-! ## The chained transform of a list of blocks (R186) -/

theorem xorBytes_xorBytes_cancel {a b : List Byte} (h : a.length ≤ b.length) : xorBytes (xorBytes a b) b = a := by
  refine List.ext_getElem (by simpa using h) fun i _ _ => ?_
  simp only [xorBytes, List.getElem_zipWith, BitVec.xor_assoc, BitVec.xor_self, BitVec.xor_zero]

/-- The plaintext block comes back from its own ciphertext block, whatever the two chain values are. -/
theorem blockF_dec_blockF_enc_xorBytes {rk : Vector Word 32} {iv p : List Byte} (hiv : iv.length = 16)
    (hp : p.length = 16) : blockF (blockF (xorBytes p iv) rk .enc) rk .dec = xorBytes p iv :=
  blockF_blockF_of_keys_reverse (Dir.keys_dec rk) (by simp [hiv, hp])

theorem cbcDecrypt_cbcEncrypt_cons (rk : Vector Word 32) {iv p : List Byte} (iv' : List Byte) (ps : List (List Byte))
    (hiv : iv.length = 16) (hp : p.length = 16) : cbcDecrypt rk iv' (cbcEncrypt rk iv (p :: ps)) =
      xorBytes (xorBytes p iv) iv' ::
        cbcDecrypt rk (blockF (xorBytes p iv) rk .enc) (cbcEncrypt rk (blockF (xorBytes p iv) rk .enc) ps) := by
  rw [cbcEncrypt, cbcDecrypt, blockF_dec_blockF_enc_xorBytes hiv hp]

/-- Decryption from the chain value of the encryption gives every block back. -/
theorem cbcDecrypt_cbcEncrypt (rk : Vector Word 32) {iv : List Byte} {ps : List (List Byte)} (hiv : iv.length = 16)
    (hps : ∀ p ∈ ps, p.length = 16) : cbcDecrypt rk iv (cbcEncrypt rk iv ps) = ps := by
  induction ps generalizing iv with
  | nil => rfl
  | cons p ps ih =>
    obtain ⟨hp, hps⟩ := List.forall_mem_cons.mp hps
    rw [cbcDecrypt_cbcEncrypt_cons rk iv ps hiv hp, xorBytes_xorBytes_cancel (by omega), ih (length_blockF _ _ _) hps]

/-- Settles O38: after the first block the two chain values are the same ciphertext block. -/
theorem wrongIvAltersOnlyFirstBlock : Obligations.WrongIvAltersOnlyFirstBlock := by
  intro rk iv iv' p ps hiv _ hp hps
  rw [cbcDecrypt_cbcEncrypt_cons rk iv' ps hiv hp, cbcDecrypt_cbcEncrypt rk (length_blockF _ _ _) hps]

theorem length_cbcEncrypt (rk : Vector Word 32) (cr : List Byte) (ps : List (List Byte)) :
    (cbcEncrypt rk cr ps).length = ps.length := by
  induction ps generalizing cr with
  | nil => rfl
  | cons p ps ih => rw [cbcEncrypt, List.length_cons, List.length_cons, ih]

theorem length_of_mem_cbcEncrypt (rk : Vector Word 32) (cr : List Byte) (ps : List (List Byte)) :
    ∀ c ∈ cbcEncrypt rk cr ps, c.length = 16 := by
  induction ps generalizing cr with
  | nil => exact fun _ hc => (nomatch hc)
  | cons p ps ih => exact List.forall_mem_cons.mpr ⟨length_blockF _ _ _, ih _⟩

/-! ## Byte strings and their blocks -/

theorem piecesOf_succ_append {k : Nat} {a : List Byte} (ha : a.length = k) (n : Nat) (b : List Byte) :
    piecesOf k (n + 1) (a ++ b) = a :: piecesOf k n b := by
  rw [piecesOf, List.range_succ_eq_map, List.map_cons, List.map_map]
  congr 1
  · rw [Nat.mul_zero, List.drop_zero, List.take_left' ha]
  · refine List.map_congr_left fun i _ => ?_
    rw [Function.comp_apply, Nat.mul_succ, Nat.add_comm, ← List.drop_drop, List.drop_left' ha]

theorem piecesOf_flatten {k : Nat} {xs : List (List Byte)} (hxs : ∀ x ∈ xs, x.length = k) :
    piecesOf k xs.length xs.flatten = xs := by
  induction xs with
  | nil => rfl
  | cons x xs ih =>
    obtain ⟨hx, hxs⟩ := List.forall_mem_cons.mp hxs
    rw [List.flatten_cons, List.length_cons, piecesOf_succ_append hx, ih hxs]

/-- The blocks of a region are its reads of 16 bytes. -/
theorem piecesOf_memRead_succ (s : State) (a n : Nat) : piecesOf 16 (n + 1) (s.memRead a (16 * (n + 1))) =
    s.memRead a 16 :: piecesOf 16 n (s.memRead (a + 16) (16 * n)) := by
  rw [Nat.mul_succ, Nat.add_comm (16 * n) 16, State.memRead_add, piecesOf_succ_append (s.length_memRead a 16)]

@[simp] theorem length_piecesOf (k n : Nat) (b : List Byte) : (piecesOf k n b).length = n := by simp [piecesOf]

theorem piecesOf_succ_eq_cons {k n : Nat} {b : List Byte} (hb : k * (n + 1) ≤ b.length) :
    piecesOf k (n + 1) b = b.take k :: piecesOf k n (b.drop k) := by
  rw [← piecesOf_succ_append (List.length_take_of_le (Nat.le_trans (Nat.le_mul_of_pos_right k n.succ_pos) hb)),
    List.take_append_drop]

theorem length_of_mem_piecesOf {k n : Nat} {b : List Byte} (hb : k * n ≤ b.length) :
    ∀ p ∈ piecesOf k n b, p.length = k := by
  induction n generalizing b with
  | zero => exact fun _ hp => (nomatch hp)
  | succ n ih =>
    rw [piecesOf_succ_eq_cons hb]
    rw [Nat.mul_succ] at hb
    exact List.forall_mem_cons.mpr
      ⟨List.length_take_of_le (by omega), ih (by rw [List.length_drop]; omega)⟩

theorem flatten_piecesOf {k n : Nat} {b : List Byte} (hb : b.length = k * n) : (piecesOf k n b).flatten = b := by
  induction n generalizing b with
  | zero => exact (List.length_eq_zero_iff.mp hb).symm
  | succ n ih =>
    rw [piecesOf_succ_eq_cons (Nat.le_of_eq hb.symm), List.flatten_cons, ih, List.take_append_drop]
    rw [List.length_drop, hb, Nat.mul_succ, Nat.add_sub_cancel]

/-- Encryption and decryption of a whole buffer, each cut into blocks. -/
theorem flatten_cbcDecrypt_cbcEncrypt (rk : Vector Word 32) {iv b : List Byte} {n : Nat} (hiv : iv.length = 16)
    (hb : b.length = 16 * n) :
    (cbcDecrypt rk iv (piecesOf 16 n (cbcEncrypt rk iv (piecesOf 16 n b)).flatten)).flatten = b := by
  have hcut := piecesOf_flatten (length_of_mem_cbcEncrypt rk iv (piecesOf 16 n b))
  rw [length_cbcEncrypt, length_piecesOf] at hcut
  rw [hcut, cbcDecrypt_cbcEncrypt rk hiv (length_of_mem_piecesOf (Nat.le_of_eq hb.symm)), flatten_piecesOf hb]

/-! ## What the loop writes (R79, R180, R181) -/

theorem State.memRead_eq_of_memByte_eq {s t : State} {a n : Nat}
    (h : ∀ x, a ≤ x → x < a + n → t.memByte x = s.memByte x) : t.memRead a n = s.memRead a n :=
  List.map_congr_left fun k hk => h (a + k) (by omega) (by have := List.mem_range.mp hk; omega)

/-- A region that shares no address with the blocks written reads as before. -/
theorem Dir.memRead_chainBlocks_disjoint (d : Dir) (n src dst : Nat) {s : State} (hs : Mem.wf s.mem) {a m : Nat}
    (h : disjoint a m dst (16 * n)) :
    (State.chainBlocks d.chainBlock n src dst s).memRead a m = s.memRead a m := by
  obtain ⟨-, hkeep⟩ := chainBlocks_memory s d.chainBlock_memory n src dst hs
  exact State.memRead_eq_of_memByte_eq fun x _ _ => hkeep x (by omega)

theorem State.chainBytes_of_cr {s : State} {b : List Byte} (hcr : s.cipher.cr = words4 b) (hb : b.length = 16) :
    s.chainBytes = b := by
  rw [State.chainBytes, hcr]
  exact serw_be32 hb

theorem Dir.chainBytes_chainBlock (d : Dir) (src dst : Nat) (s : State) : (d.chainBlock src dst s).chainBytes =
    d.chainNext s.cipher.rk s.chainBytes (s.memRead src 16) := by
  refine State.chainBytes_of_cr ?_ (d.length_chainNext _ _ (s.length_memRead src 16))
  rw [d.chainBlock_eq]

theorem Dir.memRead_chainBlock_same (d : Dir) (src dst : Nat) {s : State} (hs : Mem.wf s.mem) :
    (d.chainBlock src dst s).memRead dst 16 = d.chainOut s.cipher.rk s.chainBytes (s.memRead src 16) := by
  have hsame := State.memRead_memWrite_same hs dst (d.chainOut s.cipher.rk s.chainBytes (s.memRead src 16))
  rw [d.length_chainOut _ s.length_chainBytes] at hsame
  rw [← hsame]
  exact State.memRead_congr (by rw [d.chainBlock_eq]; rfl) (by rw [d.chainBlock_eq]; rfl) dst 16

/-- In place or with the regions apart, no block is read after a write to it, so the loop writes the chained transform of
the blocks that were there. -/
theorem Dir.memRead_chainBlocks (d : Dir) {n src dst : Nat} {s : State} (hs : Mem.wf s.mem)
    (hapart : src = dst ∨ disjoint src (16 * n) dst (16 * n)) :
    (State.chainBlocks d.chainBlock n src dst s).memRead dst (16 * n) =
      (d.cbc s.cipher.rk s.chainBytes (piecesOf 16 n (s.memRead src (16 * n)))).flatten := by
  induction n generalizing src dst s with
  | zero => rw [piecesOf, List.range_zero, List.map_nil, Dir.cbc_nil]; rfl
  | succ n ih =>
    obtain ⟨hwf, hkeep⟩ := d.chainBlock_memory src dst s hs
    obtain ⟨-, hrk, -⟩ := d.chainBlock_keeps src dst s
    have hfirst : (State.chainBlocks d.chainBlock (n + 1) src dst s).memRead dst 16 =
        d.chainOut s.cipher.rk s.chainBytes (s.memRead src 16) :=
      (d.memRead_chainBlocks_disjoint n _ _ hwf (.inl (Nat.le_refl _))).trans (d.memRead_chainBlock_same src dst hs)
    have hsrc : (d.chainBlock src dst s).memRead (src + 16) (16 * n) = s.memRead (src + 16) (16 * n) :=
      State.memRead_eq_of_memByte_eq fun x _ _ => hkeep x (by omega)
    have hrest : (State.chainBlocks d.chainBlock (n + 1) src dst s).memRead (dst + 16) (16 * n) =
        (d.cbc s.cipher.rk (d.chainNext s.cipher.rk s.chainBytes (s.memRead src 16))
          (piecesOf 16 n (s.memRead (src + 16) (16 * n)))).flatten := by
      rw [State.chainBlocks, ih hwf (by omega), hrk, d.chainBytes_chainBlock, hsrc]
    rw [piecesOf_memRead_succ, d.cbc_cons, List.flatten_cons, ← hfirst, ← hrest, Nat.mul_succ,
      Nat.add_comm (16 * n) 16, State.memRead_add]

/-! ## What the commands write (R180, R181, R186) -/

/-- The chain value a chained command starts from (R182). -/
def State.chainIv (s : State) (ivl : Bool) : List Byte := if ivl then s.memRead s.ops.ivp.toNat 16 else s.chainBytes

theorem State.length_chainIv (s : State) (ivl : Bool) : (s.chainIv ivl).length = 16 := by
  cases ivl
  · exact s.length_chainBytes
  · exact s.length_memRead _ 16

theorem State.chainBytes_ivStep_kxStep (s : State) (ivl kx : Bool) :
    ((s.kxStep kx).ivStep ivl).chainBytes = s.chainIv ivl := by
  cases ivl with
  | false => exact congrArg (fun cr => serw cr.toList) (s.kxStep_cr kx)
  | true =>
    refine State.chainBytes_of_cr ?_ (s.length_chainIv true)
    rw [State.ivStep_cipher, if_pos rfl, State.kxStep_ops, State.memRead_congr (s.kxStep_mem kx) (s.kxStep_powerUps kx)]
    rfl

section Written
variable {d : Dir} {ivl kx : Bool} {s t : State}

/-- A chained command that runs leaves MEM in its canonical form. -/
theorem wf_exec_chained (hs : Mem.wf s.mem) (hc : check (d.chained ivl kx) s = .ok)
    (h : exec (d.chained ivl kx) s = .next t) : Mem.wf t.mem := by
  rw [exec_chained_of_check_ok hc] at h
  cases h
  refine (chainBlocks_memory _ d.chainBlock_memory _ _ _ ?_).1
  rwa [State.ivStep_mem, State.kxStep_mem]

/-- A region apart from the one written reads as before. -/
theorem memRead_exec_chained_disjoint (hs : Mem.wf s.mem) (h : exec (d.chained ivl kx) s = .next t) {a n : Nat}
    (hapart : disjoint a n s.ops.dst.toNat s.ops.len.toNat) : t.memRead a n = s.memRead a n :=
  State.memRead_eq_of_memByte_eq fun x _ _ => memoryOutsideWriteRegionKept _ s t x hs h
    (.inl (by cases d <;> exact fun _ => by omega))

/-- In place or with the regions apart, the chained transform of the buffer stands at DST. -/
theorem memRead_exec_chained (hs : Mem.wf s.mem) (hc : check (d.chained ivl kx) s = .ok)
    (h : exec (d.chained ivl kx) s = .next t)
    (hapart : s.ops.src = s.ops.dst ∨ disjoint s.ops.src.toNat s.ops.len.toNat s.ops.dst.toNat s.ops.len.toNat) :
    t.memRead s.ops.dst.toNat s.ops.len.toNat = (d.cbc (s.chainKey kx) (s.chainIv ivl)
      (piecesOf 16 (s.ops.len.toNat / 16) (s.memRead s.ops.src.toNat s.ops.len.toNat))).flatten := by
  obtain ⟨-, hlen, -⟩ := (check_chained_eq_ok_iff d).mp hc
  have hblocks : 16 * (s.ops.len.toNat / 16) = s.ops.len.toNat := by omega
  have hmem : ((s.kxStep kx).ivStep ivl).mem = s.mem := by rw [State.ivStep_mem, State.kxStep_mem]
  have hpower : ((s.kxStep kx).ivStep ivl).powerUps = s.powerUps := by rw [State.ivStep_powerUps, State.kxStep_powerUps]
  have hrk : ((s.kxStep kx).ivStep ivl).cipher.rk = s.chainKey kx := d.chainAfter_rk ivl kx s 0
  rw [exec_chained_of_check_ok hc] at h
  cases h
  have hwritten := d.memRead_chainBlocks (n := s.ops.len.toNat / 16) (hmem ▸ hs)
    (hblocks.symm ▸ hapart.imp_left (congrArg BitVec.toNat))
  rw [hblocks, hrk, s.chainBytes_ivStep_kxStep, State.memRead_congr hmem hpower] at hwritten
  exact hwritten

end Written

/-- Settles O36, one direction of the chained mode each. -/
theorem chainedCommandsMatchListForm : Obligations.ChainedCommandsMatchListForm := fun _ _ _ _ hs hapart =>
  ⟨fun hc h => memRead_exec_chained (d := .enc) hs hc h hapart, fun hc h => memRead_exec_chained (d := .dec) hs hc h hapart⟩

/-! ## Decryption of what was encrypted (R186) -/

/-- The operands of a decryption, to `dst`, of what a command with the operands `o` wrote. -/
def Operands.decryptTo (o : Operands) (dst : Word) : Operands := { o with src := o.dst, dst := dst }

section RoundTrip
variable {s t : State} {dst : Word}

theorem check_cbcd_decryptTo (hc : check (.cbce true true) s = .ok) (hcfg : t.cfg = s.cfg)
    (hdst : s.has dst s.ops.len.toNat) : check (.cbcd true true) (t.setOps (s.ops.decryptTo dst)) = .ok := by
  obtain ⟨-, hlen, hkeypIn, hivpIn, -, hdstIn⟩ := (check_chained_eq_ok_iff .enc).mp hc
  rw [State.has, ← hcfg] at *
  exact (check_chained_eq_ok_iff .dec).mpr ⟨.inl rfl, hlen, hkeypIn, hivpIn, hdstIn, hdst⟩

/-- The schedule and the IV of the decryption are those of the encryption, which did not touch their bytes; the list forms
are inverse to each other. -/
theorem memRead_exec_cbcd_decryptTo {u : State} (hs : Mem.wf s.mem) (hc : check (.cbce true true) s = .ok)
    (h : exec (.cbce true true) s = .next t)
    (hapart : s.ops.src = s.ops.dst ∨ disjoint s.ops.src.toNat s.ops.len.toNat s.ops.dst.toNat s.ops.len.toNat)
    (hkeyp : disjoint s.ops.keyp.toNat 16 s.ops.dst.toNat s.ops.len.toNat)
    (hivp : disjoint s.ops.ivp.toNat 16 s.ops.dst.toNat s.ops.len.toNat)
    (hc' : check (.cbcd true true) (t.setOps (s.ops.decryptTo dst)) = .ok)
    (h' : exec (.cbcd true true) (t.setOps (s.ops.decryptTo dst)) = .next u)
    (hapart' : s.ops.dst = dst ∨ disjoint s.ops.dst.toNat s.ops.len.toNat dst.toNat s.ops.len.toNat) :
    u.memRead dst.toNat s.ops.len.toNat = s.memRead s.ops.src.toNat s.ops.len.toNat := by
  obtain ⟨-, hlen, -⟩ := (check_chained_eq_ok_iff .enc).mp hc
  have hkey : (t.setOps (s.ops.decryptTo dst)).chainKey true = s.chainKey true :=
    congrArg expandKey (memRead_exec_chained_disjoint (d := .enc) hs h hkeyp)
  have hiv : (t.setOps (s.ops.decryptTo dst)).chainIv true = s.chainIv true :=
    memRead_exec_chained_disjoint (d := .enc) hs h hivp
  have hcrypt : t.memRead s.ops.dst.toNat s.ops.len.toNat = (cbcEncrypt (s.chainKey true) (s.chainIv true)
      (piecesOf 16 (s.ops.len.toNat / 16) (s.memRead s.ops.src.toNat s.ops.len.toNat))).flatten :=
    memRead_exec_chained (d := .enc) hs hc h hapart
  have hwf : Mem.wf t.mem := wf_exec_chained (d := .enc) hs hc h
  have hplain : u.memRead dst.toNat s.ops.len.toNat =
      (cbcDecrypt ((t.setOps (s.ops.decryptTo dst)).chainKey true) ((t.setOps (s.ops.decryptTo dst)).chainIv true)
        (piecesOf 16 (s.ops.len.toNat / 16) (t.memRead s.ops.dst.toNat s.ops.len.toNat))).flatten :=
    memRead_exec_chained (d := .dec) (s := t.setOps (s.ops.decryptTo dst)) hwf hc' h' hapart'
  rw [hplain, hkey, hiv, hcrypt]
  exact flatten_cbcDecrypt_cbcEncrypt _ (s.length_chainIv true) (by rw [State.length_memRead]; omega)

end RoundTrip

/-- Settles O37: both commands pass their checks, and the second recovers the buffer of the first. -/
theorem chainedDecryptRecoversPlaintext : Obligations.ChainedDecryptRecoversPlaintext := by
  intro s dst o n hs hc hapart hkeyp hivp hdst hapart'
  have h := exec_chained_of_check_ok (d := .enc) hc
  have hc' := check_cbcd_decryptTo hc (exec_sameOutside h).cfg hdst
  have h' := exec_chained_of_check_ok (d := .dec) hc'
  exact ⟨_, _, h, h', rfl, memRead_exec_cbcd_decryptTo hs hc h hapart hkeyp hivp hc' h' (hapart'.imp_left Eq.symm)⟩

/-! ## Continuation (R185) -/

/-- The part of the state that a block reads and writes. -/
structure SameData (s t : State) : Prop where
  mem : t.mem = s.mem
  cipher : t.cipher = s.cipher
  powerUps : t.powerUps = s.powerUps

theorem SameData.complete {s t : State} (h : SameData s t) : SameData s (Machine.complete t) :=
  ⟨h.mem, h.cipher, h.powerUps⟩

theorem SameData.chainBlock {s t : State} (h : SameData s t) (d : Dir) (src dst : Nat) :
    SameData (d.chainBlock src dst s) (d.chainBlock src dst t) := by
  have hread := State.memRead_congr h.mem h.powerUps src 16
  have hchain : t.chainBytes = s.chainBytes := by rw [State.chainBytes, h.cipher, State.chainBytes]
  rw [d.chainBlock_eq, d.chainBlock_eq, hread, hchain, h.cipher, h.mem]
  exact ⟨rfl, rfl, h.powerUps⟩

theorem SameData.chainBlocks {s t : State} (h : SameData s t) (d : Dir) (n src dst : Nat) :
    SameData (State.chainBlocks d.chainBlock n src dst s) (State.chainBlocks d.chainBlock n src dst t) := by
  induction n generalizing src dst s t with
  | zero => exact h
  | succ n ih => exact ih (h.chainBlock d src dst) _ _

/-- The operands of a command over the first `n` bytes. -/
def Operands.firstPart (o : Operands) (n : Word) : Operands := { o with len := n }

/-- The operands of a command over the bytes after the first `n`. -/
def Operands.restPart (o : Operands) (n : Word) : Operands :=
  { o with src := o.src + n, dst := o.dst + n, len := o.len - n }

theorem State.has_of_le {s : State} {p : Word} {m n : Nat} (h : s.has p m) (hle : n ≤ m) : s.has p n := by
  unfold State.has at *
  omega

/-- A part of a region in range is in range, and its address does not wrap (R73). -/
theorem State.has_add {s : State} {p len n : Word} (hcfg : s.cfg.wf = true) (h : s.has p len.toNat)
    (hle : n.toNat ≤ len.toNat) : (len - n).toNat = 0 ∨
      (p + n).toNat = p.toNat + n.toNat ∧ (p + n).toNat + (len - n).toNat ≤ s.cfg.memBytes := by
  obtain ⟨-, hmem⟩ := of_decide_eq_true hcfg
  have hsub : (len - n).toNat = len.toNat - n.toNat := BitVec.toNat_sub_of_le hle
  rw [hsub, BitVec.toNat_add]
  unfold State.has at h
  omega

section Continuation
variable {d : Dir} {ivl kx : Bool} {s t : State} {n : Word}

/-- Blocks do not depend on LEN. -/
theorem sameData_chainAfter_firstPart (hkeyed : kx = true ∨ s.cipher.kvalid = true) (b : Nat) :
    SameData (d.chainAfter ivl kx s b) (d.chainAfter ivl kx (s.setOps (s.ops.firstPart n)) b) := by
  refine SameData.chainBlocks ?_ d b _ _
  rw [State.ivStep_kxStep_of_keyed hkeyed, State.ivStep_kxStep_of_keyed (s := s.setOps (s.ops.firstPart n)) hkeyed]
  exact ⟨rfl, rfl, rfl⟩

/-- The blocks of the rest go on from the CR, RK and MEM that those of the first part left. -/
theorem sameData_chainAfter_restPart (hcfg : s.cfg.wf = true) (hc : check (d.chained ivl kx) s = .ok)
    (h16 : n.toNat % 16 = 0) (hle : n.toNat ≤ s.ops.len.toNat) (ht : SameData (d.chainAfter ivl kx s (n.toNat / 16)) t) :
    SameData (d.chainAfter ivl kx s (s.ops.len.toNat / 16))
      (d.chainAfter false false (t.setOps (s.ops.restPart n)) ((s.ops.len - n).toNat / 16)) := by
  obtain ⟨-, -, -, -, hsrc, hdst⟩ := (check_chained_eq_ok_iff d).mp hc
  have hsub : (s.ops.len - n).toNat = s.ops.len.toNat - n.toNat := BitVec.toNat_sub_of_le hle
  have hadd : s.ops.len.toNat / 16 = n.toNat / 16 + (s.ops.len - n).toNat / 16 := by omega
  have hfirst : 16 * (n.toNat / 16) = n.toNat := by omega
  have hloop : d.chainAfter false false (t.setOps (s.ops.restPart n)) ((s.ops.len - n).toNat / 16) =
      State.chainBlocks d.chainBlock ((s.ops.len - n).toNat / 16) (s.ops.src.toNat + n.toNat) (s.ops.dst.toNat + n.toNat)
        (t.setOps (s.ops.restPart n)) := by
    by_cases hzero : (s.ops.len - n).toNat = 0
    · rw [hzero]; rfl
    · obtain ⟨hsrcAdd, -⟩ := (State.has_add hcfg hsrc hle).resolve_left hzero
      obtain ⟨hdstAdd, -⟩ := (State.has_add hcfg hdst hle).resolve_left hzero
      rw [← hsrcAdd, ← hdstAdd]
      rfl
  rw [hloop, Dir.chainAfter, hadd, chainBlocks_add, hfirst]
  exact SameData.chainBlocks (t := t.setOps (s.ops.restPart n)) ⟨ht.mem, ht.cipher, ht.powerUps⟩ d _ _ _

theorem check_chained_restPart (hcfg : s.cfg.wf = true) (hc : check (d.chained ivl kx) s = .ok)
    (h16 : n.toNat % 16 = 0) (hle : n.toNat ≤ s.ops.len.toNat) (ht : t.cfg = s.cfg) (hkvalid : t.cipher.kvalid = true) :
    check (d.chained false false) (t.setOps (s.ops.restPart n)) = .ok := by
  obtain ⟨-, hlen, -, -, hsrc, hdst⟩ := (check_chained_eq_ok_iff d).mp hc
  have hsub : (s.ops.len - n).toNat = s.ops.len.toNat - n.toNat := BitVec.toNat_sub_of_le hle
  have hrest : (s.ops.len - n).toNat % 16 = 0 := by omega
  have hin {p : Word} (hp : s.has p s.ops.len.toNat) : t.has (p + n) (s.ops.len - n).toNat := by
    rw [State.has, ht]
    exact (State.has_add hcfg hp hle).imp_right And.right
  exact (check_chained_eq_ok_iff d).mpr ⟨.inr hkvalid, hrest, nofun, nofun, hin hsrc, hin hdst⟩

end Continuation

/-- Two commands, the second going on from the CR and RK of the first, do what the whole one does. -/
theorem chained_continues (d : Dir) (s : State) (ivl kx : Bool) (n : Word) (hcfg : s.cfg.wf = true)
    (hc : check (d.chained ivl kx) s = .ok) (h16 : n.toNat % 16 = 0) (hle : n.toNat ≤ s.ops.len.toNat) :
    ∃ t t1 t2 : State, exec (d.chained ivl kx) s = .next t ∧
      exec (d.chained ivl kx) (s.setOps (s.ops.firstPart n)) = .next t1 ∧
      exec (d.chained false false) (t1.setOps (s.ops.restPart n)) = .next t2 ∧
      t2.mem = t.mem ∧ t2.cipher = t.cipher ∧ t2.err = .ok := by
  obtain ⟨hkeyed, -, hkeypIn, hivpIn, hsrcIn, hdstIn⟩ := (check_chained_eq_ok_iff d).mp hc
  have h := exec_chained_of_check_ok hc
  have hc1 : check (d.chained ivl kx) (s.setOps (s.ops.firstPart n)) = .ok := (check_chained_eq_ok_iff d).mpr
    ⟨hkeyed, h16, hkeypIn, hivpIn, State.has_of_le hsrcIn hle, State.has_of_le hdstIn hle⟩
  have h1 := exec_chained_of_check_ok hc1
  have hfirst : SameData (d.chainAfter ivl kx s (n.toNat / 16))
      (complete (d.chainAfter ivl kx (s.setOps (s.ops.firstPart n)) (n.toNat / 16))) :=
    (sameData_chainAfter_firstPart hkeyed _).complete
  have hkvalid := (congrArg CipherCtx.kvalid hfirst.cipher).trans (d.chainAfter_kvalid ivl hkeyed _)
  have h2 := exec_chained_of_check_ok (check_chained_restPart hcfg hc h16 hle (exec_sameOutside h1).cfg hkvalid)
  have hrest := (sameData_chainAfter_restPart hcfg hc h16 hle hfirst).complete
  exact ⟨_, _, _, h, h1, h2, hrest.mem, hrest.cipher, rfl⟩

/-- Settles O39, for each direction of the chained mode. -/
theorem continuationEqualsOneCommand : Obligations.ContinuationEqualsOneCommand := by
  intro s ivl kx n1 enc
  cases enc
  · exact chained_continues .dec s ivl kx n1
  · exact chained_continues .enc s ivl kx n1

end Sys2Proof.Machine
end

section
/-! PROOFS of the family 46_host_access.md: NOP (R190), and the host's reads and writes of the CSR window (R191 to R194). -/

namespace Sys2Proof.Machine

/-! ## NOP (R190) -/

/-- Settles O13: NOP fails no check, and its effect is none. -/
theorem nopOnlyClearsErr : Obligations.NopOnlyClearsErr := by
  have hexec (s : State) : exec .nop s = .next { s with err := .ok } := exec_of_check_ok rfl
  refine ⟨hexec, rfl, fun s rest hnext => ?_, fun w s hop hne => ?_⟩
  · exact (stepRunsDecodedCommand s 0 rest .nop hnext (decode_encode .nop)).trans (hexec _)
  · exact checkWord_eq_illegal_of_ne (by decide) hop hne s

/-! ## Reads (R191) -/

/-- The inputs and the answers are no register's. -/
@[simp] theorem Csr.read_setInputs (r : Csr) (s : State) (l : List Input) : r.read (s.setInputs l) = r.read s := by
  cases r <;> rfl

@[simp] theorem Csr.read_setResp (r : Csr) (s : State) (a : Response) : r.read (s.setResp a) = r.read s := by
  cases r <;> rfl

theorem csrValue_offset (r : Csr) (s : State) : csrValue r.offset s = r.read s := by
  rw [csrValue, Csr.ofOffset_offset]

theorem csrValue_of_reserved {o : Nat} (h : reservedOffset o) (s : State) : csrValue o s = 0 := by
  rw [csrValue, Csr.ofOffset_of_reserved h]

/-- Settles O53: the value read is `csrValue`, and only the answer records it. -/
theorem csrReadHasNoSideEffect : Obligations.CsrReadHasNoSideEffect := by
  intro s rest o ho h4 h
  refine ⟨csrValue o (s.setInputs rest), step_csrRead ho h4 h, ?_, fun hne => ?_⟩
  · rintro r rfl
    rw [csrValue_offset, Csr.read_setInputs]
  · exact csrValue_of_reserved ((forall_offset_ne_iff_reserved h4).mp hne) _

/-! ## Writes (R192, R193) -/

section Write
variable {r : Csr} (v : Word) (s : State)

theorem Csr.read_write_same (hr : r.writable = true) (hcmd : r ≠ .cmd) : r.read (r.write v s) = v := by
  cases r with
  | cmd => exact absurd rfl hcmd
  | src | dst | len | keyp | klen | ivp => rfl
  | hs i | cr i => exact Vector.getElem_set_self _
  | status | hcnt | hlenLo | hlenHi | hbuf i | rk i => cases hr

theorem Csr.write_of_readOnly (hr : r.writable = false) : r.write v s = s := by
  cases r with
  | status | hcnt | hlenLo | hlenHi | hbuf i | rk i => rfl
  | cmd | src | dst | len | keyp | klen | ivp | hs i | cr i => cases hr

/-- An operand CSR and an element of HS or CR are each a register of their own, and no part of STATUS. -/
theorem Csr.read_write_of_ne {r' : Csr} (hne : r' ≠ r) : r'.read (r.write v s) = r'.read s := by
  cases r with
  | cmd | status | hcnt | hlenLo | hlenHi | hbuf i | rk i => rfl
  | src | dst | len | keyp | klen | ivp =>
    cases r' <;> simp [Csr.read, Csr.write, State.status] at hne ⊢
  | hs i =>
    cases r' with
    | hs j => exact Vector.getElem_set_ne i.isLt j.isLt fun hij => hne (congrArg Csr.hs (Fin.ext hij.symm))
    | _ => rfl
  | cr i =>
    cases r' with
    | cr j => exact Vector.getElem_set_ne i.isLt j.isLt fun hij => hne (congrArg Csr.cr (Fin.ext hij.symm))
    | _ => rfl

theorem Csr.write_frame (r : Csr) : (r.write v s).mem = s.mem ∧ (r.write v s).powerUps = s.powerUps ∧
    (r.write v s).draws = s.draws ∧ (r.write v s).cfg = s.cfg ∧ (r.write v s).inputs = s.inputs := by
  cases r <;> exact ⟨rfl, rfl, rfl, rfl, rfl⟩

end Write

/-- The registers of R192 are those a host write sets. -/
theorem Csr.writable_of_mem_rw {r : Csr}
    (hr : r ∈ [Csr.src, .dst, .len, .keyp, .klen, .ivp] ∨ (∃ i, r = .hs i) ∨ (∃ i, r = .cr i)) :
    r.writable = true ∧ r ≠ .cmd := by
  obtain hmem | ⟨i, rfl⟩ | ⟨i, rfl⟩ := hr
  · revert r; decide
  · exact ⟨rfl, nofun⟩
  · exact ⟨rfl, nofun⟩

/-- The registers of R193 are those the CSR map marks RO. -/
theorem Csr.readOnly_of_mem_ro {r : Csr}
    (hr : r ∈ [Csr.status, .hcnt, .hlenLo, .hlenHi] ∨ (∃ i, r = .hbuf i) ∨ (∃ i, r = .rk i)) :
    r.writable = false := by
  obtain hmem | ⟨i, rfl⟩ | ⟨i, rfl⟩ := hr
  · revert r; decide
  · rfl
  · rfl

/-- Settles O55: the step is `Csr.write`, which a read of that register sees and a read of another does not. -/
theorem hostWriteSetsOneRegister : Obligations.HostWriteSetsOneRegister := by
  intro s rest r v hr h
  obtain ⟨hrw, hcmd⟩ := Csr.writable_of_mem_rw hr
  refine ⟨r.write v (s.accept rest), step_wr hcmd h, Csr.read_write_same v _ hrw hcmd, fun r' hne => ?_,
    Csr.write_frame v _ r⟩
  rw [Csr.read_write_of_ne v _ hne, State.accept, Csr.read_setResp, Csr.read_setInputs]

/-- Settles O56: a RO register drops the value, and at a reserved offset there is no register. -/
theorem hostWriteToReadOnlyIgnored : Obligations.HostWriteToReadOnlyIgnored := by
  rintro s rest o v ho h4 (⟨r, rfl, hr⟩ | hne) h
  · have hro := Csr.readOnly_of_mem_ro hr
    have hcmd : r ≠ .cmd := by
      rintro rfl
      cases hro
    rw [step_wr hcmd h, Csr.write_of_readOnly v _ hro]
    rfl
  · obtain ⟨-, hreserved⟩ := reservedOffsetsReadZeroIgnoreWrites o ho h4
    obtain ⟨-, hwrite⟩ := hreserved hne s rest v
    exact hwrite h

/-! ## Malformed accesses (R194) -/

/-- Settles O57: both accesses fail the window's check before any register is looked up. -/
theorem malformedCsrAccessHasNoEffect : Obligations.MalformedCsrAccessHasNoEffect := by
  intro s rest o size v ho hbad
  have hw : windowOffset (s.setInputs rest).cfg (s.cfg.csrBase + o) = some o := windowOffset_base_add s.cfg ho
  have hok : csrAccessOk o size = false := decide_eq_false (by omega)
  refine ⟨fun h => ?_, fun h => ?_⟩
  · rw [step_input h, applyInput, hostCsrRead, hw]
    simp only [csrReadResponse, hok]
    rfl
  · rw [step_input h, applyInput, hostCsrWrite, hw]
    simp only [hok]
    rfl

end Sys2Proof.Machine
end

section
/-! PROOFS of the family 60_exceptions.md: the order of the checks (R201, R203), and what a command leaves in STATUS.ERR
(R202, R204). -/

namespace Sys2Proof.Machine

/-! ## The checks in order (R201, R203) -/

theorem fields_of_decode {w : Word} {i : Instr} (h : decode w = .ok i) :
    i.fields.op.toNat = w.toNat % 16 ∧ i.fields.ivl = w.getLsbD 4 ∧ i.fields.kx = w.getLsbD 5 := by
  rw [← ofWord_eq_fields_of_decode h]
  exact ⟨CmdFields.op_ofWord w, rfl, rfl⟩

theorem checkWord_of_decode {w : Word} {i : Instr} (h : decode w = .ok i) (s : State) : checkWord w s = check i s := by
  rw [checkWord, h]

section Tests
variable (i : Instr)

theorem needsOpen_iff_op : needsOpen i = true ↔ i.fields.op.toNat = 3 ∨ i.fields.op.toNat = 4 := by
  cases i <;> simp [needsOpen, Instr.fields]

theorem needsClosed_iff_op : needsClosed i = true ↔ i.fields.op.toNat = 5 ∨ i.fields.op.toNat = 6 := by
  cases i <;> simp [needsClosed, Instr.fields]

theorem needsKey_iff_op : needsKey i = true ↔ (i.fields.op.toNat = 8 ∨ i.fields.op.toNat = 9 ∨ i.fields.op.toNat = 10 ∨
    i.fields.op.toNat = 11) ∧ ¬ i.fields.kx = true := by
  cases i <;> simp [needsKey, Instr.fields]

theorem needsBlocks_iff_op : needsBlocks i = true ↔ i.fields.op.toNat = 10 ∨ i.fields.op.toNat = 11 := by
  cases i <;> simp [needsBlocks, Instr.fields]

theorem extendsStream_iff_op : extendsStream i = true ↔ i.fields.op.toNat = 3 := by
  cases i <;> simp [extendsStream, Instr.fields]

end Tests

/-- Some region of R96 is not in range, for the command of the given number and options. -/
def State.regionOutside (s : State) (op : Nat) (ivl kx : Prop) : Prop :=
  let o := s.ops
  (op = 2 ∧ ¬ s.has o.src 64) ∨ (op = 3 ∧ ¬ s.has o.src o.len.toNat) ∨ (op = 4 ∧ ¬ s.has o.dst 32) ∨
  (op = 5 ∧ (¬ s.has o.src o.len.toNat ∨ ¬ s.has o.dst 32)) ∨
  (op = 6 ∧ (¬ s.has o.keyp o.klen.toNat ∨ ¬ s.has o.src o.len.toNat ∨ ¬ s.has o.dst 32)) ∨
  (op = 7 ∧ ¬ s.has o.keyp 16) ∨
  ((op = 8 ∨ op = 9) ∧ ((kx ∧ ¬ s.has o.keyp 16) ∨ ¬ s.has o.src 16 ∨ ¬ s.has o.dst 16)) ∨
  ((op = 10 ∨ op = 11) ∧ ((kx ∧ ¬ s.has o.keyp 16) ∨ (ivl ∧ ¬ s.has o.ivp 16) ∨
    ¬ s.has o.src o.len.toNat ∨ ¬ s.has o.dst o.len.toNat))

section Regions
variable (s : State)

theorem reads_inRange_eq_false_iff (p : Word) (n : Nat) :
    (Region.reads p n).inRange s.cfg.memBytes = false ↔ ¬ s.has p n := by
  rw [Region.reads, inRange_eq, decide_eq_false_iff_not]

theorem writes_inRange_eq_false_iff (p : Word) (n : Nat) :
    (Region.writes p n).inRange s.cfg.memBytes = false ↔ ¬ s.has p n := by
  rw [Region.writes, inRange_eq, decide_eq_false_iff_not]

theorem exists_keyRegion_outside_iff (kx : Bool) :
    (∃ r ∈ keyRegion kx s.ops, r.inRange s.cfg.memBytes = false) ↔ kx = true ∧ ¬ s.has s.ops.keyp 16 := by
  cases kx <;> simp [keyRegion, reads_inRange_eq_false_iff]

theorem exists_ivRegion_outside_iff (ivl : Bool) :
    (∃ r ∈ ivRegion ivl s.ops, r.inRange s.cfg.memBytes = false) ↔ ivl = true ∧ ¬ s.has s.ops.ivp 16 := by
  cases ivl <;> simp [ivRegion, reads_inRange_eq_false_iff]

theorem regionsInRange_eq_false_iff (i : Instr) :
    regionsInRange i s = false ↔ ∃ r ∈ regions i s.ops, r.inRange s.cfg.memBytes = false := by
  simp only [regionsInRange, List.all_eq_false, Bool.not_eq_true]

/-- Row by row of R96. -/
theorem regionsInRange_eq_false_iff_regionOutside (i : Instr) : regionsInRange i s = false ↔
    s.regionOutside i.fields.op.toNat (i.fields.ivl = true) (i.fields.kx = true) := by
  rw [regionsInRange_eq_false_iff]
  cases i with
  | nop | hinit => simp [regions, State.regionOutside, Instr.fields]
  | hcomp | hupd | hfin | hash | hmac | kexp =>
    simp [regions, State.regionOutside, Instr.fields, reads_inRange_eq_false_iff, writes_inRange_eq_false_iff]
  | benc kx | bdec kx =>
    simp [regions, State.regionOutside, Instr.fields, or_and_right, exists_or, exists_keyRegion_outside_iff,
      reads_inRange_eq_false_iff, writes_inRange_eq_false_iff]
  | cbce ivl kx | cbcd ivl kx =>
    simp [regions, State.regionOutside, Instr.fields, or_and_right, exists_or, exists_keyRegion_outside_iff,
      exists_ivRegion_outside_iff, reads_inRange_eq_false_iff, writes_inRange_eq_false_iff]

end Regions

/-- Settles O10: each test of `check` by the numbers of the word's fields, and the first that applies is the code. -/
theorem checkReportsFirstFailingTest : Obligations.CheckReportsFirstFailingTest := by
  intro w s op ivl kx o noCtx busy noKey align ovf range
  cases hd : decode w with
  | error e =>
    have hill : illegal w = true := exists_decode_error_iff_illegal.mp ⟨e, hd⟩
    simp [hill, checkWord_of_decode_error hd]
  | ok i =>
    have hill : illegal w = false := by
      obtain rfl := (decodeExactlyInvertsEncode w i).mp hd
      obtain ⟨-, hlegal, -⟩ := Laws.EncodesLegal.statement i
      exact hlegal
    obtain ⟨hop, hivl, hkx⟩ := fields_of_decode hd
    have hnoCtx : (needsOpen i && !s.hash.hact) = true ↔ noCtx := by
      simp only [Bool.and_eq_true, Bool.not_eq_true', needsOpen_iff_op, hop, noCtx, op]
    have hbusy : (needsClosed i && s.hash.hact) = true ↔ busy := by
      simp only [Bool.and_eq_true, needsClosed_iff_op, hop, busy, op]
    have hnoKey : (needsKey i && !s.cipher.kvalid) = true ↔ noKey := by
      simp only [Bool.and_eq_true, Bool.not_eq_true', needsKey_iff_op, hop, hkx, and_assoc, noKey, op, kx]
    have halign : (needsBlocks i && decide (s.ops.len.toNat % 16 ≠ 0)) = true ↔ align := by
      simp only [Bool.and_eq_true, decide_eq_true_iff, needsBlocks_iff_op, hop, align, op, o]
    have hovf : (extendsStream i && decide (s.hash.hlen.toNat + s.ops.len.toNat > hlenMax)) = true ↔ ovf := by
      rw [Bool.and_eq_true, decide_eq_true_iff, extendsStream_iff_op, hop]
      exact Iff.rfl
    have hrange : (!regionsInRange i s) = true ↔ range := by
      rw [Bool.not_eq_true', regionsInRange_eq_false_iff_regionOutside, hop, hivl, hkx]
      exact Iff.rfl
    rw [checkWord_of_decode hd, hill]
    simp only [check, hnoCtx, hbusy, hnoKey, halign, hovf, hrange]
    refine ⟨nofun, fun _ h => if_pos h, fun _ h1 h => ?_, fun _ h1 h2 h => ?_, fun _ h1 h2 h3 h => ?_,
      fun _ h1 h2 h3 h4 h => ?_, fun _ h1 h2 h3 h4 h5 h => ?_, fun _ h1 h2 h3 h4 h5 h6 => ?_⟩
    · rw [if_neg h1, if_pos h]
    · rw [if_neg h1, if_neg h2, if_pos h]
    · rw [if_neg h1, if_neg h2, if_neg h3, if_pos h]
    · rw [if_neg h1, if_neg h2, if_neg h3, if_neg h4, if_pos h]
    · rw [if_neg h1, if_neg h2, if_neg h3, if_neg h4, if_neg h5, if_pos h]
    · rw [if_neg h1, if_neg h2, if_neg h3, if_neg h4, if_neg h5, if_neg h6]

/-! ## A failed command, and STATUS.ERR (R202, R204) -/

/-- A check reads the parameters, the operand CSRs and the contexts, and nothing of MEM (R201). -/
theorem check_congr {s t : State} (hcfg : t.cfg = s.cfg) (hops : t.ops = s.ops) (hhash : t.hash = s.hash)
    (hcipher : t.cipher = s.cipher) (i : Instr) : check i t = check i s := by
  rw [check, check, regionsInRange, regionsInRange, hcfg, hops, hhash, hcipher]

theorem checkWord_congr {s t : State} (hcfg : t.cfg = s.cfg) (hops : t.ops = s.ops) (hhash : t.hash = s.hash)
    (hcipher : t.cipher = s.cipher) (w : Word) : checkWord w t = checkWord w s := by
  cases hd : decode w with
  | error e => rw [checkWord_of_decode_error hd, checkWord_of_decode_error hd]
  | ok i => rw [checkWord_of_decode hd, checkWord_of_decode hd, check_congr hcfg hops hhash hcipher]

theorem writeCmd_of_checkWord_fails {w : Word} {s : State} (h : checkWord w s ≠ .ok) :
    writeCmd w s = .next (reportError (checkWord w s) (s.setCmd w)) := by
  obtain ⟨t, ht⟩ := writeCmd_next w s
  obtain ⟨i, hd, hc, -⟩ | ⟨-, rfl⟩ := writeCmd_cases ht
  · exact absurd ((checkWord_of_decode hd s).trans hc) h
  · exact ht

theorem writeCmd_err {w : Word} {s t : State} (h : writeCmd w s = .next t) : t.err = checkWord w s := by
  obtain ⟨i, hd, hc, rfl⟩ | ⟨-, rfl⟩ := writeCmd_cases h
  · rw [complete_err, checkWord_of_decode hd, hc]
  · exact reportError_err _ _

/-- Settles O11: the failed word's write to CMD only records the code, and a check reads nothing of MEM. -/
theorem failedCommandHasExactlyTwoEffects : Obligations.FailedCommandHasExactlyTwoEffects := by
  refine fun s w => ⟨fun rest hnext hfails => ?_, fun m p => checkWord_congr (s := s) rfl rfl rfl rfl w⟩
  have hcheck : checkWord w (s.accept rest) = checkWord w s := checkWord_congr rfl rfl rfl rfl w
  have hwrite := writeCmd_of_checkWord_fails (s := s.accept rest) (by rwa [hcheck])
  rw [hcheck] at hwrite
  exact (step_writeCmd hnext).trans hwrite

/-- Settles O12: a write to CMD records the result of its check, and no other access reaches STATUS.ERR. -/
theorem errDescribesLatestCommand : Obligations.ErrDescribesLatestCommand := by
  refine ⟨rfl, fun s t x rest h hstep => ⟨?_, fun hcmd hreset => (step_sameControl h hcmd hreset hstep).err⟩⟩
  rintro w rfl
  have hcheck : checkWord w (s.accept rest) = checkWord w s := checkWord_congr rfl rfl rfl rfl w
  rw [step_writeCmd h] at hstep
  exact (writeCmd_err hstep).trans hcheck

end Sys2Proof.Machine
end

section
/-! PROOFS of the family 70_reset_and_hazards.md: what the registers and MEM hold after each reset (R230 to R232). -/

namespace Sys2Proof.Machine

/-! ## The registers after a reset (R230) -/

theorem Csr.read_resetRegisters (s : State) (r : Csr) : r.read s.resetRegisters = 0 := by
  cases r with
  | hs i | cr i | rk i => exact Vector.getElem_replicate _
  | hbuf i =>
    refine (be32_toList (Vector.replicate 64 (0 : Byte)) (4 * i.val) (by omega)).trans ?_
    simp only [Vector.getElem_replicate]
    rfl
  | status =>
    exact (by decide : (0 : BitVec 22) ++ BitVec.ofBool false ++ BitVec.ofBool false ++ Err.ok.code = 0)
  | hlenLo | hlenHi => exact BitVec.extractLsb'_zero
  | cmd | src | dst | len | keyp | klen | ivp | hcnt => rfl

/-- Settles O46: MEM lists nothing, MEM_BYTES is legal, and the registers are those a reset gives. -/
theorem resetStateMeetsInvariant : Obligations.ResetStateMeetsInvariant := by
  have hmem : State.reset.MemOk := ⟨List.Pairwise.nil, nofun⟩
  exact hmem.inv_resetRegisters (by decide)

theorem needsKey_of_mem_kx_false (ivl : Bool) :
    ∀ i ∈ [Instr.benc false, .bdec false, .cbce ivl false, .cbcd ivl false], needsKey i = true := by
  simp [needsKey]

/-! ## A reset while a command runs (R231) -/

section Scramble
variable {s : State} {a : Nat}

theorem State.scramble_inputs (s : State) (r : Region) : (s.scramble r).inputs = s.inputs := by
  unfold State.scramble
  split <;> rfl

theorem foldl_scramble_keeps (rs : List Region) (s : State) : (rs.foldl State.scramble s).cfg = s.cfg ∧
    (rs.foldl State.scramble s).inputs = s.inputs := by
  induction rs generalizing s with
  | nil => exact ⟨rfl, rfl⟩
  | cons r rs ih =>
    obtain ⟨hcfg, hinputs⟩ := ih (s.scramble r)
    exact ⟨hcfg.trans (s.scramble_cfg r), hinputs.trans (s.scramble_inputs r)⟩

/-- A scrambled region changes the bytes it writes, and no others. -/
theorem State.scramble_memory (hs : Mem.wf s.mem) {r : Region}
    (hr : (decide (r.access = .write) && r.covers a) = false) :
    Mem.wf (s.scramble r).mem ∧ (s.scramble r).memByte a = s.memByte a := by
  unfold State.scramble
  split
  · exact ⟨hs, rfl⟩
  · next haccess =>
    have hout : ¬ (r.addr ≤ a ∧ a < r.addr + (freeBytes s.draws r.len).length) := by
      simpa [haccess, Region.covers] using hr
    exact ⟨Mem.wf_writeBytes hs _ _, State.memByte_memWrite_of_not hs hout⟩

theorem foldl_scramble_memByte (hs : Mem.wf s.mem) {rs : List Region}
    (hr : ∀ r ∈ rs, (decide (r.access = .write) && r.covers a) = false) :
    (rs.foldl State.scramble s).memByte a = s.memByte a := by
  induction rs generalizing s with
  | nil => rfl
  | cons r rs ih =>
    obtain ⟨hhead, htail⟩ := List.forall_mem_cons.mp hr
    obtain ⟨hwf, hbyte⟩ := State.scramble_memory hs hhead
    exact (ih hwf htail).trans hbyte

end Scramble

theorem cutRegions_of_checkWord_fails {w : Word} {s : State} (h : checkWord w s ≠ .ok) : cutRegions w s = [] := by
  unfold cutRegions
  cases hd : decode w with
  | error e => rfl
  | ok i => exact if_neg (checkWord_of_decode hd s ▸ h)

theorem exists_of_mem_cutRegions {w : Word} {s : State} {r : Region} (h : r ∈ cutRegions w s) :
    ∃ i, decode w = .ok i ∧ check i s = .ok ∧ r ∈ regions i s.ops := by
  unfold cutRegions at h
  split at h
  · cases h
  · next i hd =>
    split at h
    · next hc => exact ⟨i, hd, hc, h⟩
    · cases h

theorem resetDuring_memByte {w : Word} {s : State} (hs : Mem.wf s.mem) {a : Nat}
    (h : ∀ i, decode w = .ok i → check i s = .ok → storesTo i s.ops a = false) :
    (resetDuring w s).memByte a = s.memByte a := by
  refine foldl_scramble_memByte hs fun r hr => ?_
  obtain ⟨i, hd, hc, hmem⟩ := exists_of_mem_cutRegions hr
  have hnone := h i hd hc
  rw [storesTo, List.any_eq_false] at hnone
  simpa only [Bool.not_eq_true] using hnone r hmem

theorem resetDuring_mem_of_checkWord_fails {w : Word} {s : State} (h : checkWord w s ≠ .ok) :
    (resetDuring w s).mem = s.mem := by
  rw [resetDuring, cutRegions_of_checkWord_fails h]
  rfl

/-- The answer the cut write does not get is no register. -/
theorem resetDuring_eq_resetRegisters (w : Word) (s : State) :
    resetDuring w s = (((cutRegions w s).foldl State.scramble s).setResp .none).resetRegisters := rfl

/-- Settles O60: the bytes scrambled are those the command stores to, and a word whose check fails cuts no regions. -/
theorem resetDuringCommandSparesOtherMemory : Obligations.ResetDuringCommandSparesOtherMemory := by
  intro s w rest hs h
  refine ⟨resetDuring w (s.setInputs rest), step_input h, fun r => ?_, fun a ha => ?_, fun hfails => ?_⟩
  · rw [resetDuring_eq_resetRegisters]
    exact Csr.read_resetRegisters _ r
  · exact resetDuring_memByte (s := s.setInputs rest) hs fun i hd hc =>
      ha i hd ((check_congr (s := s.setInputs rest) rfl rfl rfl rfl i).trans hc)
  · refine resetDuring_mem_of_checkWord_fails (s := s.setInputs rest) ?_
    rwa [checkWord_congr (s := s) (t := s.setInputs rest) rfl rfl rfl rfl]

/-! ## Every reset (R230 to R232) -/

/-- Whatever a reset does to MEM, it then resets the registers. -/
theorem step_of_isReset {s : State} {x : Input} {rest : List Input} (h : s.inputs = x :: rest)
    (hreset : x.isReset = true) : ∃ u : State, step s = .next u.resetRegisters ∧ u.cfg = s.cfg ∧ u.inputs = rest ∧
      (x = .reset → u.mem = s.mem ∧ u.powerUps = s.powerUps) := by
  rw [step_input h]
  cases x with
  | reset => exact ⟨_, rfl, rfl, rfl, fun _ => ⟨rfl, rfl⟩⟩
  | powerUp => exact ⟨(s.setInputs rest).forgetMem, rfl, rfl, rfl, nofun⟩
  | resetDuring w =>
    obtain ⟨hcfg, hinputs⟩ := foldl_scramble_keeps (cutRegions w (s.setInputs rest)) (s.setInputs rest)
    exact ⟨_, congrArg _ (resetDuring_eq_resetRegisters w (s.setInputs rest)), hcfg, hinputs, nofun⟩
  | csrRead addr size | csrWrite addr size v | memRead a n | memWrite a bs => cases hreset

/-- Settles O59: each of the three resets ends with `State.resetRegisters`. -/
theorem resetClearsEveryRegister : Obligations.ResetClearsEveryRegister := by
  refine ⟨Csr.read_resetRegisters State.reset, fun s x rest h hx => ?_⟩
  have hreset : x.isReset = true := by
    obtain rfl | rfl | ⟨w, rfl⟩ := hx <;> rfl
  obtain ⟨u, hstep, hcfg, hinputs, hmem⟩ := step_of_isReset h hreset
  exact ⟨u.resetRegisters, hstep, Csr.read_resetRegisters u, rfl, rfl, rfl,
    fun ivl i hi => check_eq_noKey (needsKey_of_mem_kx_false ivl i hi) rfl, hcfg, hinputs, hmem⟩

end Sys2Proof.Machine
end
